-- ==== Sys2Proof/Word.lean ====
section
/-! DEFINITION. The widths of the block's data (spec/00_scope.md R6, R7): names for bit vectors and for the
tables indexed by a byte value. -/

namespace Sys2Proof

/-- A byte of a stream (00_scope.md R6). -/
abbrev Byte := BitVec 8

/-- A symbol: one of the 256 byte values (00_scope.md R6). -/
abbrev Symbol := BitVec 8

/-- The command word `CMD`, `CMD_W` = 16 bits (00_scope.md R7, 30_encoding.md R90). -/
abbrev Word := BitVec 16

/-- A checksum: 32 bits (00_scope.md R6). -/
abbrev Word32 := BitVec 32

/-- The operand bus `WDATA`, the result `RES` and the counts: 64 bits (00_scope.md R6, R7). -/
abbrev Word64 := BitVec 64

/-- A code value: `CODE_W` = 255 bits (00_scope.md R7, 44_canonical.md R222). -/
abbrev CodeValue := BitVec 255

/-- A table with one element for each of the 256 symbols (10_state.md R36, R40, R41). -/
abbrev Table (α : Type) := Vector α 256

end Sys2Proof
end

