-- ==== Sys2Proof/Config.lean ====
section
/-! DEFINITION. What an implementation of the block fixes: the capacities the spec gives a number
(spec/00_scope.md R7) and the parameters it leaves open (R8). -/

namespace Sys2Proof

/-- `HT_CAP`: the slots of the tree arena (00_scope.md R7). -/
def Config.htCap : Nat := 511

/-- `TR_CAP`: the slots of the trie arena (00_scope.md R7). -/
def Config.trCap : Nat := 65281

/-- `GETN_MAX`: the largest bit count of one `BR.GETN` (00_scope.md R7). -/
def Config.getnMax : Nat := 64

/-- What `MB_CAP` is above 1; the spec leaves it open, so it has no value here (00_scope.md R8).
DESIGN CHOICE, notes/assumptions/3.md. Safe: no proof can lean on a number. -/
opaque Config.mbCapLessOne : Nat

/-- `MB_CAP`, the byte capacity of the in-memory buffer: "natural number, at least 1" (00_scope.md R8). -/
def Config.mbCap : Nat := Config.mbCapLessOne + 1

/-- `MAGIC`, the container's four literal bytes, whose values the source does not give; the block never
reads or writes them (00_scope.md R8, 20_memory.md R75). notes/assumptions/12.md. Safe: no value is chosen. -/
opaque Config.magic : Vector Byte 4

end Sys2Proof
end

