-- ==== Sys2Proof/Syntax.lean ====
section
/-! DEFINITION. The commands of the block (spec/30_encoding.md R94): one constructor for each of the 34 rows of
spec/opcode_table.json. A command carries its `arg` operand (R92) and the bits of `WDATA` its rule names (R93). -/

namespace Sys2Proof

/-- What the host presents on the command port: the word `CMD` and, with it, the operand `WDATA`
(30_encoding.md R90). -/
structure Cmd where
  word : Word
  wdata : Word64
  deriving DecidableEq, Repr

/-- The five ways a command uses `arg` (30_encoding.md R92). -/
inductive ArgKind where
  | none
  | byte
  | symbol
  | bit
  | count
  deriving DecidableEq, Repr

/-- The 34 commands (30_encoding.md R94). -/
inductive Instr where
  /-- `SYS.NOP` (46_system.md R280). -/
  | sysNop
  /-- `SYS.RST` (46_system.md R281). -/
  | sysRst
  /-- `SYS.CLRF` (46_system.md R282). -/
  | sysClrf
  /-- `CRC.INIT` (41_crc.md R121). -/
  | crcInit
  /-- `CRC.UPD b` (41_crc.md R122). -/
  | crcUpd (b : Byte)
  /-- `CRC.FIN` (41_crc.md R123). -/
  | crcFin
  /-- `CRC.SET`, `v` = `WDATA[31:0]` (41_crc.md R124). -/
  | crcSet (v : Word32)
  /-- `BW.RST` (42_bitstream.md R140). -/
  | bwRst
  /-- `BW.PUT b` (42_bitstream.md R141). -/
  | bwPut (b : Bool)
  /-- `BW.FLUSH` (42_bitstream.md R142). -/
  | bwFlush
  /-- `BW.PUTSYM sym` (44_canonical.md R225). -/
  | bwPutsym (sym : Symbol)
  /-- `BR.RST` (42_bitstream.md R146). -/
  | brRst
  /-- `BR.GET` (42_bitstream.md R147). -/
  | brGet
  /-- `BR.GETN n`, `n` = `arg` (42_bitstream.md R148). -/
  | brGetn (n : Byte)
  /-- `BR.SEEK`, `p` = `WDATA[63:0]` (42_bitstream.md R149). -/
  | brSeek (p : Word64)
  /-- `MB.RST` (42_bitstream.md R155). -/
  | mbRst
  /-- `MB.PUT b` (42_bitstream.md R156). -/
  | mbPut (b : Bool)
  /-- `MB.FLUSH` (42_bitstream.md R157). -/
  | mbFlush
  /-- `MB.PUTSYM sym` (44_canonical.md R226). -/
  | mbPutsym (sym : Symbol)
  /-- `MB.REPLAY` (42_bitstream.md R158). -/
  | mbReplay
  /-- `FQ.CLR` (43_tree_builder.md R180). -/
  | fqClr
  /-- `FQ.SET sym`, `n` = `WDATA[63:0]` (43_tree_builder.md R181). -/
  | fqSet (sym : Symbol) (n : Word64)
  /-- `FQ.INC sym` (43_tree_builder.md R182). -/
  | fqInc (sym : Symbol)
  /-- `HT.BUILD` (43_tree_builder.md R188). -/
  | htBuild
  /-- `CL.CLR` (44_canonical.md R210). -/
  | clClr
  /-- `CL.SET sym`, `l` = `WDATA[7:0]` (44_canonical.md R211). -/
  | clSet (sym : Symbol) (l : Byte)
  /-- `CL.EXTRACT` (44_canonical.md R212). -/
  | clExtract
  /-- `CC.ASSIGN` (44_canonical.md R220). -/
  | ccAssign
  /-- `TR.BUILD` (45_decoder.md R240). -/
  | trBuild
  /-- `TD.SETSIZE`, `n` = `WDATA[63:0]` (45_decoder.md R250). -/
  | tdSetsize (n : Word64)
  /-- `TD.SETCRC`, `v` = `WDATA[31:0]` (45_decoder.md R251). -/
  | tdSetcrc (v : Word32)
  /-- `TD.START` (45_decoder.md R252). -/
  | tdStart
  /-- `TD.STEP` (45_decoder.md R255). -/
  | tdStep
  /-- `TD.RUN` (45_decoder.md R260). -/
  | tdRun
  deriving DecidableEq, Repr

end Sys2Proof
end

