-- ==== Sys2Proof/WellFormed.lean ====
section
/-! DEFINITION. Which commands have a word (spec/30_encoding.md R92): the one operand whose type admits more than
the encoding does is the count of `BR.GETN`. -/

namespace Sys2Proof

/-- The counts `BR.GETN` takes: "1 to 64" (30_encoding.md R92). -/
def countOk (n : Byte) : Bool := decide (1 ≤ n.toNat) && decide (n.toNat ≤ Config.getnMax)

/-- A command that some word encodes (30_encoding.md R92). -/
def Instr.wf : Instr → Bool
  | .brGetn n => countOk n
  | .sysNop | .sysRst | .sysClrf | .crcInit | .crcUpd _ | .crcFin | .crcSet _
  | .bwRst | .bwPut _ | .bwFlush | .bwPutsym _ | .brRst | .brGet | .brSeek _
  | .mbRst | .mbPut _ | .mbFlush | .mbPutsym _ | .mbReplay
  | .fqClr | .fqSet _ _ | .fqInc _ | .htBuild
  | .clClr | .clSet _ _ | .clExtract | .ccAssign
  | .trBuild | .tdSetsize _ | .tdSetcrc _ | .tdStart | .tdStep | .tdRun => true

end Sys2Proof
end

