-- ==== Sys2Proof/Decode.lean ====
section
/-! DEFINITION. Decoding a command word, total on all 65536 words and every `WDATA` (spec/30_encoding.md R95), the
encoder from the same table (R94), and the table itself as rows of mask and match. -/

namespace Sys2Proof

/-- Why a word is no command (30_encoding.md R95, R97). -/
inductive DecodeError where
  /-- `op` is not in the table of R94. -/
  | unknownOp (op : Byte)
  /-- `arg` breaks the constraint of the command's kind (R92). -/
  | badArg (op : Byte) (arg : Byte)
  deriving DecidableEq, Repr

/-- `CMD[15:8]` (30_encoding.md R90). -/
def opOf (w : Word) : Byte := w.extractLsb' 8 8

/-- `CMD[7:0]` (30_encoding.md R90). -/
def argOf (w : Word) : Byte := w.extractLsb' 0 8

/-- A command of kind none: `arg` must be 0 (30_encoding.md R92). -/
def argNone (w : Word) (i : Instr) : Except DecodeError Instr :=
  if argOf w = 0#8 then .ok i else .error (.badArg (opOf w) (argOf w))

/-- A command of kind bit: `arg[7:1]` must be 0, the bit is `arg[0]` (30_encoding.md R92). -/
def argBit (w : Word) (f : Bool → Instr) : Except DecodeError Instr :=
  if argOf w = 0#8 then .ok (f false)
  else if argOf w = 1#8 then .ok (f true)
  else .error (.badArg (opOf w) (argOf w))

/-- A command of kind count: `arg` is 1 to 64 (30_encoding.md R92). -/
def argCount (w : Word) (f : Byte → Instr) : Except DecodeError Instr :=
  if countOk (argOf w) then .ok (f (argOf w)) else .error (.badArg (opOf w) (argOf w))

/-- The command of a word and its operand: by `op`, then by the constraint on `arg` (30_encoding.md R94, R95);
the bits of `WDATA` a command does not name are ignored (R93). -/
def decode (c : Cmd) : Except DecodeError Instr :=
  match opOf c.word with
  | 0x00#8 => argNone c.word .sysNop
  | 0x01#8 => argNone c.word .sysRst
  | 0x02#8 => argNone c.word .sysClrf
  | 0x10#8 => argNone c.word .crcInit
  | 0x11#8 => .ok (.crcUpd (argOf c.word))
  | 0x12#8 => argNone c.word .crcFin
  | 0x13#8 => argNone c.word (.crcSet (c.wdata.extractLsb' 0 32))
  | 0x20#8 => argNone c.word .bwRst
  | 0x21#8 => argBit c.word .bwPut
  | 0x22#8 => argNone c.word .bwFlush
  | 0x23#8 => .ok (.bwPutsym (argOf c.word))
  | 0x30#8 => argNone c.word .brRst
  | 0x31#8 => argNone c.word .brGet
  | 0x32#8 => argCount c.word .brGetn
  | 0x33#8 => argNone c.word (.brSeek c.wdata)
  | 0x40#8 => argNone c.word .mbRst
  | 0x41#8 => argBit c.word .mbPut
  | 0x42#8 => argNone c.word .mbFlush
  | 0x43#8 => .ok (.mbPutsym (argOf c.word))
  | 0x44#8 => argNone c.word .mbReplay
  | 0x50#8 => argNone c.word .fqClr
  | 0x51#8 => .ok (.fqSet (argOf c.word) c.wdata)
  | 0x52#8 => .ok (.fqInc (argOf c.word))
  | 0x53#8 => argNone c.word .htBuild
  | 0x60#8 => argNone c.word .clClr
  | 0x61#8 => .ok (.clSet (argOf c.word) (c.wdata.extractLsb' 0 8))
  | 0x62#8 => argNone c.word .clExtract
  | 0x63#8 => argNone c.word .ccAssign
  | 0x70#8 => argNone c.word .trBuild
  | 0x71#8 => argNone c.word (.tdSetsize c.wdata)
  | 0x72#8 => argNone c.word (.tdSetcrc (c.wdata.extractLsb' 0 32))
  | 0x73#8 => argNone c.word .tdStart
  | 0x74#8 => argNone c.word .tdStep
  | 0x75#8 => argNone c.word .tdRun
  | op => .error (.unknownOp op)

/-- The word with the two fields `op` and `arg` (30_encoding.md R90, R105). -/
def wordOf (op arg : Byte) : Word := op ++ arg

/-- The `arg` byte of a bit operand (30_encoding.md R92). -/
def bitArg (b : Bool) : Byte := if b then 1#8 else 0#8

/-- A command's word and operand, the bits of `WDATA` it does not name being 0 (30_encoding.md R93, R94). -/
def encode : Instr → Cmd
  | .sysNop => ⟨wordOf 0x00#8 0#8, 0#64⟩
  | .sysRst => ⟨wordOf 0x01#8 0#8, 0#64⟩
  | .sysClrf => ⟨wordOf 0x02#8 0#8, 0#64⟩
  | .crcInit => ⟨wordOf 0x10#8 0#8, 0#64⟩
  | .crcUpd b => ⟨wordOf 0x11#8 b, 0#64⟩
  | .crcFin => ⟨wordOf 0x12#8 0#8, 0#64⟩
  | .crcSet v => ⟨wordOf 0x13#8 0#8, v.setWidth 64⟩
  | .bwRst => ⟨wordOf 0x20#8 0#8, 0#64⟩
  | .bwPut b => ⟨wordOf 0x21#8 (bitArg b), 0#64⟩
  | .bwFlush => ⟨wordOf 0x22#8 0#8, 0#64⟩
  | .bwPutsym sym => ⟨wordOf 0x23#8 sym, 0#64⟩
  | .brRst => ⟨wordOf 0x30#8 0#8, 0#64⟩
  | .brGet => ⟨wordOf 0x31#8 0#8, 0#64⟩
  | .brGetn n => ⟨wordOf 0x32#8 n, 0#64⟩
  | .brSeek p => ⟨wordOf 0x33#8 0#8, p⟩
  | .mbRst => ⟨wordOf 0x40#8 0#8, 0#64⟩
  | .mbPut b => ⟨wordOf 0x41#8 (bitArg b), 0#64⟩
  | .mbFlush => ⟨wordOf 0x42#8 0#8, 0#64⟩
  | .mbPutsym sym => ⟨wordOf 0x43#8 sym, 0#64⟩
  | .mbReplay => ⟨wordOf 0x44#8 0#8, 0#64⟩
  | .fqClr => ⟨wordOf 0x50#8 0#8, 0#64⟩
  | .fqSet sym n => ⟨wordOf 0x51#8 sym, n⟩
  | .fqInc sym => ⟨wordOf 0x52#8 sym, 0#64⟩
  | .htBuild => ⟨wordOf 0x53#8 0#8, 0#64⟩
  | .clClr => ⟨wordOf 0x60#8 0#8, 0#64⟩
  | .clSet sym l => ⟨wordOf 0x61#8 sym, l.setWidth 64⟩
  | .clExtract => ⟨wordOf 0x62#8 0#8, 0#64⟩
  | .ccAssign => ⟨wordOf 0x63#8 0#8, 0#64⟩
  | .trBuild => ⟨wordOf 0x70#8 0#8, 0#64⟩
  | .tdSetsize n => ⟨wordOf 0x71#8 0#8, n⟩
  | .tdSetcrc v => ⟨wordOf 0x72#8 0#8, v.setWidth 64⟩
  | .tdStart => ⟨wordOf 0x73#8 0#8, 0#64⟩
  | .tdStep => ⟨wordOf 0x74#8 0#8, 0#64⟩
  | .tdRun => ⟨wordOf 0x75#8 0#8, 0#64⟩

/-- One row of the opcode map: the word is the command when `w & mask = pattern` and `arg` meets its kind's
constraint (30_encoding.md R94). -/
structure OpcodeRow where
  mask : Word
  pattern : Word
  kind : ArgKind
  deriving DecidableEq, Repr

/-- The constraint a kind puts on `arg` (30_encoding.md R92). -/
def ArgKind.admits (k : ArgKind) (arg : Byte) : Bool :=
  match k with
  | .none => arg == 0#8
  | .byte => true
  | .symbol => true
  | .bit => arg &&& 0xFE#8 == 0#8
  | .count => countOk arg

/-- `w & mask = match` and the constraint on `arg` (30_encoding.md R94). -/
def OpcodeRow.holds (r : OpcodeRow) (w : Word) : Bool :=
  w &&& r.mask == r.pattern && r.kind.admits (argOf w)

/-- The rows of units 0 to 3 of the opcode map (30_encoding.md R94). -/
def opcodeRowsLow : List OpcodeRow :=
  [⟨0xFFFF#16, 0x0000#16, .none⟩, ⟨0xFFFF#16, 0x0100#16, .none⟩, ⟨0xFFFF#16, 0x0200#16, .none⟩,
   ⟨0xFFFF#16, 0x1000#16, .none⟩, ⟨0xFF00#16, 0x1100#16, .byte⟩, ⟨0xFFFF#16, 0x1200#16, .none⟩,
   ⟨0xFFFF#16, 0x1300#16, .none⟩,
   ⟨0xFFFF#16, 0x2000#16, .none⟩, ⟨0xFFFE#16, 0x2100#16, .bit⟩, ⟨0xFFFF#16, 0x2200#16, .none⟩,
   ⟨0xFF00#16, 0x2300#16, .symbol⟩,
   ⟨0xFFFF#16, 0x3000#16, .none⟩, ⟨0xFFFF#16, 0x3100#16, .none⟩, ⟨0xFF00#16, 0x3200#16, .count⟩,
   ⟨0xFFFF#16, 0x3300#16, .none⟩]

/-- The rows of units 4 to 7 of the opcode map (30_encoding.md R94). -/
def opcodeRowsHigh : List OpcodeRow :=
  [⟨0xFFFF#16, 0x4000#16, .none⟩, ⟨0xFFFE#16, 0x4100#16, .bit⟩, ⟨0xFFFF#16, 0x4200#16, .none⟩,
   ⟨0xFF00#16, 0x4300#16, .symbol⟩, ⟨0xFFFF#16, 0x4400#16, .none⟩,
   ⟨0xFFFF#16, 0x5000#16, .none⟩, ⟨0xFF00#16, 0x5100#16, .symbol⟩, ⟨0xFF00#16, 0x5200#16, .symbol⟩,
   ⟨0xFFFF#16, 0x5300#16, .none⟩,
   ⟨0xFFFF#16, 0x6000#16, .none⟩, ⟨0xFF00#16, 0x6100#16, .symbol⟩, ⟨0xFFFF#16, 0x6200#16, .none⟩,
   ⟨0xFFFF#16, 0x6300#16, .none⟩,
   ⟨0xFFFF#16, 0x7000#16, .none⟩, ⟨0xFFFF#16, 0x7100#16, .none⟩, ⟨0xFFFF#16, 0x7200#16, .none⟩,
   ⟨0xFFFF#16, 0x7300#16, .none⟩, ⟨0xFFFF#16, 0x7400#16, .none⟩, ⟨0xFFFF#16, 0x7500#16, .none⟩]

/-- The opcode map, 34 rows (30_encoding.md R94). -/
def opcodeTable : List OpcodeRow := opcodeRowsLow ++ opcodeRowsHigh

/-- A command laid out as one number: the word in bits 15 to 0, `WDATA` in the 64 bits above it. -/
def cmdOfBits (bits : Nat) : Cmd :=
  ⟨BitVec.ofNat 16 bits, BitVec.ofNat 64 (bits >>> 16)⟩

/-- The command the decoder reads from a table row's word of `nbits` bits; a number of fewer than the 16 bits
of a command word is no word (30_encoding.md R90: "There is no other length"). -/
def decodeTableWord (nbits w : Nat) : Option Instr :=
  if nbits < 16 then none
  else
    match decode (cmdOfBits (w % 2 ^ nbits)) with
    | .ok i => some i
    | .error _ => none

end Sys2Proof
end

