-- ==== Sys2Proof/Machine/State.lean ====
section
/-! DEFINITION. The state of the block (spec/10_state.md), as plain data, and its reset values
(spec/70_reset_and_hazards.md R340). -/

namespace Sys2Proof.Machine

/-- The status codes (60_exceptions.md R301). -/
inductive Code where
  | ok
  | noData
  | corrupt
  | integrity
  | illegal
  | seq
  | noCode
  | badLen
  | overflow
  | capacity
  | range
  deriving DecidableEq, Repr

/-- The states of the decoder (10_state.md R44). -/
inductive TdState where
  | idle
  | atRoot
  | descending
  | done
  | failed
  deriving DecidableEq, Repr

/-- The `sym` field of a tree node: a leaf's byte value, or the mark `INTERNAL`, never compared as a number
(10_state.md R37, 90_conflicts.md C1). -/
inductive NodeSym where
  | leaf (sym : Symbol)
  | internal
  deriving DecidableEq, Repr

/-- A node of the tree arena (10_state.md R37). -/
structure HtNode where
  freq : Word64
  sym : NodeSym
  c0 : Option Nat
  c1 : Option Nat
  deriving DecidableEq, Repr

/-- A node of the trie arena (10_state.md R43). -/
structure TrNode where
  c0 : Option Nat
  c1 : Option Nat
  leaf : Option Byte
  deriving DecidableEq, Repr

/-- Reasons the MODEL stops. The block itself never stops: its own faults are codes in `STATUS` and `FAULT`
(60_exceptions.md R305, R338). -/
inductive Fault where
  /-- Raised by `CL.EXTRACT` where a child index names a slot of the tree arena that holds no value: such a read
  must be "impossible or a model fault" (70_reset_and_hazards.md R341). No legal state raises it. Safe. -/
  | noTreeNode (i : Nat)
  /-- Raised by `TR.BUILD`, `TD.STEP` and `TD.RUN` where an index names a slot of the trie arena that holds no
  value (70_reset_and_hazards.md R341). No legal state raises it. Safe. -/
  | noTrieNode (i : Nat)
  /-- Raised by `BR.GET`, `BR.GETN`, `TD.STEP` and `TD.RUN` where `SRC_POS` is beyond the end of `SRC`: that
  element holds no value (10_state.md R51, 93_implementation_defined.md U14). No legal state raises it. Safe. -/
  | noSrcByte (i : Nat)
  /-- Raised by `CL.EXTRACT` and `TD.RUN` where the loop outlives the bound its rule gives (60_exceptions.md R338:
  "each bounded in their rule"). No legal state raises it. Safe. -/
  | loopBound
  deriving DecidableEq, Repr

/-- Why the model gives no meaning. The block's own refusals are codes in `STATUS` (60_exceptions.md R304) and are
next states. -/
inductive Refusal where
  /-- Raised by an arm of `exec` whose instruction has no meaning yet. Safe. No arm raises it. -/
  | notModelled (mnemonic : String)
  deriving DecidableEq, Repr

/-- The block's state (10_state.md), and, in the first three fields, what a run is given by the host
(10_state.md R20, R32; notes/assumptions/1.md and 3.md). -/
@[ext]
structure State where
  /-- `SRC`, the host's input (R32); `SRC_LEN` is its length. -/
  src : List Byte
  /-- `MB_CAP`, a parameter (00_scope.md R8). -/
  mbCap : Nat
  /-- The commands the host has yet to issue, first one first (R22). The model's own field. -/
  cmds : List Cmd
  /-- `STATUS` (R24). -/
  status : Code
  /-- `FAULT` (R25). -/
  fault : Code
  /-- `RES` (R26). -/
  res : Word64
  /-- `RESCNT` (R26). -/
  resCnt : Fin 65
  /-- `VALID[0]`, `HT_BUILT` (R27). -/
  htBuilt : Bool
  /-- `VALID[1]`, `CC_VALID` (R27). -/
  ccValid : Bool
  /-- `VALID[2]`, `TR_VALID` (R27). -/
  trValid : Bool
  /-- `VALID[3]`, `MB_FLUSHED` (R27). -/
  mbFlushed : Bool
  /-- `CRC_STATE` (R28). -/
  crcState : Word32
  /-- `BW_ACC` (R29). -/
  bwAcc : Byte
  /-- `BW_CNT` (R29). -/
  bwCnt : Fin 8
  /-- `BW_PAD` (R30). -/
  bwPad : Fin 8
  /-- `SINK` (R31). -/
  sink : List Byte
  /-- `BR_CUR` (R33). -/
  brCur : Byte
  /-- `BR_REM` (R33). -/
  brRem : Fin 9
  /-- `SRC_POS` (R33). -/
  srcPos : Word64
  /-- `MB_BYTES` (R34). -/
  mbBytes : List Byte
  /-- `MB_ACC` (R34). -/
  mbAcc : Byte
  /-- `MB_CNT` (R34). -/
  mbCnt : Fin 8
  /-- `MB_LVB` (R34). -/
  mbLvb : Fin 9
  /-- `FREQ[0..255]` (R36). -/
  freq : Table Word64
  /-- `HT_NODE[0..HT_NNODES-1]` (R37); `HT_NNODES` is its length (R38). -/
  htNodes : List HtNode
  /-- `HT_ROOT` (R38). -/
  htRoot : Option Nat
  /-- `HT_NSYM` (R38). -/
  htNSym : Nat
  /-- `LEN[0..255]` (R40). -/
  len : Table Byte
  /-- `CODE[0..255]` (R41). -/
  code : Table CodeValue
  /-- `CC_NSYM` (R42). -/
  ccNSym : Nat
  /-- `TR_NODE[0..TR_NNODES-1]`; `TR_NNODES` is its length (R43). -/
  trNodes : List TrNode
  /-- `TD_STATE` (R44). -/
  tdState : TdState
  /-- `TD_CUR` (R44). -/
  tdCur : Nat
  /-- `TD_COUNT` (R44). -/
  tdCount : Word64
  /-- `TD_SIZE` (R44). -/
  tdSize : Word64
  /-- `TD_XCRC` (R44). -/
  tdXcrc : Word32
  /-- `DOUT` (R45). -/
  dout : List Byte
  deriving DecidableEq, Repr

/-- The state right after reset (70_reset_and_hazards.md R340), launched with no input, no command and the
implementation's capacity (DESIGN CHOICE, notes/assumptions/1.md and 3.md). -/
def State.reset : State where
  src := []
  mbCap := Config.mbCap
  cmds := []
  status := .ok
  fault := .ok
  res := 0#64
  resCnt := 0
  htBuilt := false
  ccValid := false
  trValid := false
  mbFlushed := false
  crcState := 0xFFFFFFFF#32
  bwAcc := 0#8
  bwCnt := 0
  bwPad := 0
  sink := []
  brCur := 0#8
  brRem := 0
  srcPos := 0#64
  mbBytes := []
  mbAcc := 0#8
  mbCnt := 0
  mbLvb := 0
  freq := Vector.replicate 256 0#64
  htNodes := []
  htRoot := none
  htNSym := 0
  len := Vector.replicate 256 0#8
  code := Vector.replicate 256 0#255
  ccNSym := 0
  trNodes := []
  tdState := .idle
  tdCur := 0
  tdCount := 0#64
  tdSize := 0#64
  tdXcrc := 0#32
  dout := []

end Sys2Proof.Machine
end

