-- ==== Sys2Proof/Machine/Ops.lean ====
section
/-! DEFINITION. The named operations the meanings share: how a command ends (the fault outcome and its
acknowledgement among them), the command port, and the helpers of the checksum, the bit writer, the bit reader and
the in-memory buffer. -/

namespace Sys2Proof.Machine

/-- What a command answers. -/
abbrev Result := Host.Outcome State Fault Refusal

/-! ### How a command ends -/

/-- Outcome ok: `STATUS <- 0` (60_exceptions.md R302). -/
def endOk (s : State) : State := { s with status := .ok }

/-- Outcome signal, only `ST_NODATA`: `FAULT` is not touched (60_exceptions.md R303). -/
def endSignal (s : State) : State := { s with status := .noData }

/-- Outcome refused: `STATUS <- code` and no other state changes (60_exceptions.md R304). -/
def endRefused (c : Code) (s : State) : State := { s with status := c }

/-- Outcome fault, the block's "trap entry": `STATUS <- code`, and `FAULT <- code` if `FAULT = 0`
(60_exceptions.md R305, R320). -/
def endFault (c : Code) (s : State) : State :=
  { s with status := c, fault := if s.fault = .ok then c else s.fault }

/-- The host's acknowledgement of a fault, the block's "trap return": `FAULT <- 0` (60_exceptions.md R322). -/
def clearFault (s : State) : State := { s with fault := .ok }

/-- Every piece of state of the block at its reset value; what the host gave at launch stays, and so do the
commands it has yet to issue (46_system.md R281, 10_state.md R32). -/
def resetBlock (s : State) : State :=
  { State.reset with src := s.src, mbCap := s.mbCap, cmds := s.cmds }

/-! ### The command port -/

/-- The command the host issues next, and the state it finds (10_state.md R22). notes/assumptions/1.md. -/
def takeCmd (s : State) : Option (Cmd × State) :=
  match s.cmds with
  | [] => none
  | c :: rest => some (c, { s with cmds := rest })

/-- The host issues `c` before the commands it has yet to issue. notes/assumptions/1.md. -/
def issueCmd (c : Cmd) (s : State) : State := { s with cmds := c :: s.cmds }

/-- A word that is no command: refused `ST_ILLEGAL`, nothing else changes (30_encoding.md R97). -/
def illegalWord (s : State) : State := endRefused .illegal s

/-! ### Bits -/

/-- Bits `k-1` down to 0 of a value: the order in which bits enter and leave a stream (20_memory.md R61, R64). -/
def bitsDown {w : Nat} (v : BitVec w) : Nat → List Bool
  | 0 => []
  | k + 1 => v.getLsbD k :: bitsDown v k

/-- A byte with its bits moved up by one and `b` in bit 0: `(acc << 1) | b` (42_bitstream.md R139, R154). -/
def shiftIn (acc : Byte) (b : Bool) : Byte := (acc <<< 1) ||| (if b then 1#8 else 0#8)

/-- The low `cnt` bits at the high end, zeros in the low end: `(acc << (8 - cnt)) & 0xFF`
(42_bitstream.md R142, R157). -/
def leftJustify (acc : Byte) (cnt : Nat) : Byte := acc <<< (8 - cnt)

/-! ### Checksum Engine -/

/-- One of the eight steps of `crc_byte` (41_crc.md R120). PRESUMED by the spec itself, notes/assumptions/10.md. -/
def crcShift (c : Word32) : Word32 :=
  if c.getLsbD 0 then (c >>> 1) ^^^ 0xEDB88320#32 else c >>> 1

/-- `crc_byte(c, b)` (41_crc.md R120). -/
def crcByte (c : Word32) (b : Byte) : Word32 :=
  crcShift^[8] (c ^^^ b.setWidth 32)

/-- `crc_bytes(c, bs)` (41_crc.md R120). -/
def crcBytes (c : Word32) (bs : List Byte) : Word32 := bs.foldl crcByte c

/-- The complement that finalizes a checksum (41_crc.md R123). -/
def crcFinal (c : Word32) : Word32 := c ^^^ 0xFFFFFFFF#32

/-- `crc32(B)` (41_crc.md R127). -/
def crc32 (bs : List Byte) : Word32 := crcFinal (crcBytes 0xFFFFFFFF#32 bs)

/-! ### Bit writer -/

/-- `bw_put(b)` (42_bitstream.md R139). -/
def bwPut (s : State) (b : Bool) : State :=
  if s.bwCnt = 7 then
    { s with sink := s.sink ++ [shiftIn s.bwAcc b], bwAcc := 0#8, bwCnt := 0 }
  else
    { s with bwAcc := shiftIn s.bwAcc b, bwCnt := s.bwCnt + 1 }

/-- `bw_put` of each bit of a sequence, in order (42_bitstream.md R158, 44_canonical.md R225). -/
def bwPutAll (s : State) (bits : List Bool) : State := bits.foldl bwPut s

/-! ### Bit reader -/

/-- What `br_get()` answers (42_bitstream.md R145). -/
inductive BitRead where
  /-- A bit, and the state with the reader advanced. -/
  | bit (b : Bool) (s : State)
  /-- `NODATA`: nothing changed. -/
  | noData
  /-- The model's fault: `SRC_POS` names no byte of `SRC`. -/
  | outside (f : Fault)

/-- The next unread bit of `BR_CUR` (42_bitstream.md R145, its last three lines; `BR_REM` is not 0 there). -/
def brTake (s : State) : BitRead :=
  .bit (s.brCur.getLsbD (s.brRem.val - 1)) { s with brRem := s.brRem - 1 }

/-- `br_get()` (42_bitstream.md R145). -/
def brGet (s : State) : BitRead :=
  if s.brRem = 0 then
    if s.srcPos.toNat = s.src.length then .noData
    else
      match s.src[s.srcPos.toNat]? with
      | none => .outside (.noSrcByte s.srcPos.toNat)
      | some byte => brTake { s with brCur := byte, srcPos := s.srcPos + 1#64, brRem := 8 }
  else brTake s

/-- What the loop of `BR.GETN` leaves: the value, the number of bits in it and the state. -/
inductive ManyRead where
  | got (v k : Nat) (s : State)
  | outside (f : Fault)

/-- The loop of `BR.GETN` with `n` bits still wanted (42_bitstream.md R148). -/
def brGetMany : Nat → Nat → Nat → State → ManyRead
  | 0, v, k, s => .got v k s
  | n + 1, v, k, s =>
    match brGet s with
    | .bit b t => brGetMany n (2 * v + b.toNat) (k + 1) t
    | .noData => .got v k s
    | .outside f => .outside f

/-- The reader at the byte boundary `p`, unread bits dropped (42_bitstream.md R146, R149). -/
def brMoveTo (p : Word64) (s : State) : State :=
  { s with brCur := 0#8, brRem := 0, srcPos := p }

/-! ### In-memory bit buffer -/

/-- `mb_room()` (42_bitstream.md R154). -/
def mbRoom (s : State) : Nat := 8 * (s.mbCap - s.mbBytes.length) - s.mbCnt.val

/-- `mb_put(b)`, used when `mb_room() >= 1` (42_bitstream.md R154). -/
def mbPut (s : State) (b : Bool) : State :=
  if s.mbCnt = 7 then
    { s with mbBytes := s.mbBytes ++ [shiftIn s.mbAcc b], mbAcc := 0#8, mbCnt := 0 }
  else
    { s with mbAcc := shiftIn s.mbAcc b, mbCnt := s.mbCnt + 1 }

/-- `mb_put` of each bit of a sequence, in order (44_canonical.md R226). -/
def mbPutAll (s : State) (bits : List Bool) : State := bits.foldl mbPut s

/-- The bits a flushed buffer stands for: 8 of every byte but the last, `lvb` of the last, from bit 7 down
(42_bitstream.md R158). -/
def validBits : List Byte → Nat → List Bool
  | [], _ => []
  | [b], lvb => (bitsDown b 8).take lvb
  | b :: b' :: bs, lvb => bitsDown b 8 ++ validBits (b' :: bs) lvb

end Sys2Proof.Machine
end

