-- ==== Sys2Proof/Machine/Operands.lean ====
section
/-! DEFINITION. How the meanings reach the tables by symbol, and the operand forms made from them: the codeword of
a symbol, the present symbols of a table (spec/10_state.md R36, R40, R41, spec/30_encoding.md R92, R100). -/

namespace Sys2Proof.Machine

/-- Element `sym` of a table (00_scope.md R12: `T[i]`). -/
def tblGet {α : Type} (t : Table α) (sym : Symbol) : α := t[sym.toNat]'(sym.isLt)

/-- `T[sym] <- v` (00_scope.md R12). -/
def tblSet {α : Type} (t : Table α) (sym : Symbol) (v : α) : Table α := t.set sym.toNat v (sym.isLt)

/-- A table with every element `v`. -/
def tblFill {α : Type} (v : α) : Table α := Vector.replicate 256 v

/-- The symbols 0 to 255, ascending (00_scope.md R6). -/
def allSymbols : List Symbol := (List.range 256).map (BitVec.ofNat 8)

/-- `FREQ[sym]`. -/
def freqOf (s : State) (sym : Symbol) : Word64 := tblGet s.freq sym

/-- `LEN[sym]`, as a number of bits. -/
def lenOf (s : State) (sym : Symbol) : Nat := (tblGet s.len sym).toNat

/-- `CODE[sym]`. -/
def codeOf (s : State) (sym : Symbol) : CodeValue := tblGet s.code sym

/-- The codeword of a symbol under a length table and a code table, first bit first:
`c[L-1]`, ..., `c[0]` (20_memory.md R64, 30_encoding.md R100). -/
def codewordIn (len : Table Byte) (code : Table CodeValue) (sym : Symbol) : List Bool :=
  bitsDown (tblGet code sym) (tblGet len sym).toNat

/-- The codeword of a symbol (44_canonical.md R225). -/
def codeword (s : State) (sym : Symbol) : List Bool := codewordIn s.len s.code sym

/-- The symbols with `FREQ[s] != 0`, ascending (43_tree_builder.md R188). -/
def presentByFreq (freq : Table Word64) : List Symbol :=
  allSymbols.filter (fun sym => tblGet freq sym != 0#64)

/-- The symbols with `LEN[s] != 0`, ascending (44_canonical.md R220). -/
def presentByLen (len : Table Byte) : List Symbol :=
  allSymbols.filter (fun sym => tblGet len sym != 0#8)

/-- The total of all counts (43_tree_builder.md R194). -/
def totalFreq (freq : Table Word64) : Nat :=
  ((presentByFreq freq).map (fun sym => (tblGet freq sym).toNat)).sum

end Sys2Proof.Machine
end

