-- ==== Sys2Proof/Machine/Flags.lean ====
section
/-! DEFINITION. The flags: `VALID` and its cascade (spec/10_state.md R27), the numbers of the status codes and
decoder states (spec/60_exceptions.md R301, spec/10_state.md R44), and the layout of `RES` after a decoder command
(spec/30_encoding.md R102). -/

namespace Sys2Proof.Machine

/-- The number of a status code (60_exceptions.md R301). -/
def codeNumber : Code → Byte
  | .ok => 0#8
  | .noData => 1#8
  | .corrupt => 2#8
  | .integrity => 3#8
  | .illegal => 4#8
  | .seq => 5#8
  | .noCode => 6#8
  | .badLen => 7#8
  | .overflow => 8#8
  | .capacity => 9#8
  | .range => 10#8

/-- The number of a decoder state (10_state.md R44). -/
def tdStateNumber : TdState → BitVec 3
  | .idle => 0#3
  | .atRoot => 1#3
  | .descending => 2#3
  | .done => 3#3
  | .failed => 4#3

/-- `VALID`, bit 0 `HT_BUILT` to bit 3 `MB_FLUSHED`, bit 4 reads 0 (10_state.md R27). -/
def validWord (s : State) : BitVec 5 :=
  0#1 ++ BitVec.ofBool s.mbFlushed ++ BitVec.ofBool s.trValid ++ BitVec.ofBool s.ccValid
    ++ BitVec.ofBool s.htBuilt

/-- A change of `FREQ`: the tree no longer matches (10_state.md R27). -/
def clearTree (s : State) : State := { s with htBuilt := false }

/-- A change of `LEN`: codes and trie no longer match (10_state.md R27). -/
def clearCodes (s : State) : State := { s with ccValid := false, trValid := false }

/-- A decode is under way: `TD_STATE` is one of the source's two states (45_decoder.md R250, R255). -/
def decodeActive (s : State) : Bool :=
  match s.tdState with
  | .atRoot | .descending => true
  | .idle | .done | .failed => false

/-- The fault cause of `RES[17:16]` (30_encoding.md R102). -/
inductive Cause where
  | none
  | absentChild
  | exhausted
  deriving DecidableEq, Repr

/-- The number of a fault cause (30_encoding.md R102). -/
def causeNumber : Cause → BitVec 2
  | .none => 0#2
  | .absentChild => 1#2
  | .exhausted => 2#2

/-- `RES` of a decoder command: `[7:0]` the last byte emitted by it or 0, `[8]` whether it emitted, `[9]` done,
`[17:16]` the cause, other bits 0 (30_encoding.md R102). -/
def tdResult (last : Option Byte) (done : Bool) (cause : Cause) : Word64 :=
  0#46 ++ causeNumber cause ++ 0#6 ++ BitVec.ofBool done ++ BitVec.ofBool last.isSome ++ last.getD 0#8

end Sys2Proof.Machine
end

