-- ==== Sys2Proof/Machine/Buffer.lean ====
section
/-! DEFINITION. The in-memory bit buffer's commands (spec/42_bitstream.md section 3, spec/44_canonical.md R226). -/

namespace Sys2Proof.Machine

/-- `MB.RST` (42_bitstream.md R155). -/
def execMbRst (s : State) : Result :=
  .next (endOk { s with mbBytes := [], mbAcc := 0#8, mbCnt := 0, mbLvb := 0, mbFlushed := false })

/-- `MB.PUT b` (42_bitstream.md R156). -/
def execMbPut (b : Bool) (s : State) : Result :=
  .next (
    if s.mbFlushed then endRefused .seq s
    else if mbRoom s = 0 then endRefused .capacity s
    else endOk (mbPut s b))

/-- `MB.FLUSH` (42_bitstream.md R157). -/
def execMbFlush (s : State) : Result :=
  .next (
    if s.mbFlushed then endRefused .seq s
    else if s.mbCnt ≠ 0 then
      endOk { s with
        mbBytes := s.mbBytes ++ [leftJustify s.mbAcc s.mbCnt.val]
        mbLvb := s.mbCnt.castSucc
        mbAcc := 0#8
        mbCnt := 0
        mbFlushed := true }
    else if s.mbBytes ≠ [] then endOk { s with mbLvb := 8, mbFlushed := true }
    else endOk { s with mbLvb := 0, mbFlushed := true })

/-- `MB.PUTSYM sym` (44_canonical.md R226). -/
def execMbPutsym (sym : Symbol) (s : State) : Result :=
  .next (
    if s.ccValid = false ∨ s.mbFlushed = true then endRefused .seq s
    else if lenOf s sym = 0 then endRefused .noCode s
    else if mbRoom s < lenOf s sym then endRefused .capacity s
    else endOk (mbPutAll s (codeword s sym)))

/-- `MB.REPLAY` (42_bitstream.md R158). -/
def execMbReplay (s : State) : Result :=
  .next (
    if s.mbFlushed = false then endRefused .seq s
    else endOk (bwPutAll s (validBits s.mbBytes s.mbLvb.val)))

end Sys2Proof.Machine
end

