-- ==== Sys2Proof/Machine/Tree.lean ====
section
/-! DEFINITION. The frequency table and the Huffman Tree Builder (spec/43_tree_builder.md). -/

namespace Sys2Proof.Machine

/-- `FQ.CLR` (43_tree_builder.md R180). -/
def execFqClr (s : State) : Result := .next (endOk (clearTree { s with freq := tblFill 0#64 }))

/-- `FQ.SET sym` (43_tree_builder.md R181). -/
def execFqSet (sym : Symbol) (n : Word64) (s : State) : Result :=
  .next (endOk (clearTree { s with freq := tblSet s.freq sym n }))

/-- `FQ.INC sym`; the count never wraps (43_tree_builder.md R182). -/
def execFqInc (sym : Symbol) (s : State) : Result :=
  .next (
    if (freqOf s sym).toNat = 2 ^ 64 - 1 then endRefused .overflow s
    else endOk (clearTree { s with freq := tblSet s.freq sym (freqOf s sym + 1#64) }))

/-- A member of the builder's queue: a node and its index in the arena. The queue is not state of the block
(10_state.md R39). -/
structure QEntry where
  index : Nat
  node : HtNode
  deriving DecidableEq, Repr

/-- `before(x, y)`: frequency, then leaf before internal, then symbol, then creation order, which is the index
(43_tree_builder.md R189; clause 4 is decision D11, notes/assumptions/7.md). -/
def nodeBefore (x y : QEntry) : Bool :=
  if x.node.freq ≠ y.node.freq then decide (x.node.freq < y.node.freq)
  else
    match x.node.sym, y.node.sym with
    | .leaf a, .leaf b => decide (a < b)
    | .leaf _, .internal => true
    | .internal, .leaf _ => false
    | .internal, .internal => decide (x.index < y.index)

/-- The member of `x :: q` that is before every other, and the rest (43_tree_builder.md R190). -/
def popMin (x : QEntry) : List QEntry → QEntry × List QEntry
  | [] => (x, [])
  | y :: q =>
    if nodeBefore y x then ((popMin y q).1, x :: (popMin y q).2)
    else ((popMin x q).1, y :: (popMin x q).2)

/-- The internal node made of the two popped members, first popped first (43_tree_builder.md R188, R197). -/
def joinNode (a b : QEntry) : HtNode :=
  { freq := a.node.freq + b.node.freq, sym := .internal, c0 := some a.index, c1 := some b.index }

/-- The loop of `HT.BUILD`: `turns` turns at most, while the queue has more than one member; `next` is the length
of the arena (43_tree_builder.md R188). -/
def joinLoop : Nat → List HtNode → List QEntry → List HtNode
  | 0, arena, _ => arena
  | _ + 1, arena, [] => arena
  | turns + 1, arena, x :: q =>
    match popMin x q with
    | (_, []) => arena
    | (a, y :: r) =>
      let node := joinNode a (popMin y r).1
      joinLoop turns (arena ++ [node]) ((popMin y r).2 ++ [⟨arena.length, node⟩])

/-- The leaf of a present symbol (43_tree_builder.md R188). -/
def leafNode (freq : Table Word64) (sym : Symbol) : HtNode :=
  { freq := tblGet freq sym, sym := .leaf sym, c0 := none, c1 := none }

/-- The queue of the leaves: the members 0 to n-1 (43_tree_builder.md R188). -/
def leafQueue (leaves : List HtNode) : List QEntry :=
  leaves.zipIdx.map (fun p => ⟨p.2, p.1⟩)

/-- The arena and the root that `HT.BUILD` makes of a frequency table: none (R192), the synthetic two-node tree
(R191), or the joined leaves (43_tree_builder.md R188). -/
def buildTree (freq : Table Word64) : List HtNode × Option Nat :=
  match presentByFreq freq with
  | [] => ([], none)
  | [p] =>
    ([leafNode freq p, { freq := tblGet freq p, sym := .internal, c0 := some 0, c1 := none }], some 1)
  | p :: p' :: ps =>
    let leaves := (p :: p' :: ps).map (leafNode freq)
    let arena := joinLoop leaves.length leaves (leafQueue leaves)
    (arena, some (arena.length - 1))

/-- `HT.BUILD` (43_tree_builder.md R188, R194). -/
def execHtBuild (s : State) : Result :=
  .next (
    if 2 ^ 64 ≤ totalFreq s.freq then endRefused .overflow s
    else endOk { s with
      htNodes := (buildTree s.freq).1
      htRoot := (buildTree s.freq).2
      htNSym := (presentByFreq s.freq).length
      htBuilt := true })

end Sys2Proof.Machine
end

