-- ==== Sys2Proof/Machine/Canonical.lean ====
section
/-! DEFINITION. The length table and the Canonical Code Assigner (spec/44_canonical.md). -/

namespace Sys2Proof.Machine

/-- `CL.CLR` (44_canonical.md R210). -/
def execClClr (s : State) : Result := .next (endOk (clearCodes { s with len := tblFill 0#8 }))

/-- `CL.SET sym` (44_canonical.md R211). -/
def execClSet (sym : Symbol) (l : Byte) (s : State) : Result :=
  .next (endOk (clearCodes { s with len := tblSet s.len sym l }))

/-- `visit(i, d)`, child 0 before child 1 (44_canonical.md R212). The first argument bounds the depth: a tree the
builder made is never deeper than it has nodes. -/
def visit (arena : List HtNode) : Nat → Nat → Nat → Table Byte → Except Fault (Table Byte)
  | 0, _, _, _ => .error .loopBound
  | fuel + 1, i, d, t =>
    match arena[i]? with
    | none => .error (.noTreeNode i)
    | some nd =>
      match nd.sym with
      | .leaf sym => .ok (tblSet t sym (BitVec.ofNat 8 (if d = 0 then 1 else d)))
      | .internal =>
        match (match nd.c0 with
          | none => (.ok t : Except Fault (Table Byte))
          | some c => visit arena fuel c (d + 1) t) with
        | .error f => .error f
        | .ok t' =>
          match nd.c1 with
          | none => .ok t'
          | some c => visit arena fuel c (d + 1) t'

/-- The length table of a tree: 0 for every symbol that has no leaf (44_canonical.md R212). -/
def extractLengths (arena : List HtNode) (root : Option Nat) : Except Fault (Table Byte) :=
  match root with
  | none => .ok (tblFill 0#8)
  | some r => visit arena arena.length r 0 (tblFill 0#8)

/-- `CL.EXTRACT` (44_canonical.md R212). -/
def execClExtract (s : State) : Result :=
  if s.htBuilt = false then .next (endRefused .seq s)
  else
    match extractLengths s.htNodes s.htRoot with
    | .error f => .fault f
    | .ok t => .next (endOk (clearCodes { s with len := t }))

/-- The canonical order of two symbols: length, then symbol value (44_canonical.md R220, R221). -/
def canonBefore (len : Table Byte) (a b : Symbol) : Bool :=
  decide ((tblGet len a).toNat < (tblGet len b).toNat)
    || (decide ((tblGet len a).toNat = (tblGet len b).toNat) && decide (a.toNat ≤ b.toNat))

/-- The present symbols in canonical order (44_canonical.md R220, 45_decoder.md R240). -/
def canonOrder (len : Table Byte) : List Symbol :=
  List.insertionSort (fun a b => canonBefore len a b = true) (presentByLen len)

/-- The code of a symbol of length `l` after a symbol with the given code and length; 0 for the first
(44_canonical.md R220). PRESUMED by the spec itself: the shift distance, notes/assumptions/10.md. -/
def nextCode (prev : Option (Nat × Nat)) (l : Nat) : Nat :=
  match prev with
  | none => 0
  | some (c, l') => (c + 1) <<< (l - l')

/-- The loop of `CC.ASSIGN` over the canonical order; `none` when a code does not fit its length
(44_canonical.md R220). -/
def assignLoop (len : Table Byte) :
    Option (Nat × Nat) → List Symbol → Table CodeValue → Option (Table CodeValue)
  | _, [], c => some c
  | prev, sym :: rest, c =>
    let l := (tblGet len sym).toNat
    let v := nextCode prev l
    if 2 ^ l ≤ v then none
    else assignLoop len (some (v, l)) rest (tblSet c sym (BitVec.ofNat 255 v))

/-- The code table of a length table, `none` when it is over-subscribed (44_canonical.md R220, R223). -/
def assignCodes (len : Table Byte) : Option (Table CodeValue) :=
  assignLoop len none (canonOrder len) (tblFill 0#255)

/-- `CC.ASSIGN` (44_canonical.md R220). -/
def execCcAssign (s : State) : Result :=
  let u := clearCodes { s with ccNSym := (canonOrder s.len).length }
  .next (
    match assignCodes s.len with
    | none => endFault .badLen { u with code := tblFill 0#255 }
    | some c => endOk { u with code := c, ccValid := true })

end Sys2Proof.Machine
end

