-- ==== Sys2Proof/Machine/Crc.lean ====
section
/-! DEFINITION. The Checksum Engine commands (spec/41_crc.md). -/

namespace Sys2Proof.Machine

/-- `CRC.INIT` (41_crc.md R121). -/
def execCrcInit (s : State) : Result := .next (endOk { s with crcState := 0xFFFFFFFF#32 })

/-- `CRC.UPD b` (41_crc.md R122). -/
def execCrcUpd (b : Byte) (s : State) : Result :=
  .next (endOk { s with crcState := crcByte s.crcState b })

/-- `CRC.FIN`; `CRC_STATE` is not changed (41_crc.md R123). -/
def execCrcFin (s : State) : Result :=
  .next (endOk { s with res := (crcFinal s.crcState).setWidth 64 })

/-- `CRC.SET` (41_crc.md R124). -/
def execCrcSet (v : Word32) (s : State) : Result := .next (endOk { s with crcState := v })

end Sys2Proof.Machine
end

