-- ==== Sys2Proof/Machine/Decoder.lean ====
section
/-! DEFINITION. The Decode Trie and the Decoder (spec/45_decoder.md). -/

namespace Sys2Proof.Machine

/-- A trie node with no child and no leaf (45_decoder.md R240). -/
def emptyNode : TrNode := { c0 := none, c1 := none, leaf := none }

/-- Child `b` of a trie node: `c0` for bit 0, `c1` for bit 1 (45_decoder.md R240). -/
def childOf (nd : TrNode) (b : Bool) : Option Nat := if b then nd.c1 else nd.c0

/-- A trie node with child `b` set (45_decoder.md R240). -/
def withChild (nd : TrNode) (b : Bool) (i : Nat) : TrNode :=
  if b then { nd with c1 := some i } else { nd with c0 := some i }

/-- The inner loop of `TR.BUILD`: the rest of a codeword inserted from node `cur` (45_decoder.md R240). -/
def insertBits (sym : Symbol) : List Bool → Nat → List TrNode → Except Fault (List TrNode)
  | [], cur, arena =>
    match arena[cur]? with
    | none => .error (.noTrieNode cur)
    | some nd => .ok (arena.set cur { nd with leaf := some sym })
  | b :: rest, cur, arena =>
    match arena[cur]? with
    | none => .error (.noTrieNode cur)
    | some nd =>
      match childOf nd b with
      | some ch => insertBits sym rest ch arena
      | none =>
        insertBits sym rest arena.length
          (arena.set cur (withChild nd b arena.length) ++ [emptyNode])

/-- The outer loop of `TR.BUILD`: each symbol's codeword inserted from the root, in order (45_decoder.md R240). -/
def insertAll (len : Table Byte) (code : Table CodeValue) :
    List Symbol → List TrNode → Except Fault (List TrNode)
  | [], arena => .ok arena
  | sym :: rest, arena =>
    match insertBits sym (codewordIn len code sym) 0 arena with
    | .error f => .error f
    | .ok arena' => insertAll len code rest arena'

/-- The trie arena of a length table and a code table (45_decoder.md R240). -/
def buildTrie (len : Table Byte) (code : Table CodeValue) : Except Fault (List TrNode) :=
  insertAll len code (canonOrder len) [emptyNode]

/-- `TR.BUILD` (45_decoder.md R240). -/
def execTrBuild (s : State) : Result :=
  if s.ccValid = false then .next (endRefused .seq s)
  else
    match buildTrie s.len s.code with
    | .error f => .fault f
    | .ok arena =>
      .next (endOk { s with trNodes := arena, trValid := true, tdState := .idle, tdCur := 0 })

/-- `TD.SETSIZE` (45_decoder.md R250). -/
def execTdSetsize (n : Word64) (s : State) : Result :=
  .next (if decodeActive s then endRefused .seq s else endOk { s with tdSize := n })

/-- `TD.SETCRC` (45_decoder.md R251). -/
def execTdSetcrc (v : Word32) (s : State) : Result :=
  .next (if decodeActive s then endRefused .seq s else endOk { s with tdXcrc := v })

/-- `emit(b)` (45_decoder.md R256). -/
def tdEmit (b : Byte) (s : State) : State :=
  { s with
    dout := s.dout ++ [b]
    crcState := crcByte s.crcState b
    tdCount := s.tdCount + 1#64
    tdCur := 0 }

/-- `finish()`: the comparison that ends a decode (45_decoder.md R257). -/
def tdFinish (s : State) : State :=
  { s with tdState := if crcFinal s.crcState = s.tdXcrc then .done else .failed }

/-- The end of a decoder command that emitted `last` and met `cause`: `RES`, and ok, `ST_CORRUPT` or
`ST_INTEGRITY` (45_decoder.md R255, R257, 30_encoding.md R102). -/
def tdEnd (last : Option Byte) (cause : Cause) (s : State) : State :=
  let u := { s with res := tdResult last (s.tdState == .done) cause }
  if cause ≠ .none then endFault .corrupt u
  else if s.tdState = .failed then endFault .integrity u
  else endOk u

/-- `TD.START` (45_decoder.md R252). -/
def execTdStart (s : State) : Result :=
  .next (
    if s.trValid = false then endRefused .seq s
    else
      let u := { s with crcState := 0xFFFFFFFF#32, tdCount := 0#64, tdCur := 0 }
      tdEnd none .none (if s.tdSize = 0#64 then tdFinish u else { u with tdState := .atRoot }))

/-- What one transition of the decoder leaves (45_decoder.md R255). -/
inductive Walk where
  /-- An inner node was reached. -/
  | moved (s : State)
  /-- A leaf was reached and its byte emitted; `TD_STATE` says whether the decode goes on. -/
  | emitted (b : Byte) (s : State)
  /-- The stream is corrupt. -/
  | corrupt (cause : Cause) (s : State)
  /-- The model's fault: an index names nothing. -/
  | outside (f : Fault)

/-- A leaf's byte is emitted, then the terminal condition tested (45_decoder.md R255, R257). -/
def tdLeaf (b : Byte) (s : State) : State :=
  let u := tdEmit b s
  if u.tdCount = u.tdSize then tdFinish u else { u with tdState := .atRoot }

/-- `step()` without its `STATUS`, `FAULT` and `RES`: one bit, one transition (45_decoder.md R255). -/
def tdWalk (s : State) : Walk :=
  match brGet s with
  | .outside f => .outside f
  | .noData => .corrupt .exhausted { s with tdState := .failed }
  | .bit b t =>
    match t.trNodes[t.tdCur]? with
    | none => .outside (.noTrieNode t.tdCur)
    | some nd =>
      match childOf nd b with
      | none => .corrupt .absentChild { t with tdState := .failed }
      | some ch =>
        match t.trNodes[ch]? with
        | none => .outside (.noTrieNode ch)
        | some cn =>
          match cn.leaf with
          | some byte => .emitted byte (tdLeaf byte t)
          | none => .moved { t with tdCur := ch, tdState := .descending }

/-- `TD.STEP` (45_decoder.md R255). -/
def execTdStep (s : State) : Result :=
  if s.trValid = false ∨ decodeActive s = false then .next (endRefused .seq s)
  else
    match tdWalk s with
    | .moved t => .next (tdEnd none .none t)
    | .emitted b t => .next (tdEnd (some b) .none t)
    | .corrupt cause t => .next (tdEnd none cause t)
    | .outside f => .fault f

/-- The loop of `TD.RUN`; `last` is the last byte emitted so far (45_decoder.md R260). -/
def tdRunLoop : Nat → Option Byte → State → Result
  | 0, _, _ => .fault .loopBound
  | steps + 1, last, s =>
    match tdWalk s with
    | .moved t => tdRunLoop steps last t
    | .emitted b t =>
      if t.tdState = .atRoot then tdRunLoop steps (some b) t
      else .next (tdEnd (some b) .none t)
    | .corrupt cause t => .next (tdEnd last cause t)
    | .outside f => .fault f

/-- The most steps a run makes: `8*(SRC_LEN - SRC_POS) + BR_REM + 1` (45_decoder.md R260). -/
def tdBound (s : State) : Nat := 8 * (s.src.length - s.srcPos.toNat) + s.brRem.val + 1

/-- `TD.RUN` (45_decoder.md R260). -/
def execTdRun (s : State) : Result :=
  if s.trValid = false ∨ decodeActive s = false then .next (endRefused .seq s)
  else tdRunLoop (tdBound s) none s

end Sys2Proof.Machine
end

