-- ==== Sys2Proof/Machine/Reader.lean ====
section
/-! DEFINITION. The bit reader's commands (spec/42_bitstream.md section 2). -/

namespace Sys2Proof.Machine

/-- `BR.RST` (42_bitstream.md R146). -/
def execBrRst (s : State) : Result := .next (endOk (brMoveTo 0#64 s))

/-- `BR.GET`; at the end of data `RES` is unchanged (42_bitstream.md R147). -/
def execBrGet (s : State) : Result :=
  match brGet s with
  | .bit b t => .next (endOk { t with res := if b then 1#64 else 0#64 })
  | .noData => .next (endSignal s)
  | .outside f => .fault f

/-- `BR.GETN n` (42_bitstream.md R148). A count the word admits no command for (30_encoding.md R92) is answered as
R97 says; the decoder never yields one (notes/assumptions/11.md). -/
def execBrGetn (n : Byte) (s : State) : Result :=
  if countOk n then
    match brGetMany n.toNat 0 0 s with
    | .got v k t =>
      let u := { t with res := BitVec.ofNat 64 v, resCnt := Fin.ofNat 65 k }
      .next (if k < n.toNat then endSignal u else endOk u)
    | .outside f => .fault f
  else .next (illegalWord s)

/-- `BR.SEEK` (42_bitstream.md R149). -/
def execBrSeek (p : Word64) (s : State) : Result :=
  .next (if s.src.length < p.toNat then endRefused .range s else endOk (brMoveTo p s))

end Sys2Proof.Machine
end

