-- ==== Sys2Proof/Machine/Sys.lean ====
section
/-! DEFINITION. The system commands (spec/46_system.md). -/

namespace Sys2Proof.Machine

/-- `SYS.NOP` (46_system.md R280). -/
def execSysNop (s : State) : Result := .next (endOk s)

/-- `SYS.RST` (46_system.md R281). -/
def execSysRst (s : State) : Result := .next (endOk (resetBlock s))

/-- `SYS.CLRF` (46_system.md R282). -/
def execSysClrf (s : State) : Result := .next (endOk (clearFault s))

end Sys2Proof.Machine
end

