-- ==== Sys2Proof/Machine/Writer.lean ====
section
/-! DEFINITION. The bit writer's commands (spec/42_bitstream.md section 1, spec/44_canonical.md R225). -/

namespace Sys2Proof.Machine

/-- `BW.RST`; `SINK` is not changed (42_bitstream.md R140). -/
def execBwRst (s : State) : Result := .next (endOk { s with bwAcc := 0#8, bwCnt := 0, bwPad := 0 })

/-- `BW.PUT b` (42_bitstream.md R141). -/
def execBwPut (b : Bool) (s : State) : Result := .next (endOk (bwPut s b))

/-- `BW.FLUSH` (42_bitstream.md R142). -/
def execBwFlush (s : State) : Result :=
  .next (endOk (
    if s.bwCnt = 0 then { s with bwPad := 0 }
    else { s with
      sink := s.sink ++ [leftJustify s.bwAcc s.bwCnt.val]
      bwPad := Fin.ofNat 8 (8 - s.bwCnt.val)
      bwAcc := 0#8
      bwCnt := 0 }))

/-- `BW.PUTSYM sym` (44_canonical.md R225). -/
def execBwPutsym (sym : Symbol) (s : State) : Result :=
  .next (
    if s.ccValid = false then endRefused .seq s
    else if lenOf s sym = 0 then endRefused .noCode s
    else endOk (bwPutAll s (codeword s sym)))

end Sys2Proof.Machine
end

