-- ==== Sys2Proof/Machine/Dispatch.lean ====
section
/-! DEFINITION. One arm per command (spec/30_encoding.md R94). -/

namespace Sys2Proof.Machine

/-- The command `i` in the state `s`. -/
def exec (i : Instr) (s : State) : Host.Outcome State Fault Refusal :=
  match i with
  | .sysNop => Sys2Proof.Machine.execSysNop s
  | .sysRst => Sys2Proof.Machine.execSysRst s
  | .sysClrf => Sys2Proof.Machine.execSysClrf s
  | .crcInit => Sys2Proof.Machine.execCrcInit s
  | .crcUpd b => Sys2Proof.Machine.execCrcUpd b s
  | .crcFin => Sys2Proof.Machine.execCrcFin s
  | .crcSet v => Sys2Proof.Machine.execCrcSet v s
  | .bwRst => Sys2Proof.Machine.execBwRst s
  | .bwPut b => Sys2Proof.Machine.execBwPut b s
  | .bwFlush => Sys2Proof.Machine.execBwFlush s
  | .bwPutsym sym => Sys2Proof.Machine.execBwPutsym sym s
  | .brRst => Sys2Proof.Machine.execBrRst s
  | .brGet => Sys2Proof.Machine.execBrGet s
  | .brGetn n => Sys2Proof.Machine.execBrGetn n s
  | .brSeek p => Sys2Proof.Machine.execBrSeek p s
  | .mbRst => Sys2Proof.Machine.execMbRst s
  | .mbPut b => Sys2Proof.Machine.execMbPut b s
  | .mbFlush => Sys2Proof.Machine.execMbFlush s
  | .mbPutsym sym => Sys2Proof.Machine.execMbPutsym sym s
  | .mbReplay => Sys2Proof.Machine.execMbReplay s
  | .fqClr => Sys2Proof.Machine.execFqClr s
  | .fqSet sym n => Sys2Proof.Machine.execFqSet sym n s
  | .fqInc sym => Sys2Proof.Machine.execFqInc sym s
  | .htBuild => Sys2Proof.Machine.execHtBuild s
  | .clClr => Sys2Proof.Machine.execClClr s
  | .clSet sym l => Sys2Proof.Machine.execClSet sym l s
  | .clExtract => Sys2Proof.Machine.execClExtract s
  | .ccAssign => Sys2Proof.Machine.execCcAssign s
  | .trBuild => Sys2Proof.Machine.execTrBuild s
  | .tdSetsize n => Sys2Proof.Machine.execTdSetsize n s
  | .tdSetcrc v => Sys2Proof.Machine.execTdSetcrc v s
  | .tdStart => Sys2Proof.Machine.execTdStart s
  | .tdStep => Sys2Proof.Machine.execTdStep s
  | .tdRun => Sys2Proof.Machine.execTdRun s

end Sys2Proof.Machine
end

