-- ==== Sys2Proof/Machine/Step.lean ====
section
/-! DEFINITION. One step: the block takes the command the host issues next, decodes it and executes it
(spec/20_memory.md R80, spec/30_encoding.md R95, R97). -/

namespace Sys2Proof.Machine

/-- One step. With no command issued nothing happens in the block (60_exceptions.md R315: "Nothing happens in the
block except as the execution of a command"; notes/assumptions/2.md). -/
def step (s : State) : Host.Outcome State Fault Refusal :=
  match takeCmd s with
  | none => .next s
  | some (c, t) =>
    match decode c with
    | .ok i => exec i t
    | .error _ => .next (illegalWord t)

/-- `s` with the instruction whose bits are `w` issued next. The block fetches nothing (10_state.md R22): the word
is put on the command port with its operand (notes/assumptions/1.md). -/
def State.withFetchWord (s : State) (nbits w : Nat) : State :=
  issueCmd (cmdOfBits (w % 2 ^ nbits)) s

end Sys2Proof.Machine
end

