-- ==== Sys2Proof/Machine/Asm.lean ====
section
/-! DEFINITION. How this spec writes a command (spec/30_encoding.md R105): its line, and its encoding as text. -/

namespace Sys2Proof.Machine

/-- The mnemonic of a command (30_encoding.md R94). -/
def mnemonic : Instr → String
  | .sysNop => "SYS.NOP"
  | .sysRst => "SYS.RST"
  | .sysClrf => "SYS.CLRF"
  | .crcInit => "CRC.INIT"
  | .crcUpd _ => "CRC.UPD"
  | .crcFin => "CRC.FIN"
  | .crcSet _ => "CRC.SET"
  | .bwRst => "BW.RST"
  | .bwPut _ => "BW.PUT"
  | .bwFlush => "BW.FLUSH"
  | .bwPutsym _ => "BW.PUTSYM"
  | .brRst => "BR.RST"
  | .brGet => "BR.GET"
  | .brGetn _ => "BR.GETN"
  | .brSeek _ => "BR.SEEK"
  | .mbRst => "MB.RST"
  | .mbPut _ => "MB.PUT"
  | .mbFlush => "MB.FLUSH"
  | .mbPutsym _ => "MB.PUTSYM"
  | .mbReplay => "MB.REPLAY"
  | .fqClr => "FQ.CLR"
  | .fqSet _ _ => "FQ.SET"
  | .fqInc _ => "FQ.INC"
  | .htBuild => "HT.BUILD"
  | .clClr => "CL.CLR"
  | .clSet _ _ => "CL.SET"
  | .clExtract => "CL.EXTRACT"
  | .ccAssign => "CC.ASSIGN"
  | .trBuild => "TR.BUILD"
  | .tdSetsize _ => "TD.SETSIZE"
  | .tdSetcrc _ => "TD.SETCRC"
  | .tdStart => "TD.START"
  | .tdStep => "TD.STEP"
  | .tdRun => "TD.RUN"

/-- The kind of `arg` a command takes (30_encoding.md R92, R94). -/
def argKind : Instr → ArgKind
  | .crcUpd _ => .byte
  | .bwPutsym _ | .mbPutsym _ | .fqSet _ _ | .fqInc _ | .clSet _ _ => .symbol
  | .bwPut _ | .mbPut _ => .bit
  | .brGetn _ => .count
  | .sysNop | .sysRst | .sysClrf | .crcInit | .crcFin | .crcSet _ | .bwRst | .bwFlush
  | .brRst | .brGet | .brSeek _ | .mbRst | .mbFlush | .mbReplay | .fqClr | .htBuild
  | .clClr | .clExtract | .ccAssign | .trBuild | .tdSetsize _ | .tdSetcrc _
  | .tdStart | .tdStep | .tdRun => .none

/-- The bits of `WDATA` a command names (30_encoding.md R93). -/
def wdataMask : Instr → Word64
  | .brSeek _ | .fqSet _ _ | .tdSetsize _ => 0xFFFFFFFFFFFFFFFF#64
  | .crcSet _ | .tdSetcrc _ => 0xFFFFFFFF#64
  | .clSet _ _ => 0xFF#64
  | .sysNop | .sysRst | .sysClrf | .crcInit | .crcUpd _ | .crcFin | .bwRst | .bwPut _ | .bwFlush
  | .bwPutsym _ | .brRst | .brGet | .brGetn _ | .mbRst | .mbPut _ | .mbFlush | .mbPutsym _
  | .mbReplay | .fqClr | .fqInc _ | .htBuild | .clClr | .clExtract | .ccAssign | .trBuild
  | .tdStart | .tdStep | .tdRun => 0#64

/-- The six commands that use `WDATA` (30_encoding.md R93). -/
def usesWdata : Instr → Bool
  | .crcSet _ | .brSeek _ | .fqSet _ _ | .clSet _ _ | .tdSetsize _ | .tdSetcrc _ => true
  | .sysNop | .sysRst | .sysClrf | .crcInit | .crcUpd _ | .crcFin | .bwRst | .bwPut _ | .bwFlush
  | .bwPutsym _ | .brRst | .brGet | .brGetn _ | .mbRst | .mbPut _ | .mbFlush | .mbPutsym _
  | .mbReplay | .fqClr | .fqInc _ | .htBuild | .clClr | .clExtract | .ccAssign | .trBuild
  | .tdStart | .tdStep | .tdRun => false

/-- One hexadecimal digit. -/
def hexDigit (n : Nat) : Char := "0123456789ABCDEF".toList.getD (n % 16) '0'

/-- The low `k` hexadecimal digits of a number, most significant first. -/
def hexDigits : Nat → Nat → List Char
  | 0, _ => []
  | k + 1, n => hexDigit (n / 16 ^ k) :: hexDigits k n

/-- A 64-bit number in hexadecimal with no leading zero. -/
def hexNumber (n : Nat) : List Char :=
  match (hexDigits 16 n).dropWhile (· == '0') with
  | [] => ['0']
  | ds => ds

/-- The encoding of a command as text: four hexadecimal digits, then `W=` and the operand where `WDATA` is used
(30_encoding.md R105). -/
def encodingText (i : Instr) : String :=
  String.ofList (hexDigits 4 (encode i).word.toNat)
    ++ (if usesWdata i then " W=" ++ String.ofList (hexNumber (encode i).wdata.toNat) else "")

/-- A command as a line: `MNEMONIC`, `MNEMONIC arg`, `MNEMONIC arg, wdata` or `MNEMONIC , wdata`, numbers written
in hexadecimal (30_encoding.md R105). -/
def asmLine (i : Instr) : String :=
  mnemonic i
    ++ (if argKind i = .none then (if usesWdata i then " " else "")
        else " 0x" ++ String.ofList (hexNumber (argOf (encode i).word).toNat))
    ++ (if usesWdata i then ", 0x" ++ String.ofList (hexNumber (encode i).wdata.toNat) else "")

end Sys2Proof.Machine
end

