-- ==== Sys2Proof/Machine/Container.lean ====
section
/-! DEFINITION. The container file as a data format (spec/20_memory.md R63, R74 to R78): what the host writes from
the block's registers. The block itself neither reads nor writes it. -/

namespace Sys2Proof.Machine

/-- The low `k` bytes of a number, least significant first (20_memory.md R63). -/
def leBytes : Nat → Nat → List Byte
  | 0, _ => []
  | k + 1, n => BitVec.ofNat 8 n :: leBytes k (n / 256)

/-- The number of a little-endian field (20_memory.md R63). -/
def leNumber : List Byte → Nat
  | [] => 0
  | b :: bs => b.toNat + 256 * leNumber bs

/-- The fields of the container after the magic (20_memory.md R74). -/
structure Container where
  originalSize : Word64
  codeLengths : Table Byte
  padBits : Fin 8
  crc : Word32
  payload : List Byte
  deriving DecidableEq, Repr

/-- The 273 bytes of the header (20_memory.md R74). -/
def headerBytes (c : Container) : List Byte :=
  Config.magic.toList ++ leBytes 8 c.originalSize.toNat ++ c.codeLengths.toList
    ++ [BitVec.ofNat 8 c.padBits.val] ++ leBytes 4 c.crc.toNat

/-- The file (20_memory.md R74). -/
def containerBytes (c : Container) : List Byte := headerBytes c ++ c.payload

/-- The container of the empty input (20_memory.md R76). -/
def emptyContainer : Container :=
  { originalSize := 0#64, codeLengths := tblFill 0#8, padBits := 0, crc := 0#32, payload := [] }

/-- What the host takes from the block after an encode, with its own byte count (20_memory.md R78). -/
def containerOf (size : Word64) (s : State) : Container :=
  { originalSize := size, codeLengths := s.len, padBits := s.bwPad, crc := s.res.setWidth 32,
    payload := s.sink }

end Sys2Proof.Machine
end

