-- ==== Sys2Proof/Machine/Port.lean ====
section
/-! DEFINITION. The host read port (spec/10_state.md R50, R51): what the host may read between two commands. A read
is a function of the state, so it has no side effect. -/

namespace Sys2Proof.Machine

/-- The spaces of the block, each its own index range (10_state.md R46). -/
inductive Space where
  | csr
  | freq
  | htNode
  | len
  | code
  | trNode
  | mbBytes
  | src
  | sink
  | dout
  deriving DecidableEq, Repr

/-- A whole element, as one read returns it (10_state.md R51). -/
inductive Element where
  /-- A number of the given width in bits. -/
  | bits (width value : Nat)
  /-- The absent value `NONE` of an optional index (00_scope.md R12). -/
  | absent
  /-- A node of the tree arena. -/
  | treeNode (nd : HtNode)
  /-- A node of the trie arena. -/
  | trieNode (nd : TrNode)
  deriving DecidableEq, Repr

/-- A byte as an element. -/
def byteElement (b : Byte) : Element := .bits 8 b.toNat

/-- A length register, 64 bits wide (10_state.md R31, R34, R45; notes/assumptions/9.md). -/
def lengthElement (n : Nat) : Element := .bits 64 (n % 2 ^ 64)

/-- An optional index (10_state.md R38). -/
def indexElement (width : Nat) : Option Nat → Element
  | none => .absent
  | some i => .bits width i

/-- The registers of units 0 to 3 (10_state.md R50). -/
def readCsrLow (s : State) (n : Nat) : Option Element :=
  match n with
  | 0x00 => some (.bits 8 (codeNumber s.status).toNat)
  | 0x01 => some (.bits 8 (codeNumber s.fault).toNat)
  | 0x02 => some (.bits 64 s.res.toNat)
  | 0x03 => some (.bits 7 s.resCnt.val)
  | 0x04 => some (.bits 5 (validWord s).toNat)
  | 0x10 => some (.bits 32 s.crcState.toNat)
  | 0x20 => some (.bits 8 s.bwAcc.toNat)
  | 0x21 => some (.bits 3 s.bwCnt.val)
  | 0x22 => some (.bits 3 s.bwPad.val)
  | 0x23 => some (lengthElement s.sink.length)
  | 0x30 => some (.bits 8 s.brCur.toNat)
  | 0x31 => some (.bits 4 s.brRem.val)
  | 0x32 => some (.bits 64 s.srcPos.toNat)
  | 0x33 => some (lengthElement s.src.length)
  | _ => none

/-- The registers of units 4 to 7 (10_state.md R50). -/
def readCsrHigh (s : State) (n : Nat) : Option Element :=
  match n with
  | 0x40 => some (.bits 8 s.mbAcc.toNat)
  | 0x41 => some (.bits 3 s.mbCnt.val)
  | 0x42 => some (.bits 4 s.mbLvb.val)
  | 0x43 => some (lengthElement s.mbBytes.length)
  | 0x50 => some (indexElement 9 s.htRoot)
  | 0x51 => some (.bits 9 s.htNSym)
  | 0x52 => some (.bits 10 s.htNodes.length)
  | 0x60 => some (.bits 9 s.ccNSym)
  | 0x70 => some (.bits 3 (tdStateNumber s.tdState).toNat)
  | 0x71 => some (.bits 16 s.tdCur)
  | 0x72 => some (.bits 64 s.tdCount.toNat)
  | 0x73 => some (.bits 64 s.tdSize.toNat)
  | 0x74 => some (.bits 32 s.tdXcrc.toNat)
  | 0x75 => some (.bits 17 s.trNodes.length)
  | 0x76 => some (lengthElement s.dout.length)
  | _ => none

/-- A register by its number; a number not in the table names none (10_state.md R50). -/
def readCsr (s : State) (n : Nat) : Option Element :=
  if n < 0x40 then readCsrLow s n else readCsrHigh s n

/-- Element `i` of a table of 256. -/
def readTable {w : Nat} (t : Table (BitVec w)) (i : Nat) : Option Element :=
  if h : i < 256 then some (.bits w (t[i]'h).toNat) else none

/-- Element `i` of a space; `none` where it holds no value (10_state.md R46, R51). -/
def readElement (s : State) (space : Space) (i : Nat) : Option Element :=
  match space with
  | .csr => readCsr s i
  | .freq => readTable s.freq i
  | .htNode => (s.htNodes[i]?).map .treeNode
  | .len => readTable s.len i
  | .code => readTable s.code i
  | .trNode => (s.trNodes[i]?).map .trieNode
  | .mbBytes => (s.mbBytes[i]?).map byteElement
  | .src => (s.src[i]?).map byteElement
  | .sink => (s.sink[i]?).map byteElement
  | .dout => (s.dout[i]?).map byteElement

end Sys2Proof.Machine
end

