-- ==== Sys2Proof/Machine/Sequences.lean ====
section
/-! DEFINITION. The host's command sequences: the pseudo-instructions (spec/30_encoding.md R106) and the required
sequences (spec/70_reset_and_hazards.md R350 to R352), as lists of commands, and their execution in order. -/

namespace Sys2Proof.Machine

/-- A list of commands, one after another, up to the first at which the model stops (20_memory.md R80). -/
def execAll : List Instr → State → Result
  | [], s => .next s
  | i :: is, s =>
    match exec i s with
    | .next t => execAll is t
    | .fault f => .fault f
    | .refused r => .refused r

/-- `BW.PUTBITS v, n` (30_encoding.md R106). -/
def bwPutBits (v : Word64) (n : Nat) : List Instr := (bitsDown v n).map .bwPut

/-- `MB.PUTBITS v, n` (30_encoding.md R106). -/
def mbPutBits (v : Word64) (n : Nat) : List Instr := (bitsDown v n).map .mbPut

/-- `SCAN b` (30_encoding.md R106). -/
def scan (b : Byte) : List Instr := [.fqInc b, .crcUpd b]

/-- `LOADLEN t` (30_encoding.md R106). -/
def loadLen (t : Table Byte) : List Instr :=
  .clClr :: (presentByLen t).map (fun sym => .clSet sym (tblGet t sym))

/-- `STITCH` (30_encoding.md R106). -/
def stitch : List Instr := [.mbReplay]

/-- The first pass over the input and the tables made from it, from a block reset (70_reset_and_hazards.md R350). -/
def analysisSequence (input : List Byte) : List Instr :=
  .sysRst :: input.flatMap scan ++ [.htBuild, .clExtract, .ccAssign, .crcFin]

/-- The encode sequence (70_reset_and_hazards.md R350). -/
def encodeSequence (input : List Byte) : List Instr :=
  analysisSequence input ++ input.map .bwPutsym ++ [.bwFlush]

/-- The decode sequence, `SRC` being the payload (70_reset_and_hazards.md R351). -/
def decodeSequence (lens : Table Byte) (size : Word64) (crc : Word32) : List Instr :=
  loadLen lens ++
    [.ccAssign, .trBuild, .tdSetsize size, .tdSetcrc crc, .brRst, .tdStart, .tdRun]

/-- One chunk, its encoder given (70_reset_and_hazards.md R352). -/
def chunkSequence (puts : List Instr) : List Instr :=
  .mbRst :: puts ++ [.mbFlush] ++ stitch

/-- The chunked encode and stitch, the table being built (70_reset_and_hazards.md R352). -/
def stitchSequence (chunks : List (List Instr)) : List Instr :=
  .bwRst :: chunks.flatMap chunkSequence ++ [.bwFlush]

end Sys2Proof.Machine
end

