-- ==== Sys2Proof/Safety.lean ====
section
/-! DEFINITION. The terms claims use: the bit sequences that the writer, the buffer and the reader stand for, the Kraft
sum, paths in the tree and the trie, and the legal states of the block. -/

namespace Sys2Proof

open Machine

/-- `w` is the word of `i`, whatever `WDATA` is (30_encoding.md R94). -/
def HasWord (w : Word) (i : Instr) : Prop := ∀ wdata, decode ⟨w, wdata⟩ = .ok i

/-- The number a bit sequence is, first bit most significant (30_encoding.md R102). -/
def bitsValue (bits : List Bool) : Nat := bits.foldl (fun v b => 2 * v + b.toNat) 0

/-- The bits of a byte sequence, MSB-first (20_memory.md R61). -/
def streamBits (bytes : List Byte) : List Bool := bytes.flatMap (fun b => bitsDown b 8)

/-- Every bit the writer was given since its last byte boundary and the sink before it
(10_state.md R29, R31). -/
def writerBits (s : State) : List Bool := streamBits s.sink ++ bitsDown s.bwAcc s.bwCnt.val

/-- Every bit an unflushed buffer was given (10_state.md R34). -/
def bufferBits (s : State) : List Bool := streamBits s.mbBytes ++ bitsDown s.mbAcc s.mbCnt.val

/-- `bits(MB)`: the bits a flushed buffer stands for (42_bitstream.md R166). -/
def heldBits (s : State) : List Bool := validBits s.mbBytes s.mbLvb.val

/-- Every bit the reader has yet to deliver (10_state.md R33). -/
def readerBits (s : State) : List Bool :=
  bitsDown s.brCur s.brRem.val ++ streamBits (s.src.drop s.srcPos.toNat)

/-- The Kraft sum of a length table, times 2^255 (00_scope.md R14). -/
def kraft (len : Table Byte) : Nat :=
  ((presentByLen len).map (fun sym => 2 ^ (255 - (tblGet len sym).toNat))).sum

/-- A leaf of `sym` stands `d` edges below node `i` (43_tree_builder.md R196). -/
inductive LeafBelow (arena : List HtNode) : Nat → Symbol → Nat → Prop where
  | here {i : Nat} {sym : Symbol} {nd : HtNode} :
      arena[i]? = some nd → nd.sym = .leaf sym → LeafBelow arena i sym 0
  | child0 {i c : Nat} {sym : Symbol} {nd : HtNode} {d : Nat} :
      arena[i]? = some nd → nd.sym = .internal → nd.c0 = some c → LeafBelow arena c sym d →
      LeafBelow arena i sym (d + 1)
  | child1 {i c : Nat} {sym : Symbol} {nd : HtNode} {d : Nat} :
      arena[i]? = some nd → nd.sym = .internal → nd.c1 = some c → LeafBelow arena c sym d →
      LeafBelow arena i sym (d + 1)

/-- A node of the tree arena has `i` as a child (43_tree_builder.md R196). -/
def isParentOf (i : Nat) (nd : HtNode) : Bool := decide (nd.c0 = some i) || decide (nd.c1 = some i)

/-- The node a bit sequence leads to from node `i` of a trie; `none` where a child is absent
(45_decoder.md R241). -/
def trieWalk (arena : List TrNode) : List Bool → Nat → Option Nat
  | [], i => some i
  | b :: bits, i =>
    match arena[i]? with
    | none => none
    | some nd =>
      match childOf nd b with
      | none => none
      | some c => trieWalk arena bits c

/-- The two status codes with which a decode ends and the one of the assigner: the fault codes
(60_exceptions.md R305). -/
def isFaultCode (c : Code) : Bool :=
  match c with
  | .corrupt | .integrity | .badLen => true
  | .ok | .noData | .illegal | .seq | .noCode | .overflow | .capacity | .range => false

/-- The status codes of refusals (60_exceptions.md R301). -/
def isRefusalCode (c : Code) : Bool :=
  match c with
  | .illegal | .seq | .noCode | .overflow | .capacity | .range => true
  | .ok | .noData | .corrupt | .integrity | .badLen => false

/-- The fault register after a fault of code `c`: the first code is kept (10_state.md R25). -/
def latched (s : State) (c : Code) : Code := if s.fault = .ok then c else s.fault

/-- The status codes each command may end with (60_exceptions.md R306). -/
def outcomesOf : Instr → List Code
  | .bwPutsym _ => [.ok, .seq, .noCode]
  | .brGet | .brGetn _ => [.ok, .noData]
  | .brSeek _ => [.ok, .range]
  | .mbPut _ => [.ok, .seq, .capacity]
  | .mbFlush | .mbReplay | .clExtract | .trBuild | .tdSetsize _ | .tdSetcrc _ => [.ok, .seq]
  | .mbPutsym _ => [.ok, .seq, .noCode, .capacity]
  | .fqInc _ | .htBuild => [.ok, .overflow]
  | .ccAssign => [.ok, .badLen]
  | .tdStart => [.ok, .seq, .integrity]
  | .tdStep | .tdRun => [.ok, .seq, .corrupt, .integrity]
  | .sysNop | .sysRst | .sysClrf | .crcInit | .crcUpd _ | .crcFin | .crcSet _ | .bwRst | .bwPut _
  | .bwFlush | .brRst | .mbRst | .fqClr | .fqSet _ _ | .clClr | .clSet _ _ => [.ok]

/-- The next bit of the reader and the reader's registers after it, `BR_CUR`, `BR_REM` and `SRC_POS`; `none` where
no bit is left (42_bitstream.md R145). -/
def nextBit (s : State) : Option (Bool × Byte × Fin 9 × Word64) :=
  if s.brRem = 0 then
    match s.src[s.srcPos.toNat]? with
    | none => none
    | some byte => some (byte.getLsbD 7, byte, 7, s.srcPos + 1#64)
  else some (s.brCur.getLsbD (s.brRem.val - 1), s.brCur, s.brRem - 1, s.srcPos)

/-- The bits `MB.REPLAY` sends, index by index: 8 of every byte but the last, `MB_LVB` of the last, from bit 7 down
(42_bitstream.md R158). -/
def replayBits (s : State) : List Bool :=
  (List.range s.mbBytes.length).flatMap (fun i =>
    (List.range (if i + 1 < s.mbBytes.length then 8 else s.mbLvb.val)).map (fun j =>
      (s.mbBytes.getD i 0#8).getLsbD (7 - j)))

/-- The bits a command puts into the buffer, where it is a `MB.PUT` or a `MB.PUTSYM` of a symbol that has a codeword
(42_bitstream.md R166). -/
def bufferedBits (s : State) : Instr → Option (List Bool)
  | .mbPut b => some [b]
  | .mbPutsym sym => if s.ccValid && lenOf s sym != 0 then some (codeword s sym) else none
  | .sysNop | .sysRst | .sysClrf | .crcInit | .crcUpd _ | .crcFin | .crcSet _ | .bwRst | .bwPut _
  | .bwFlush | .bwPutsym _ | .brRst | .brGet | .brGetn _ | .brSeek _ | .mbRst | .mbFlush | .mbReplay
  | .fqClr | .fqSet _ _ | .fqInc _ | .htBuild | .clClr | .clSet _ _ | .clExtract | .ccAssign
  | .trBuild | .tdSetsize _ | .tdSetcrc _ | .tdStart | .tdStep | .tdRun => none

/-- `before(x, y)` of the builder's queue for the nodes of index `i` and `j`: frequency, then leaf before internal, then
symbol, then creation order (43_tree_builder.md R189). -/
def Before (i j : Nat) (x y : HtNode) : Prop :=
  x.freq.toNat < y.freq.toNat ∨
    (x.freq = y.freq ∧
      match x.sym, y.sym with
      | .leaf a, .leaf b => a.toNat < b.toNat
      | .leaf _, .internal => True
      | .internal, .leaf _ => False
      | .internal, .internal => i < j)

/-- Node `i` is in the builder's queue when node `k` is made: it exists and no node made so far has it as a child
(43_tree_builder.md R188). -/
def Alive (arena : List HtNode) (k i : Nat) : Prop :=
  i < k ∧ ∀ j nd, j < k → arena[j]? = some nd → isParentOf i nd = false

/-- The writer's accumulator holds nothing above its count: "`BW_ACC < 2^BW_CNT`" (10_state.md R29). -/
def WriterOk (s : State) : Prop := s.bwAcc.toNat < 2 ^ s.bwCnt.val

/-- The reader is inside `SRC`: "`SRC_POS` never exceeds `SRC_LEN` < 2^64" (10_state.md R22, R32). -/
def ReaderOk (s : State) : Prop := s.srcPos.toNat ≤ s.src.length ∧ s.src.length < 2 ^ 64

/-- The buffer's invariants (10_state.md R34, R35, 42_bitstream.md R154). -/
structure BufferOk (s : State) : Prop where
  acc : s.mbAcc.toNat < 2 ^ s.mbCnt.val
  bytes : s.mbBytes.length ≤ s.mbCap
  slot : s.mbCnt ≠ 0 → s.mbBytes.length < s.mbCap
  unflushed : s.mbFlushed = false → s.mbLvb = 0
  flushedCnt : s.mbFlushed = true → s.mbCnt = 0
  flushedLvb : s.mbFlushed = true → (s.mbLvb = 0 ↔ s.mbBytes = [])
  filler : s.mbFlushed = true → ∀ b, s.mbBytes.getLast? = some b → b.toNat % 2 ^ (8 - s.mbLvb.val) = 0

/-- Each valid flag says that its structure was "produced from the *current* content of what it is derived from"
(10_state.md R27), and the arenas stay within their capacities (10_state.md R37, R38, R42, R43). -/
structure TablesOk (s : State) : Prop where
  tree : s.htBuilt = true →
    totalFreq s.freq < 2 ^ 64 ∧ buildTree s.freq = (s.htNodes, s.htRoot) ∧
      s.htNSym = (presentByFreq s.freq).length
  treeSize : s.htNodes.length ≤ Config.htCap
  treeRoot : ∀ r, s.htRoot = some r → r < s.htNodes.length
  treeSyms : s.htNSym ≤ 256
  codes : s.ccValid = true → assignCodes s.len = some s.code ∧ s.ccNSym = (presentByLen s.len).length
  codeSyms : s.ccNSym ≤ 256
  trie : s.trValid = true → s.ccValid = true ∧ buildTrie s.len s.code = .ok s.trNodes
  trieSize : s.trNodes.length ≤ Config.trCap

/-- The decoder's invariants (10_state.md R44, R50). -/
structure DecoderOk (s : State) : Prop where
  atRoot : s.tdState = .atRoot → s.tdCur = 0
  inner : s.tdState = .descending →
    s.tdCur ≠ 0 ∧ ∃ nd, s.trNodes[s.tdCur]? = some nd ∧ nd.leaf = none
  count : decodeActive s = true → s.tdCount.toNat < s.tdSize.toNat
  built : decodeActive s = true → s.trNodes ≠ []
  cur : s.tdCur = 0 ∨ s.tdCur < s.trNodes.length

/-- A legal state: what the registers of 10_state.md may hold (R50) and the invariants its rules state. -/
structure Legal (s : State) : Prop where
  capacity : 1 ≤ s.mbCap
  faultCode : s.fault = .ok ∨ isFaultCode s.fault = true
  writer : WriterOk s
  reader : ReaderOk s
  buffer : BufferOk s
  tables : TablesOk s
  decoder : DecoderOk s

end Sys2Proof
end

