-- ==== Sys2Proof/Certificates/Slice0/Obligations.lean ====
section
/-! DEFINITION. The statements about the model, one definition each, from the numbered rules of spec/. -/

open Sys2Proof Sys2Proof.Machine

/-! ### Encoding (spec/30_encoding.md) -/

/-- Decoding a command's word and operand gives the command back, every operand at every value (30_encoding.md
R90 to R95). -/
def Obligations.DecodeEncodeRoundTrip : Prop :=
  ∀ i : Instr, i.wf = true → decode (encode i) = .ok i

/-- A word that decodes has one meaning: encoding it gives the word back, and the bits of `WDATA` the command names
(30_encoding.md R93, R95). -/
def Obligations.DecodedWordReencodes : Prop :=
  ∀ (c : Cmd) (i : Instr), decode c = .ok i →
    i.wf = true ∧ (encode i).word = c.word ∧ (encode i).wdata = c.wdata &&& wdataMask i

/-- A word is a command exactly when a row of the opcode map holds of it, mask, match and constraint on `arg`; no
two rows hold of one word; and the decoder never looks at `WDATA` to tell (30_encoding.md R94, R95). -/
def Obligations.LegalWordsAreTheTableRows : Prop :=
  (opcodeTable.length = 34) ∧
  ∀ (w : Word) (wdata : Word64),
    ((∃ i, decode ⟨w, wdata⟩ = .ok i) ↔ ∃ r ∈ opcodeTable, w &&& r.mask = r.pattern ∧ r.kind.admits (argOf w) = true) ∧
    (opcodeTable.filter (fun r => r.holds w)).length ≤ 1

/-- Words written out from the opcode map, and words just outside a constraint (30_encoding.md R92, R94, R97). -/
def Obligations.SampleWords : Prop :=
  HasWord 0x0000#16 .sysNop ∧ HasWord 0x1141#16 (.crcUpd 0x41#8) ∧ HasWord 0x2101#16 (.bwPut true) ∧
  HasWord 0x2200#16 .bwFlush ∧ HasWord 0x3240#16 (.brGetn 64#8) ∧ HasWord 0x4100#16 (.mbPut false) ∧
  HasWord 0x43FF#16 (.mbPutsym 255#8) ∧ HasWord 0x5300#16 .htBuild ∧ HasWord 0x6300#16 .ccAssign ∧
  HasWord 0x7500#16 .tdRun ∧
  (decode ⟨0x5141#16, 3#64⟩ = .ok (.fqSet 0x41#8 3#64)) ∧
  (decode ⟨0x6141#16, 0x101#64⟩ = .ok (.clSet 0x41#8 1#8)) ∧
  (decode ⟨0x3300#16, 273#64⟩ = .ok (.brSeek 273#64)) ∧
  (∀ w ∈ [0x0001#16, 0x0300#16, 0x2102#16, 0x3200#16, 0x3241#16, 0x4500#16, 0x7600#16, 0x8000#16, 0xFFFF#16],
    ∀ d i, decode ⟨w, d⟩ ≠ .ok i)

/-- `WDATA` is used by six commands, and the bits a command does not name are ignored (30_encoding.md R93). -/
def Obligations.WdataUsedBySixCommands : Prop :=
  (∀ d : Word64, decode ⟨0x1300#16, d⟩ = .ok (.crcSet (d.extractLsb' 0 32))) ∧
  (∀ d : Word64, decode ⟨0x3300#16, d⟩ = .ok (.brSeek d)) ∧
  (∀ (a : Symbol) (d : Word64), decode ⟨0x5100#16 ||| a.setWidth 16, d⟩ = .ok (.fqSet a d)) ∧
  (∀ (a : Symbol) (d : Word64), decode ⟨0x6100#16 ||| a.setWidth 16, d⟩ = .ok (.clSet a (d.extractLsb' 0 8))) ∧
  (∀ d : Word64, decode ⟨0x7100#16, d⟩ = .ok (.tdSetsize d)) ∧
  (∀ d : Word64, decode ⟨0x7200#16, d⟩ = .ok (.tdSetcrc (d.extractLsb' 0 32))) ∧
  (∀ (w : Word) (d d' : Word64), w.extractLsb' 8 8 ∉ [0x13#8, 0x33#8, 0x51#8, 0x61#8, 0x71#8, 0x72#8] →
    decode ⟨w, d⟩ = decode ⟨w, d'⟩)

/-! ### The step and the whole machine -/

/-- A step runs the decoded command: when the host's next command decodes to `i`, the step is `exec i` on the state
with that command taken from those yet to issue (20_memory.md section 7). With no command issued a step changes nothing.
The list and the idle step are the model's (notes/assumptions/1.md and 2.md). -/
def Obligations.StepRunsDecodedCommand : Prop :=
  (∀ (s : State) (c : Cmd) (rest : List Cmd) (i : Instr), s.cmds = c :: rest → decode c = .ok i →
    step s = exec i { s with cmds := rest }) ∧
  ∀ s : State, s.cmds = [] → step s = .next s

/-- A word that no row of the opcode map holds of is refused: `STATUS` becomes `ST_ILLEGAL` and nothing else of the
block changes; `SYS.NOP` is the architected no-op (30_encoding.md section 4). That the command leaves the host's
list, and the rest of the list stays, is the model's choice (notes/assumptions/1.md). -/
def Obligations.IllegalWordOnlySetsStatus : Prop :=
  (∀ (s : State) (c : Cmd) (rest : List Cmd), s.cmds = c :: rest → (∀ r ∈ opcodeTable, r.holds c.word = false) →
    step s = .next { s with cmds := rest, status := .illegal }) ∧
  (codeNumber .illegal = 4#8) ∧
  (HasWord 0x0000#16 .sysNop ∧ ∀ s : State, exec .sysNop s = .next { s with status := .ok })

/-- A list of commands issued to the block runs as its commands one after another, whatever the host issues after it
(20_memory.md section 7). The list is the model's choice (notes/assumptions/1.md). -/
def Obligations.CommandListRunsInOrder : Prop :=
  ∀ (is : List Instr) (rest : List Cmd) (s : State), (∀ i ∈ is, i.wf = true) →
    Host.Core.run Sys2Proof.core is.length { s with cmds := is.map encode ++ rest } =
      execAll is { s with cmds := rest }

/-- The state after reset is legal. -/
def Obligations.ResetIsLegal : Prop := Legal State.reset

/-- Every step keeps the invariants of the state: the capacities, the fault register's codes, the writer's, reader's
and buffer's invariants, what the valid flags say of the tables, and the decoder's (10_state.md R25, R27, R29, R33,
R35, R37, R41, R43, R44). -/
def Obligations.StepKeepsLegal : Prop :=
  ∀ s t : State, Legal s → step s = .next t → Legal t

/-- In a legal state every command, and every step, ends in a next state: none is stuck, none hangs, and none of the
model's own faults is reached (60_exceptions.md R338). -/
def Obligations.LegalStepsComplete : Prop :=
  (∀ (i : Instr) (s : State), Legal s → ∃ t, exec i s = .next t) ∧
  ∀ s : State, Legal s → ∃ t, step s = .next t

/-- A refused command changes `STATUS` and nothing else (60_exceptions.md R304). -/
def Obligations.RefusalChangesOnlyStatus : Prop :=
  ∀ (i : Instr) (s t : State), exec i s = .next t → isRefusalCode t.status = true →
    t = { s with status := t.status }

/-- `FAULT` latches the first fault's code, keeps it, and is cleared by `SYS.CLRF` and `SYS.RST` alone
(10_state.md R25). -/
def Obligations.FaultHoldsTheFirstCode : Prop :=
  (∀ (i : Instr) (s t : State), exec i s = .next t → i ≠ .sysClrf → i ≠ .sysRst →
    t.fault = if isFaultCode t.status = true ∧ s.fault = .ok then t.status else s.fault) ∧
  (∀ (i : Instr) (s t : State), i = .sysClrf ∨ i = .sysRst → exec i s = .next t → t.fault = .ok) ∧
  (State.reset.fault = .ok ∧ codeNumber .ok = 0#8) ∧
  (∀ s : State, readElement s .csr 0x01 = some (.bits 8 (codeNumber s.fault).toNat))

/-- Each command ends with one of the status codes the table of outcomes gives it; 16 commands always end ok
(60_exceptions.md R306). -/
def Obligations.StatusPerCommand : Prop :=
  ∀ (i : Instr) (s t : State), i.wf = true → exec i s = .next t → t.status ∈ outcomesOf i

/-- The flags of `VALID`: what sets each, what clears it, and that nothing else changes it; bit 4 reads 0; an illegal
word clears none; a refused `HT.BUILD` changes nothing else and happens only while the flag is 0 (in a legal state);
and the flag set does not imply a tree (10_state.md R27). -/
def Obligations.ValidFlagCascade : Prop :=
  (∀ (i : Instr) (s t : State), exec i s = .next t →
    t.htBuilt = (match i with
      | .htBuild => if t.status = .ok then true else s.htBuilt
      | .fqClr | .fqSet _ _ | .fqInc _ => if t.status = .ok then false else s.htBuilt
      | .sysRst => false
      | _ => s.htBuilt) ∧
    t.ccValid = (match i with
      | .ccAssign => if t.status = .ok then true else false
      | .clClr | .clSet _ _ | .clExtract => if t.status = .ok then false else s.ccValid
      | .sysRst => false
      | _ => s.ccValid) ∧
    t.trValid = (match i with
      | .trBuild => if t.status = .ok then true else s.trValid
      | .clClr | .clSet _ _ | .clExtract => if t.status = .ok then false else s.trValid
      | .ccAssign | .sysRst => false
      | _ => s.trValid) ∧
    t.mbFlushed = (match i with
      | .mbFlush => true
      | .mbRst | .sysRst => false
      | _ => s.mbFlushed)) ∧
  (∀ (s : State) (c : Cmd) (rest : List Cmd), s.cmds = c :: rest → (∀ i, decode c ≠ .ok i) →
    ∃ t, step s = .next t ∧ validWord t = validWord s) ∧
  (∀ s t : State, Legal s → exec .htBuild s = .next t → t.status = .overflow →
    t = { s with status := .overflow } ∧ s.htBuilt = false) ∧
  (∀ s t : State, presentByFreq s.freq = [] → exec .htBuild s = .next t → t.htBuilt = true ∧ t.htRoot = none) ∧
  (validWord State.reset = 0#5) ∧
  ∀ s : State, readElement s .csr 0x04 = some (.bits 5
    (s.htBuilt.toNat + 2 * s.ccValid.toNat + 4 * s.trValid.toNat + 8 * s.mbFlushed.toNat))

/-- Each register, table and stream is changed by the commands its rule names, and by no other (10_state.md
sections 3 to 10). That no command changes the commands the host has yet to issue, or `MB_CAP`, which stand in
the model's state, is the model's choice (notes/assumptions/1.md and 3.md); `SRC` is fixed at launch (10_state.md
section 6). -/
def Obligations.EachStateHasItsWriters : Prop :=
  ∀ (i : Instr) (s t : State), i ≠ .sysRst → exec i s = .next t →
    (t.src = s.src ∧ t.mbCap = s.mbCap ∧ t.cmds = s.cmds) ∧
    (t.res ≠ s.res → i = .crcFin ∨ i = .brGet ∨ (∃ n, i = .brGetn n) ∨ i = .tdStart ∨ i = .tdStep ∨ i = .tdRun) ∧
    (t.resCnt ≠ s.resCnt → ∃ n, i = .brGetn n) ∧
    (t.crcState ≠ s.crcState →
      i = .crcInit ∨ (∃ b, i = .crcUpd b) ∨ (∃ v, i = .crcSet v) ∨ i = .tdStart ∨ i = .tdStep ∨ i = .tdRun) ∧
    ((t.bwAcc, t.bwCnt, t.sink) ≠ (s.bwAcc, s.bwCnt, s.sink) →
      i = .bwRst ∨ (∃ b, i = .bwPut b) ∨ i = .bwFlush ∨ (∃ a, i = .bwPutsym a) ∨ i = .mbReplay) ∧
    (t.bwPad ≠ s.bwPad → i = .bwRst ∨ i = .bwFlush) ∧
    (s.sink <+: t.sink ∧ s.dout <+: t.dout) ∧
    ((t.brCur, t.brRem, t.srcPos) ≠ (s.brCur, s.brRem, s.srcPos) →
      i = .brRst ∨ i = .brGet ∨ (∃ n, i = .brGetn n) ∨ (∃ p, i = .brSeek p) ∨ i = .tdStep ∨ i = .tdRun) ∧
    ((t.mbBytes, t.mbAcc, t.mbCnt, t.mbLvb) ≠ (s.mbBytes, s.mbAcc, s.mbCnt, s.mbLvb) →
      i = .mbRst ∨ (∃ b, i = .mbPut b) ∨ i = .mbFlush ∨ ∃ a, i = .mbPutsym a) ∧
    (t.freq ≠ s.freq → i = .fqClr ∨ (∃ a n, i = .fqSet a n) ∨ ∃ a, i = .fqInc a) ∧
    ((t.htNodes, t.htRoot, t.htNSym) ≠ (s.htNodes, s.htRoot, s.htNSym) → i = .htBuild) ∧
    (t.len ≠ s.len → i = .clClr ∨ (∃ a l, i = .clSet a l) ∨ i = .clExtract) ∧
    ((t.code, t.ccNSym) ≠ (s.code, s.ccNSym) → i = .ccAssign) ∧
    (t.trNodes ≠ s.trNodes → i = .trBuild) ∧
    ((t.tdState, t.tdCur) ≠ (s.tdState, s.tdCur) → i = .trBuild ∨ i = .tdStart ∨ i = .tdStep ∨ i = .tdRun) ∧
    (t.tdCount ≠ s.tdCount → i = .tdStart ∨ i = .tdStep ∨ i = .tdRun) ∧
    (t.tdSize ≠ s.tdSize → ∃ n, i = .tdSetsize n) ∧
    (t.tdXcrc ≠ s.tdXcrc → ∃ v, i = .tdSetcrc v) ∧
    (t.dout ≠ s.dout → i = .tdStep ∨ i = .tdRun)

/-! ### System commands (spec/46_system.md) and reset (spec/70_reset_and_hazards.md) -/

/-- `SYS.NOP`, `SYS.RST` and `SYS.CLRF` (46_system.md). That `SYS.RST` keeps `MB_CAP` and the commands the host has
yet to issue, which stand in the model's state, is the model's choice (notes/assumptions/1.md and 3.md); that it keeps
`SRC` is the spec's. -/
def Obligations.SystemCommands : Prop :=
  (HasWord 0x0000#16 .sysNop ∧ ∀ s : State, exec .sysNop s = .next { s with status := .ok }) ∧
  (HasWord 0x0200#16 .sysClrf ∧ ∀ s : State, exec .sysClrf s = .next { s with fault := .ok, status := .ok }) ∧
  (HasWord 0x0100#16 .sysRst ∧ ∀ s : State, exec .sysRst s = .next {
    src := s.src, mbCap := s.mbCap, cmds := s.cmds, status := .ok, fault := .ok, res := 0#64, resCnt := 0,
    htBuilt := false, ccValid := false, trValid := false, mbFlushed := false, crcState := 0xFFFFFFFF#32,
    bwAcc := 0#8, bwCnt := 0, bwPad := 0, sink := [], brCur := 0#8, brRem := 0, srcPos := 0#64, mbBytes := [],
    mbAcc := 0#8, mbCnt := 0, mbLvb := 0, freq := Vector.replicate 256 0#64, htNodes := [], htRoot := none,
    htNSym := 0, len := Vector.replicate 256 0#8, code := Vector.replicate 256 0#255, ccNSym := 0, trNodes := [],
    tdState := .idle, tdCur := 0, tdCount := 0#64, tdSize := 0#64, tdXcrc := 0#32, dout := [] })

/-- The reset values, and `SYS.RST` gives the same ones (70_reset_and_hazards.md R340). -/
def Obligations.ResetValues : Prop :=
  (∀ (s t : State), t = State.reset ∨ exec .sysRst s = .next t →
    (t.status = .ok ∧ t.fault = .ok ∧ t.res = 0#64 ∧ t.resCnt = 0) ∧
    (validWord t = 0#5 ∧ t.crcState = 0xFFFFFFFF#32 ∧ t.bwAcc = 0#8 ∧ t.bwCnt = 0 ∧ t.bwPad = 0 ∧ t.sink = []) ∧
    (t.brCur = 0#8 ∧ t.brRem = 0 ∧ t.srcPos = 0#64) ∧
    (t.mbBytes = [] ∧ t.mbAcc = 0#8 ∧ t.mbCnt = 0 ∧ t.mbLvb = 0) ∧
    (∀ a : Symbol, freqOf t a = 0#64 ∧ lenOf t a = 0 ∧ codeOf t a = 0#255) ∧
    (∀ n, readElement t .htNode n = none ∧ readElement t .trNode n = none) ∧
    (t.htNodes.length = 0 ∧ t.htNSym = 0 ∧ t.htRoot = none ∧ t.ccNSym = 0 ∧ t.trNodes.length = 0) ∧
    (t.tdState = .idle ∧ t.tdCur = 0 ∧ t.tdCount = 0#64 ∧ t.tdSize = 0#64 ∧ t.tdXcrc = 0#32 ∧ t.dout = [])) ∧
  ∀ s : State, ∃ t, exec .sysRst s = .next t ∧ t.src = s.src

/-! ### Checksum Engine (spec/41_crc.md) -/

/-- `CRC.INIT`, `CRC.FIN` and `CRC.SET` (41_crc.md R121, R123, R124). -/
def Obligations.ChecksumCommands : Prop :=
  (HasWord 0x1000#16 .crcInit ∧
    ∀ s : State, exec .crcInit s = .next { s with crcState := 0xFFFFFFFF#32, status := .ok }) ∧
  (HasWord 0x1200#16 .crcFin ∧
    ∀ s : State, exec .crcFin s =
      .next { s with res := (s.crcState ^^^ 0xFFFFFFFF#32).setWidth 64, status := .ok }) ∧
  ((∀ d : Word64, decode ⟨0x1300#16, d⟩ = .ok (.crcSet (d.extractLsb' 0 32))) ∧
    ∀ (v : Word32) (s : State), exec (.crcSet v) s = .next { s with crcState := v, status := .ok })

/-- `CRC.UPD b`: the byte enters the low eight bits, then eight times the state moves right by one, with the polynomial
where bit 0 was set; and the check values (41_crc.md sections 1 and 4). The bit step is the spec's own from general
knowledge (notes/assumptions/10.md). -/
def Obligations.ChecksumUpdate : Prop :=
  (∀ b : Byte, HasWord (0x1100#16 ||| b.setWidth 16) (.crcUpd b)) ∧
  (∀ (b : Byte) (s : State), exec (.crcUpd b) s = .next { s with crcState := crcByte s.crcState b, status := .ok }) ∧
  (∀ (c : Word32) (b : Byte), crcByte c b =
    (List.range 8).foldl (fun x _ => if x.toNat % 2 = 1 then BitVec.ofNat 32 (x.toNat / 2) ^^^ 0xEDB88320#32
      else BitVec.ofNat 32 (x.toNat / 2)) (c ^^^ b.setWidth 32)) ∧
  (crc32 [] = 0#32 ∧ crcByte 0xFFFFFFFF#32 0x41#8 = 0x2C266174#32 ∧
    crc32 [0x31#8, 0x32#8, 0x33#8, 0x34#8, 0x35#8, 0x36#8, 0x37#8, 0x38#8, 0x39#8] = 0xCBF43926#32)

/-- A running checksum fed byte by byte is the checksum of the bytes, and saving and restoring the state continues it
(41_crc.md R122, R124, R127). -/
def Obligations.ChecksumOfASequence : Prop :=
  ∀ (a b : List Byte) (s : State), ∃ t u,
    execAll (.crcInit :: (a ++ b).map .crcUpd ++ [.crcFin]) s = .next t ∧
    t.res = (crc32 (a ++ b)).setWidth 64 ∧
    execAll (.crcInit :: a.map .crcUpd) s = .next u ∧
    ∀ v : State, ∃ x, execAll (.crcSet u.crcState :: b.map .crcUpd ++ [.crcFin]) v = .next x ∧ x.res = t.res

/-! ### Bit writer (spec/42_bitstream.md section 1) -/

/-- `BW.RST`, `BW.PUT` and `BW.FLUSH`; a `BW.PUT` word whose `arg[7:1]` is not 0 is no command (42_bitstream.md R139 to R142). -/
def Obligations.WriterCommands : Prop :=
  (HasWord 0x2000#16 .bwRst ∧
    ∀ s : State, exec .bwRst s = .next { s with bwAcc := 0#8, bwCnt := 0, bwPad := 0, status := .ok }) ∧
  ((∀ b : Bool, HasWord (0x2100#16 ||| (BitVec.ofBool b).setWidth 16) (.bwPut b)) ∧
    (∀ arg : Byte, arg &&& 0xFE#8 ≠ 0#8 → ∀ d i, decode ⟨0x2100#16 ||| arg.setWidth 16, d⟩ ≠ .ok i) ∧
    ∀ (b : Bool) (s : State),
      (s.bwCnt.val = 7 → exec (.bwPut b) s = .next { s with
        sink := s.sink ++ [BitVec.ofNat 8 (2 * s.bwAcc.toNat + b.toNat)], bwAcc := 0#8, bwCnt := 0,
        status := .ok }) ∧
      (s.bwCnt.val ≠ 7 → exec (.bwPut b) s = .next { s with
        bwAcc := BitVec.ofNat 8 (2 * s.bwAcc.toNat + b.toNat), bwCnt := s.bwCnt + 1, status := .ok })) ∧
  (HasWord 0x2200#16 .bwFlush ∧
    ∀ s : State,
      (0 < s.bwCnt.val → exec .bwFlush s = .next { s with
        sink := s.sink ++ [BitVec.ofNat 8 (s.bwAcc.toNat * 2 ^ (8 - s.bwCnt.val))],
        bwPad := Fin.ofNat 8 (8 - s.bwCnt.val), bwAcc := 0#8, bwCnt := 0, status := .ok }) ∧
      (s.bwCnt.val = 0 → exec .bwFlush s = .next { s with bwPad := 0, status := .ok }))

/-- Bit order inside a byte is MSB-first, in the writer and in the reader (20_memory.md R61). -/
def Obligations.BytesAreMsbFirst : Prop :=
  (∀ (s : State) (bits : List Bool), bits.length = 8 → s.bwCnt = 0 → s.bwAcc = 0#8 → ∃ (t : State) (byte : Byte),
    execAll (bits.map .bwPut) s = .next t ∧ t.sink = s.sink ++ [byte] ∧ t.bwCnt = 0 ∧
    ∀ j, j < 8 → bits[j]? = some (byte.getLsbD (7 - j))) ∧
  ∀ (s : State) (byte : Byte) (j : Nat), s.brRem = 0 → s.src.length < 2 ^ 64 →
    s.src[s.srcPos.toNat]? = some byte → j < 8 → ∃ t u,
      execAll (List.replicate j .brGet) s = .next t ∧ exec .brGet t = .next u ∧ u.status = .ok ∧
      u.res = if byte.getLsbD (7 - j) then 1#64 else 0#64

/-- The packing law: the bits put into a reset writer and flushed once fill `ceil(n/8)` bytes, each bit at its place,
zeros after the last, and `BW_PAD` says how many (20_memory.md section 2). -/
def Obligations.PackingLaw : Prop :=
  ∀ (s : State) (bits : List Bool), ∃ (t : State) (out : List Byte),
    execAll (.bwRst :: bits.map .bwPut ++ [.bwFlush]) s = .next t ∧
    t.sink = s.sink ++ out ∧ out.length = (bits.length + 7) / 8 ∧
    (∀ (k j : Nat) (byte : Byte), out[k]? = some byte → j < 8 → byte.getLsbD (7 - j) = bits.getD (8 * k + j) false) ∧
    t.bwPad.val = (8 - bits.length % 8) % 8 ∧ t.bwCnt = 0

/-- The packing law read backwards: after `BR.SEEK p` the bit of stream index `i` is bit `7 - (i mod 8)` of
`SRC[p + i/8]`, and the bit after the last signals `ST_NODATA` (20_memory.md section 2). -/
def Obligations.ReadBackLaw : Prop :=
  (∀ (s : State) (p : Word64) (i : Nat), s.src.length < 2 ^ 64 → p.toNat + i / 8 < s.src.length →
    ∃ (t u : State) (byte : Byte),
      execAll (.brSeek p :: List.replicate i .brGet) s = .next t ∧ exec .brGet t = .next u ∧ u.status = .ok ∧
      s.src[p.toNat + i / 8]? = some byte ∧
      u.res = if byte.getLsbD (7 - i % 8) then 1#64 else 0#64) ∧
  ∀ (s : State) (p : Word64), s.src.length < 2 ^ 64 → p.toNat ≤ s.src.length → ∃ t : State,
    execAll (.brSeek p :: List.replicate (8 * (s.src.length - p.toNat)) .brGet) s = .next t ∧
    exec .brGet t = .next { t with status := .noData }

/-- `BW.PUTSYM s`: refused without a code table, refused for an absent symbol, else the codeword's bits `CODE[s][k]`
enter the writer, `k` from `LEN[s] - 1` down to 0, as if put one by one (44_canonical.md section 3). That order is the
spec's own from general knowledge (notes/assumptions/10.md). -/
def Obligations.WriterPutsACodeword : Prop :=
  ∀ (a : Symbol) (s : State), HasWord (0x2300#16 ||| a.setWidth 16) (.bwPutsym a) ∧
    (s.ccValid = false → exec (.bwPutsym a) s = .next { s with status := .seq }) ∧
    (s.ccValid = true → lenOf s a = 0 → exec (.bwPutsym a) s = .next { s with status := .noCode }) ∧
    (s.ccValid = true → lenOf s a ≠ 0 → ∃ t, exec (.bwPutsym a) s = .next t ∧
      execAll ((List.range (lenOf s a)).map (fun j => .bwPut ((codeOf s a).getLsbD (lenOf s a - 1 - j)))) s =
        .next t ∧
      t = { s with bwAcc := t.bwAcc, bwCnt := t.bwCnt, sink := t.sink, status := .ok })

/-! ### Bit reader (spec/42_bitstream.md section 2) -/

/-- `BR.RST` and `BR.SEEK` (42_bitstream.md R146, R149). -/
def Obligations.ReaderPositioning : Prop :=
  (HasWord 0x3000#16 .brRst ∧
    ∀ s : State, exec .brRst s = .next { s with brCur := 0#8, brRem := 0, srcPos := 0#64, status := .ok }) ∧
  ((∀ d : Word64, decode ⟨0x3300#16, d⟩ = .ok (.brSeek d)) ∧
    ∀ (p : Word64) (s : State),
      (s.src.length < p.toNat → exec (.brSeek p) s = .next { s with status := .range }) ∧
      (p.toNat ≤ s.src.length →
        exec (.brSeek p) s = .next { s with brCur := 0#8, brRem := 0, srcPos := p, status := .ok }))

/-- `BR.GET`: the next unread bit of the current byte, or of the next byte of `SRC`, or the signal `ST_NODATA` at the
end of data, which changes nothing else (42_bitstream.md R145, R147). -/
def Obligations.ReaderGetsABit : Prop :=
  HasWord 0x3100#16 .brGet ∧
  ∀ s : State,
    (s.brRem = 0 → s.srcPos.toNat = s.src.length → exec .brGet s = .next { s with status := .noData }) ∧
    (∀ byte : Byte, s.brRem = 0 → s.src[s.srcPos.toNat]? = some byte → exec .brGet s = .next { s with
      brCur := byte, srcPos := s.srcPos + 1#64, brRem := 7,
      res := if byte.getLsbD 7 then 1#64 else 0#64, status := .ok }) ∧
    (s.brRem ≠ 0 → exec .brGet s = .next { s with
      brRem := s.brRem - 1,
      res := if s.brCur.getLsbD (s.brRem.val - 1) then 1#64 else 0#64, status := .ok })

/-- `BR.GETN n`, `n` from 1 to 64: the bits that `n` reads deliver, first bit most significant, or those there are
and the signal; the reader stands where those reads leave it; a count of 0 or of 65 to 255 is no command (42_bitstream.md R148). -/
def Obligations.ReaderGetsManyBits : Prop :=
  (∀ n : Byte, n = 0#8 ∨ 64 < n.toNat → ∀ d i, decode ⟨0x3200#16 ||| n.setWidth 16, d⟩ ≠ .ok i) ∧
  ∀ (n : Byte) (s : State), 1 ≤ n.toNat → n.toNat ≤ 64 → s.srcPos.toNat ≤ s.src.length → s.src.length < 2 ^ 64 →
    HasWord (0x3200#16 ||| n.setWidth 16) (.brGetn n) ∧
    ∃ t u, exec (.brGetn n) s = .next t ∧
      t.resCnt.val = min n.toNat (readerBits s).length ∧
      t.res.toNat = bitsValue ((readerBits s).take n.toNat) ∧
      t.status = (if t.resCnt.val < n.toNat then .noData else .ok) ∧
      execAll (List.replicate t.resCnt.val .brGet) s = .next u ∧
      t = { s with
        brCur := u.brCur, brRem := u.brRem, srcPos := u.srcPos, res := t.res, resCnt := t.resCnt,
        status := t.status }

/-! ### In-memory bit buffer (spec/42_bitstream.md sections 3 and 4) -/

/-- `MB.RST`, `MB.PUT` and `MB.FLUSH`, checks in the order the rules give; a `MB.PUT` word whose `arg[7:1]` is not 0 is
no command (42_bitstream.md R154 to R157). -/
def Obligations.BufferCommands : Prop :=
  (HasWord 0x4000#16 .mbRst ∧
    ∀ s : State, exec .mbRst s = .next { s with
      mbBytes := [], mbAcc := 0#8, mbCnt := 0, mbLvb := 0, mbFlushed := false, status := .ok }) ∧
  ((∀ b : Bool, HasWord (0x4100#16 ||| (BitVec.ofBool b).setWidth 16) (.mbPut b)) ∧
    (∀ arg : Byte, arg &&& 0xFE#8 ≠ 0#8 → ∀ d i, decode ⟨0x4100#16 ||| arg.setWidth 16, d⟩ ≠ .ok i) ∧
    ∀ (b : Bool) (s : State),
      (s.mbFlushed = true → exec (.mbPut b) s = .next { s with status := .seq }) ∧
      (s.mbFlushed = false → 8 * (s.mbCap - s.mbBytes.length) ≤ s.mbCnt.val →
        exec (.mbPut b) s = .next { s with status := .capacity }) ∧
      (s.mbFlushed = false → s.mbCnt.val < 8 * (s.mbCap - s.mbBytes.length) → s.mbCnt.val = 7 →
        exec (.mbPut b) s = .next { s with
          mbBytes := s.mbBytes ++ [BitVec.ofNat 8 (2 * s.mbAcc.toNat + b.toNat)], mbAcc := 0#8, mbCnt := 0,
          status := .ok }) ∧
      (s.mbFlushed = false → s.mbCnt.val < 8 * (s.mbCap - s.mbBytes.length) → s.mbCnt.val ≠ 7 →
        exec (.mbPut b) s = .next { s with
          mbAcc := BitVec.ofNat 8 (2 * s.mbAcc.toNat + b.toNat), mbCnt := s.mbCnt + 1, status := .ok })) ∧
  (HasWord 0x4200#16 .mbFlush ∧
    ∀ s : State,
      (s.mbFlushed = true → exec .mbFlush s = .next { s with status := .seq }) ∧
      (s.mbFlushed = false → 0 < s.mbCnt.val → exec .mbFlush s = .next { s with
        mbBytes := s.mbBytes ++ [BitVec.ofNat 8 (s.mbAcc.toNat * 2 ^ (8 - s.mbCnt.val))],
        mbLvb := s.mbCnt.castSucc, mbAcc := 0#8, mbCnt := 0, mbFlushed := true, status := .ok }) ∧
      (s.mbFlushed = false → s.mbCnt.val = 0 → s.mbBytes ≠ [] →
        exec .mbFlush s = .next { s with mbLvb := 8, mbFlushed := true, status := .ok }) ∧
      (s.mbFlushed = false → s.mbCnt.val = 0 → s.mbBytes = [] →
        exec .mbFlush s = .next { s with mbLvb := 0, mbFlushed := true, status := .ok }))

/-- `MB.PUTSYM s`: refused without a code table or after a flush, for an absent symbol, or for want of room, in that
order; else the codeword's bits enter the buffer, the most significant first, as if put one by one (44_canonical.md
section 3). That order is the spec's own from general knowledge (notes/assumptions/10.md). -/
def Obligations.BufferPutsACodeword : Prop :=
  ∀ (a : Symbol) (s : State), HasWord (0x4300#16 ||| a.setWidth 16) (.mbPutsym a) ∧
    (s.ccValid = false ∨ s.mbFlushed = true → exec (.mbPutsym a) s = .next { s with status := .seq }) ∧
    (s.ccValid = true → s.mbFlushed = false → lenOf s a = 0 →
      exec (.mbPutsym a) s = .next { s with status := .noCode }) ∧
    (s.ccValid = true → s.mbFlushed = false → lenOf s a ≠ 0 →
      8 * (s.mbCap - s.mbBytes.length) < s.mbCnt.val + lenOf s a →
      exec (.mbPutsym a) s = .next { s with status := .capacity }) ∧
    (s.ccValid = true → s.mbFlushed = false → lenOf s a ≠ 0 →
      s.mbCnt.val + lenOf s a ≤ 8 * (s.mbCap - s.mbBytes.length) → ∃ t, exec (.mbPutsym a) s = .next t ∧
      execAll ((List.range (lenOf s a)).map (fun j => .mbPut ((codeOf s a).getLsbD (lenOf s a - 1 - j)))) s =
        .next t ∧
      t = { s with mbAcc := t.mbAcc, mbCnt := t.mbCnt, mbBytes := t.mbBytes, status := .ok })

/-- `MB.REPLAY`: refused before a flush; else 8 bits of every byte but the last and `MB_LVB` of the last enter the
writer, from bit 7 down, as if put one by one, and the buffer keeps its content (42_bitstream.md R158). -/
def Obligations.ReplaySendsTheValidBits : Prop :=
  HasWord 0x4400#16 .mbReplay ∧
  ∀ s : State,
    (s.mbFlushed = false → exec .mbReplay s = .next { s with status := .seq }) ∧
    (s.mbFlushed = true → ∃ t u, exec .mbReplay s = .next t ∧
      execAll ((replayBits s).map .bwPut) s = .next u ∧ t = { u with status := .ok } ∧
      t = { s with bwAcc := t.bwAcc, bwCnt := t.bwCnt, sink := t.sink, status := .ok } ∧
      t.bwCnt.val = (s.bwCnt.val + (replayBits s).length) % 8 ∧
      t.sink.length = s.sink.length + (s.bwCnt.val + (replayBits s).length) / 8 ∧
      (1 ≤ s.mbLvb.val → s.mbBytes ≠ [] →
        (replayBits s).length = 8 * (s.mbBytes.length - 1) + s.mbLvb.val))

/-- The invariant of a flushed buffer, in every legal state (10_state.md R35). -/
def Obligations.FlushedBufferInvariant : Prop :=
  ∀ s : State, Legal s → s.mbFlushed = true →
    s.mbCnt = 0 ∧ (s.mbLvb = 0 ↔ s.mbBytes.length = 0) ∧
    (s.mbBytes.length ≠ 0 → 1 ≤ s.mbLvb.val ∧ s.mbLvb.val ≤ 8) ∧
    (∀ (byte : Byte) (j : Nat), s.mbBytes.getLast? = some byte → j < 8 - s.mbLvb.val → byte.getLsbD j = false) ∧
    (replayBits s).length = if s.mbBytes.length = 0 then 0 else 8 * (s.mbBytes.length - 1) + s.mbLvb.val

/-- The bits a flushed buffer stands for are exactly the bits put into it since `MB.RST`, by `MB.PUT` and `MB.PUTSYM`,
where they fit its capacity (42_bitstream.md section 4). -/
def Obligations.FlushedBufferHoldsItsBits : Prop :=
  ∀ (s : State) (puts : List Instr) (bits : List (List Bool)), puts.mapM (bufferedBits s) = some bits →
    bits.flatten.length ≤ 8 * s.mbCap → ∃ t,
      execAll (.mbRst :: puts ++ [.mbFlush]) s = .next t ∧ t.status = .ok ∧
      replayBits t = bits.flatten ∧ t.mbBytes.length = (bits.flatten.length + 7) / 8 ∧
      t = { s with
        mbBytes := t.mbBytes, mbAcc := 0#8, mbCnt := 0, mbLvb := t.mbLvb, mbFlushed := true, status := .ok }

/-- The stitching law: chunks encoded one after another through the buffer, each replayed into one writer that is
flushed once, give the sink and the pad count of the same bits put into the writer directly
(42_bitstream.md section 4). -/
def Obligations.StitchingLaw : Prop :=
  ∀ (s : State) (chunks : List (List Instr)) (bits : List (List (List Bool))),
    chunks.mapM (fun puts => puts.mapM (bufferedBits s)) = some bits →
    (∀ b ∈ bits, b.flatten.length ≤ 8 * s.mbCap) → ∃ t u,
      execAll (stitchSequence chunks) s = .next t ∧
      execAll (.bwRst :: bits.flatten.flatten.map .bwPut ++ [.bwFlush]) s = .next u ∧
      t.sink = u.sink ∧ t.bwPad = u.bwPad

/-! ### Frequency table and tree builder (spec/43_tree_builder.md) -/

/-- `FQ.CLR` and `FQ.SET` (43_tree_builder.md R180, R181). -/
def Obligations.FrequencyTableCommands : Prop :=
  (HasWord 0x5000#16 .fqClr ∧ ∀ s : State, ∃ t, exec .fqClr s = .next t ∧ (∀ a, freqOf t a = 0#64) ∧
    t = { s with freq := t.freq, htBuilt := false, status := .ok }) ∧
  (∀ (a : Symbol) (n : Word64), decode ⟨0x5100#16 ||| a.setWidth 16, n⟩ = .ok (.fqSet a n) ∧
    ∀ s : State, ∃ t, exec (.fqSet a n) s = .next t ∧
      (∀ c, freqOf t c = if c = a then n else freqOf s c) ∧
      t = { s with freq := t.freq, htBuilt := false, status := .ok })

/-- `FQ.INC s`: refused at the largest count, changing nothing else, else one more; and one per input byte counts the
bytes: from a cleared table, `FREQ[s]` is the number of occurrences of `s` (43_tree_builder.md R182). -/
def Obligations.CountingPass : Prop :=
  (∀ a : Symbol, HasWord (0x5200#16 ||| a.setWidth 16) (.fqInc a) ∧ ∀ s : State,
    ((freqOf s a).toNat = 2 ^ 64 - 1 → exec (.fqInc a) s = .next { s with status := .overflow }) ∧
    ((freqOf s a).toNat < 2 ^ 64 - 1 → ∃ t, exec (.fqInc a) s = .next t ∧
      (∀ c, (freqOf t c).toNat = (freqOf s c).toNat + if c = a then 1 else 0) ∧
      t = { s with freq := t.freq, htBuilt := false, status := .ok })) ∧
  ∀ (s : State) (input : List Byte), input.length < 2 ^ 64 → ∃ t,
    execAll (.fqClr :: input.map .fqInc) s = .next t ∧ t.status = .ok ∧
    (∀ a, (freqOf t a).toNat = input.count a) ∧ totalFreq t.freq = input.length

/-- `HT.BUILD`: refused when the total of all counts is 2^64 or more, changing nothing else; else the arena, the root
and the count are written and the flag set: no tree for no symbol, with 256 zero lengths to extract; the synthetic
two-node tree for one, with length 1 to extract; and for more the leaves in ascending order at the front of `2n - 1`
nodes (43_tree_builder.md R191, R192). -/
def Obligations.BuildOutcome : Prop :=
  HasWord 0x5300#16 .htBuild ∧
  ∀ s : State,
    (2 ^ 64 ≤ totalFreq s.freq → exec .htBuild s = .next { s with status := .overflow }) ∧
    (totalFreq s.freq < 2 ^ 64 → ∃ t, exec .htBuild s = .next t ∧
      t = { s with
        htNodes := t.htNodes, htRoot := t.htRoot, htNSym := (presentByFreq s.freq).length, htBuilt := true,
        status := .ok } ∧
      (presentByFreq s.freq = [] → t.htNodes = [] ∧ t.htRoot = none ∧
        ∃ v, exec .clExtract t = .next v ∧ ∀ a, lenOf v a = 0) ∧
      (∀ a, presentByFreq s.freq = [a] → t.htRoot = some 1 ∧ t.htNodes =
        [{ freq := freqOf s a, sym := .leaf a, c0 := none, c1 := none },
         { freq := freqOf s a, sym := .internal, c0 := some 0, c1 := none }] ∧
        ∃ v, exec .clExtract t = .next v ∧ lenOf v a = 1) ∧
      (2 ≤ (presentByFreq s.freq).length →
        t.htNodes.length = 2 * (presentByFreq s.freq).length - 1 ∧
        t.htRoot = some (2 * (presentByFreq s.freq).length - 2) ∧
        t.htNodes.take (presentByFreq s.freq).length = (presentByFreq s.freq).map (fun a =>
          { freq := freqOf s a, sym := .leaf a, c0 := none, c1 := none })))

/-- The shape of the tree over two or more symbols: every internal node has two children made before it and their
summed frequency, which does not wrap; every node but the root is the child of exactly one; the root's frequency is the
total; every leaf holds a present symbol; and no leaf is deeper than 255 (43_tree_builder.md section 4). -/
def Obligations.TreeShape : Prop :=
  ∀ s t : State, totalFreq s.freq < 2 ^ 64 → 2 ≤ (presentByFreq s.freq).length → exec .htBuild s = .next t →
    t.htNodes.length ≤ 511 ∧
    (∀ (i : Nat) (nd : HtNode), t.htNodes[i]? = some nd →
      (∃ a : Symbol, nd.sym = .leaf a ∧ freqOf s a ≠ 0#64 ∧ nd.freq = freqOf s a ∧ nd.c0 = none ∧ nd.c1 = none) ∨
      ∃ (a b : Nat) (na nb : HtNode), nd.sym = .internal ∧ nd.c0 = some a ∧ nd.c1 = some b ∧ a ≠ b ∧ a < i ∧ b < i ∧
        t.htNodes[a]? = some na ∧ t.htNodes[b]? = some nb ∧ nd.freq.toNat = na.freq.toNat + nb.freq.toNat) ∧
    (∀ i, i + 1 < t.htNodes.length → t.htNodes.countP (isParentOf i) = 1) ∧
    (∃ (r : Nat) (root : HtNode), t.htRoot = some r ∧ r + 1 = t.htNodes.length ∧ t.htNodes[r]? = some root ∧
      root.freq.toNat = totalFreq s.freq ∧ t.htNodes.countP (isParentOf r) = 0 ∧
      ∀ a, (freqOf s a ≠ 0#64 ↔ ∃ d, LeafBelow t.htNodes r a d) ∧
        ∀ d d', LeafBelow t.htNodes r a d → LeafBelow t.htNodes r a d' → d = d' ∧ 1 ≤ d ∧ d ≤ 255)

/-- Each internal node joins the two nodes that were before every other in the queue when it was made, the first
popped as child 0; and the queue's order is that of frequency, then index (43_tree_builder.md R189; clause 4 and the
child order are decisions of the spec, notes/assumptions/7.md). -/
def Obligations.BuildJoinsTheLeastTwo : Prop :=
  ∀ s t : State, totalFreq s.freq < 2 ^ 64 → 2 ≤ (presentByFreq s.freq).length → exec .htBuild s = .next t →
    (∀ (i j : Nat) (x y : HtNode), i ≠ j → t.htNodes[i]? = some x → t.htNodes[j]? = some y →
      (Before i j x y ↔ x.freq.toNat < y.freq.toNat ∨ (x.freq = y.freq ∧ i < j))) ∧
    ∀ (k : Nat) (nd : HtNode), (presentByFreq s.freq).length ≤ k → t.htNodes[k]? = some nd →
      ∃ (a b : Nat) (na nb : HtNode),
      nd.c0 = some a ∧ nd.c1 = some b ∧ a ≠ b ∧ Alive t.htNodes k a ∧ Alive t.htNodes k b ∧
      t.htNodes[a]? = some na ∧ t.htNodes[b]? = some nb ∧ Before a b na nb ∧
      ∀ (i : Nat) (ni : HtNode), Alive t.htNodes k i → t.htNodes[i]? = some ni → i ≠ a → i ≠ b → Before a i na ni ∧ Before b i nb ni

/-! ### Length table and code assigner (spec/44_canonical.md) -/

/-- `CL.CLR` and `CL.SET` (44_canonical.md R210, R211). -/
def Obligations.LengthTableCommands : Prop :=
  (HasWord 0x6000#16 .clClr ∧ ∀ s : State, ∃ t, exec .clClr s = .next t ∧ (∀ a, lenOf t a = 0) ∧
    t = { s with len := t.len, ccValid := false, trValid := false, status := .ok }) ∧
  (∀ (a : Symbol) (d : Word64), decode ⟨0x6100#16 ||| a.setWidth 16, d⟩ = .ok (.clSet a (d.extractLsb' 0 8))) ∧
  (∀ (a : Symbol) (l : Byte) (s : State), ∃ t, exec (.clSet a l) s = .next t ∧
    (∀ c, lenOf t c = if c = a then l.toNat else lenOf s c) ∧
    t = { s with len := t.len, ccValid := false, trValid := false, status := .ok })

/-- `CL.EXTRACT`: refused while the tree does not match `FREQ`; else each present symbol gets the depth of its leaf,
at least 1, and every other symbol 0 (44_canonical.md R212). -/
def Obligations.ExtractWritesTheDepths : Prop :=
  HasWord 0x6200#16 .clExtract ∧
  (∀ s : State, s.htBuilt = false → exec .clExtract s = .next { s with status := .seq }) ∧
  ∀ s : State, Legal s → s.htBuilt = true → ∃ t, exec .clExtract s = .next t ∧
    t = { s with len := t.len, ccValid := false, trValid := false, status := .ok } ∧
    (s.htRoot = none → ∀ a, lenOf t a = 0) ∧
    (∀ r, s.htRoot = some r →
      (∀ a d, LeafBelow s.htNodes r a d → lenOf t a = if d = 0 then 1 else d) ∧
      ∀ a, (∀ d, ¬ LeafBelow s.htNodes r a d) → lenOf t a = 0) ∧
    (∀ a, lenOf t a = 0 ↔ freqOf s a = 0#64)

/-- The Kraft sum of extracted lengths, kept times 2^255, where the counts' total fits: 1 for two or more symbols, 1/2 for
one, 0 for none
(44_canonical.md section 1). -/
def Obligations.KraftEquality : Prop :=
  ∀ s : State, totalFreq s.freq < 2 ^ 64 → ∃ t, execAll [.htBuild, .clExtract] s = .next t ∧ t.status = .ok ∧
    (2 ≤ (presentByFreq s.freq).length → kraft t.len = 2 ^ 255) ∧
    ((presentByFreq s.freq).length = 1 → kraft t.len = 2 ^ 254) ∧
    ((presentByFreq s.freq).length = 0 → kraft t.len = 0)

/-- `CC.ASSIGN`: the present symbols sorted by length, then value; the first code is 0, each next one the code before
plus one, shifted left by the increase of the length; absent symbols get 0; an over-subscribed table faults with
`ST_BADLEN`, and the tables and flags are left as the rule says (44_canonical.md section 2). The shift distance is the
spec's own from general knowledge (notes/assumptions/10.md). -/
def Obligations.AssignCanonicalCodes : Prop :=
  HasWord 0x6300#16 .ccAssign ∧
  ∀ s : State, ∃ order : List Symbol, order.Nodup ∧ (∀ a, a ∈ order ↔ lenOf s a ≠ 0) ∧
    order.Pairwise (fun a b => lenOf s a < lenOf s b ∨ (lenOf s a = lenOf s b ∧ a.toNat < b.toNat)) ∧
    (2 ^ 255 < kraft s.len → exec .ccAssign s = .next { s with
      code := Vector.replicate 256 0#255, ccNSym := order.length, ccValid := false, trValid := false,
      status := .badLen, fault := latched s .badLen }) ∧
    (kraft s.len ≤ 2 ^ 255 → ∃ t, exec .ccAssign s = .next t ∧
      t = { s with code := t.code, ccNSym := order.length, ccValid := true, trValid := false, status := .ok } ∧
      (∀ a, order.head? = some a → codeOf t a = 0#255) ∧
      (∀ xs a b ys, order = xs ++ a :: b :: ys →
        (codeOf t b).toNat = ((codeOf t a).toNat + 1) * 2 ^ (lenOf s b - lenOf s a)) ∧
      (∀ a, lenOf s a = 0 → codeOf t a = 0#255) ∧
      ∀ a, (codeOf t a).toNat < 2 ^ lenOf s a)

/-- `CC.ASSIGN` faults with `ST_BADLEN` exactly when the Kraft sum exceeds 1; and where it ends ok each code, scaled,
is the Kraft sum of the symbols before it in the order (44_canonical.md section 2). -/
def Obligations.AssignFaultsExactlyWhenOverSubscribed : Prop :=
  ∀ s : State, ∃ t, exec .ccAssign s = .next t ∧ (t.status = .badLen ↔ 2 ^ 255 < kraft s.len) ∧
    (t.status = .ok ↔ kraft s.len ≤ 2 ^ 255) ∧
    (t.status = .ok → ∀ a, lenOf s a ≠ 0 →
      (codeOf t a).toNat * 2 ^ (255 - lenOf s a) =
        (((presentByLen s.len).filter (fun b => lenOf s b < lenOf s a ∨ (lenOf s b = lenOf s a ∧ b.toNat < a.toNat))).map
          (fun b => 2 ^ (255 - lenOf s b))).sum)

/-- When `CC.ASSIGN` ends ok no codeword is a prefix of another and no two are equal, and a later symbol of the order
has a larger bit string when both are left-justified (44_canonical.md section 2). -/
def Obligations.CodewordsArePrefixFree : Prop :=
  ∀ s t : State, exec .ccAssign s = .next t → t.status = .ok →
    (∀ a b, lenOf t a ≠ 0 → lenOf t b ≠ 0 → a ≠ b → ¬ codeword t a <+: codeword t b) ∧
    ∀ a b, lenOf t a ≠ 0 → lenOf t b ≠ 0 →
      (lenOf t a < lenOf t b ∨ (lenOf t a = lenOf t b ∧ a.toNat < b.toNat)) →
      (codeOf t a).toNat * 2 ^ (255 - lenOf t a) < (codeOf t b).toNat * 2 ^ (255 - lenOf t b)

/-- The lengths a build gives are always a prefix code: build, extract and assign end ok whatever the counts, where
their total fits (44_canonical.md section 2). -/
def Obligations.BuiltLengthsAssign : Prop :=
  ∀ s : State, totalFreq s.freq < 2 ^ 64 → ∃ t, execAll [.htBuild, .clExtract, .ccAssign] s = .next t ∧
    t.status = .ok ∧ t.ccValid = true ∧ t.ccNSym = (presentByFreq s.freq).length ∧
    ∀ a, lenOf t a ≠ 0 ↔ freqOf s a ≠ 0#64

/-! ### Trie and decoder (spec/45_decoder.md) -/

/-- `TR.BUILD`: refused without a code table; else the trie, its flag, `TD_STATE` and `TD_CUR` are written and nothing
else; the leaves of the trie are exactly the codewords, its nodes exactly their prefixes (45_decoder.md sections 1
and 4; 44_canonical.md section 2). -/
def Obligations.TrieHasExactlyTheCodewords : Prop :=
  HasWord 0x7000#16 .trBuild ∧
  (∀ s : State, s.ccValid = false → exec .trBuild s = .next { s with status := .seq }) ∧
  ∀ s : State, Legal s → s.ccValid = true → ∃ t, exec .trBuild s = .next t ∧
    t = { s with trNodes := t.trNodes, trValid := true, tdState := .idle, tdCur := 0, status := .ok } ∧
    (∀ bits a, (∃ (i : Nat) (nd : TrNode), trieWalk t.trNodes bits 0 = some i ∧ t.trNodes[i]? = some nd ∧ nd.leaf = some a) ↔
      lenOf s a ≠ 0 ∧ bits = codeword s a) ∧
    (∀ bits, (∃ i, trieWalk t.trNodes bits 0 = some i) ↔
      bits = [] ∨ ∃ a, lenOf s a ≠ 0 ∧ bits <+: codeword s a) ∧
    (∀ (i : Nat) (nd : TrNode), t.trNodes[i]? = some nd → (nd.leaf ≠ none → nd.c0 = none ∧ nd.c1 = none) ∧
      ∃ bits, trieWalk t.trNodes bits 0 = some i) ∧
    (∃ root : TrNode, t.trNodes[0]? = some root ∧ root.leaf = none) ∧
    t.trNodes.length ≤ 65281

/-- `TD.SETSIZE` and `TD.SETCRC`: refused while a decode is under way (45_decoder.md R250, R251). -/
def Obligations.DecoderSetup : Prop :=
  ((∀ d : Word64, decode ⟨0x7100#16, d⟩ = .ok (.tdSetsize d)) ∧ ∀ (n : Word64) (s : State),
    (s.tdState = .atRoot ∨ s.tdState = .descending → exec (.tdSetsize n) s = .next { s with status := .seq }) ∧
    (s.tdState ≠ .atRoot → s.tdState ≠ .descending →
      exec (.tdSetsize n) s = .next { s with tdSize := n, status := .ok })) ∧
  ((∀ d : Word64, decode ⟨0x7200#16, d⟩ = .ok (.tdSetcrc (d.extractLsb' 0 32))) ∧ ∀ (v : Word32) (s : State),
    (s.tdState = .atRoot ∨ s.tdState = .descending → exec (.tdSetcrc v) s = .next { s with status := .seq }) ∧
    (s.tdState ≠ .atRoot → s.tdState ≠ .descending →
      exec (.tdSetcrc v) s = .next { s with tdXcrc := v, status := .ok }))

/-- `TD.START`: refused without a trie; at size 0 it ends the decode at once, `DONE` or `ST_INTEGRITY`; else the walk
starts at the root (45_decoder.md R252). -/
def Obligations.DecoderStart : Prop :=
  HasWord 0x7300#16 .tdStart ∧
  ∀ s : State,
    (s.trValid = false → exec .tdStart s = .next { s with status := .seq }) ∧
    (s.trValid = true → s.tdSize ≠ 0#64 → exec .tdStart s = .next { s with
      crcState := 0xFFFFFFFF#32, tdCount := 0#64, tdCur := 0, tdState := .atRoot, res := 0#64, status := .ok }) ∧
    (s.trValid = true → s.tdSize = 0#64 → s.tdXcrc = 0#32 → exec .tdStart s = .next { s with
      crcState := 0xFFFFFFFF#32, tdCount := 0#64, tdCur := 0, tdState := .done, res := 0x200#64, status := .ok }) ∧
    (s.trValid = true → s.tdSize = 0#64 → s.tdXcrc ≠ 0#32 → exec .tdStart s = .next { s with
      crcState := 0xFFFFFFFF#32, tdCount := 0#64, tdCur := 0, tdState := .failed, res := 0#64,
      status := .integrity, fault := latched s .integrity })

/-- `TD.STEP`: refused without a trie or a decode under way; input exhausted; absent child, the bit consumed; a move to
an inner node; or a leaf, whose byte is appended to `DOUT` and to the running checksum and counted, the walk then
returning to the root, or ending when the count reaches the size, `DONE` where the checksum agrees and `ST_INTEGRITY`
where not (45_decoder.md R255, R256). -/
def Obligations.DecoderStep : Prop :=
  HasWord 0x7400#16 .tdStep ∧
  (∀ s : State, s.trValid = false ∨ (s.tdState ≠ .atRoot ∧ s.tdState ≠ .descending) →
    exec .tdStep s = .next { s with status := .seq }) ∧
  (∀ s : State, s.trValid = true → s.tdState = .atRoot ∨ s.tdState = .descending → s.brRem = 0 →
    s.srcPos.toNat = s.src.length → exec .tdStep s = .next { s with
      tdState := .failed, res := 0x20000#64, status := .corrupt, fault := latched s .corrupt }) ∧
  ∀ (s : State) (b : Bool) (cur : Byte) (rem : Fin 9) (pos : Word64) (nd : TrNode), s.trValid = true →
    s.tdState = .atRoot ∨ s.tdState = .descending → nextBit s = some (b, cur, rem, pos) →
    s.trNodes[s.tdCur]? = some nd →
    ((if b then nd.c1 else nd.c0) = none → exec .tdStep s = .next { s with
      brCur := cur, brRem := rem, srcPos := pos, tdState := .failed, res := 0x10000#64, status := .corrupt,
      fault := latched s .corrupt }) ∧
    ∀ (ch : Nat) (cn : TrNode), (if b then nd.c1 else nd.c0) = some ch → s.trNodes[ch]? = some cn →
      (cn.leaf = none → exec .tdStep s = .next { s with
        brCur := cur, brRem := rem, srcPos := pos, tdCur := ch, tdState := .descending, res := 0#64,
        status := .ok }) ∧
      ∀ byte : Byte, cn.leaf = some byte →
        (s.tdCount + 1#64 ≠ s.tdSize → exec .tdStep s = .next { s with
          brCur := cur, brRem := rem, srcPos := pos, dout := s.dout ++ [byte],
          crcState := crcByte s.crcState byte, tdCount := s.tdCount + 1#64, tdCur := 0, tdState := .atRoot,
          res := 0x100#64 + byte.setWidth 64, status := .ok }) ∧
        (s.tdCount + 1#64 = s.tdSize → crcByte s.crcState byte ^^^ 0xFFFFFFFF#32 = s.tdXcrc →
          exec .tdStep s = .next { s with
            brCur := cur, brRem := rem, srcPos := pos, dout := s.dout ++ [byte],
            crcState := crcByte s.crcState byte, tdCount := s.tdSize, tdCur := 0, tdState := .done,
            res := 0x300#64 + byte.setWidth 64, status := .ok }) ∧
        (s.tdCount + 1#64 = s.tdSize → crcByte s.crcState byte ^^^ 0xFFFFFFFF#32 ≠ s.tdXcrc →
          exec .tdStep s = .next { s with
            brCur := cur, brRem := rem, srcPos := pos, dout := s.dout ++ [byte],
            crcState := crcByte s.crcState byte, tdCount := s.tdSize, tdCur := 0, tdState := .failed,
            res := 0x100#64 + byte.setWidth 64, status := .integrity, fault := latched s .integrity })

/-- `TD.RUN` is the sequence of `TD.STEP` up to the first that ends the decode: the same final state, `STATUS` and
`FAULT`, at most `8*(SRC_LEN - SRC_POS) + BR_REM + 1` steps; `RES` has the last byte any of its steps emitted, and the
rest as the last step left it; refused like a step (45_decoder.md R260). -/
def Obligations.RunIsRepeatedSteps : Prop :=
  HasWord 0x7500#16 .tdRun ∧
  (∀ s : State, s.trValid = false ∨ (s.tdState ≠ .atRoot ∧ s.tdState ≠ .descending) →
    exec .tdRun s = .next { s with status := .seq }) ∧
  ∀ s : State, Legal s → s.trValid = true → s.tdState = .atRoot ∨ s.tdState = .descending → ∃ (n : Nat) (t u : State) (out : List Byte),
    exec .tdRun s = .next t ∧ execAll (List.replicate n .tdStep) s = .next u ∧
    t = { u with res := t.res } ∧ 1 ≤ n ∧ n ≤ 8 * (s.src.length - s.srcPos.toNat) + s.brRem.val + 1 ∧
    (t.tdState = .done ∨ t.tdState = .failed) ∧
    (∀ m v, m < n → execAll (List.replicate m .tdStep) s = .next v →
      v.tdState = .atRoot ∨ v.tdState = .descending) ∧
    t.dout = s.dout ++ out ∧
    t.res.extractLsb' 0 8 = out.getLast?.getD 0#8 ∧ t.res.getLsbD 8 = !out.isEmpty ∧
    t.res.extractLsb' 9 55 = u.res.extractLsb' 9 55

/-- A decoder fault is precise: what was emitted stays and is counted, the checksum is over it, and only `TD.START`,
`TR.BUILD` and `SYS.RST` leave `FAILED` (45_decoder.md R262). -/
def Obligations.FailedDecodeRests : Prop :=
  (∀ (i : Instr) (s t : State), s.tdState = .failed → exec i s = .next t → i ≠ .tdStart → i ≠ .trBuild →
    i ≠ .sysRst → t.tdState = .failed ∧ t.tdCur = s.tdCur ∧ t.tdCount = s.tdCount ∧ t.dout = s.dout) ∧
  (∀ s : State, s.tdState = .failed → exec .tdStep s = .next { s with status := .seq } ∧
    exec .tdRun s = .next { s with status := .seq }) ∧
  ∀ (s t : State) (n : Nat), s.trValid = true →
    execAll (.tdStart :: List.replicate n .tdStep) s = .next t → isFaultCode t.status = true → ∃ out,
      t.tdState = .failed ∧ t.dout = s.dout ++ out ∧ t.tdCount = BitVec.ofNat 64 out.length ∧
      t.crcState = crcBytes 0xFFFFFFFF#32 out ∧ t.fault = latched s t.status

/-- A decode never ends ok in `DONE` unless the bytes it emitted have the count `TD_SIZE` and the checksum `TD_XCRC`:
step by step and as one run (45_decoder.md section 4). -/
def Obligations.DoneMeansCountAndChecksum : Prop :=
  (∀ (s t : State) (n : Nat), execAll (.tdStart :: List.replicate n .tdStep) s = .next t → t.status = .ok →
    t.tdState = .done → ∃ out, t.dout = s.dout ++ out ∧ out.length = s.tdSize.toNat ∧ crc32 out = s.tdXcrc) ∧
  ∀ (s t : State), execAll [.tdStart, .tdRun] s = .next t → t.status = .ok →
    ∃ out, t.dout = s.dout ++ out ∧ out.length = s.tdSize.toNat ∧ crc32 out = s.tdXcrc

/-- Decoding inverts encoding: where the reader stands at the codewords of a byte sequence, with its count and checksum
set, a run emits exactly those bytes, ends `DONE`, and leaves the rest of the stream unread (45_decoder.md section 4). -/
def Obligations.DecodeInvertsEncode : Prop :=
  ∀ (s : State) (bytes : List Byte) (rest : List Bool), Legal s → s.trValid = true → bytes ≠ [] →
    bytes.length < 2 ^ 64 → (∀ b ∈ bytes, lenOf s b ≠ 0) →
    readerBits s = bytes.flatMap (codeword s) ++ rest → s.tdSize.toNat = bytes.length → s.tdXcrc = crc32 bytes →
    ∃ t, execAll [.tdStart, .tdRun] s = .next t ∧ t.status = .ok ∧ t.tdState = .done ∧
      t.dout = s.dout ++ bytes ∧ readerBits t = rest ∧ t.fault = s.fault

/-- The round trip: the encode sequence on any non-empty input shorter than 2^64, then the decode sequence with its lengths, count and checksum
and with its payload as `SRC`, appends exactly the input to `DOUT` and ends `DONE` (45_decoder.md section 4,
70_reset_and_hazards.md section 2). -/
def Obligations.RoundTrip : Prop :=
  ∀ (input : List Byte) (s : State), input ≠ [] → input.length < 2 ^ 64 → ∃ e,
    execAll (encodeSequence input) s = .next e ∧ e.status = .ok ∧ e.res = (crc32 input).setWidth 64 ∧
    ∀ d : State, d.src = e.sink → d.src.length < 2 ^ 64 → ∃ t,
      execAll (decodeSequence e.len (BitVec.ofNat 64 input.length) (e.res.setWidth 32)) d = .next t ∧
      t.status = .ok ∧ t.tdState = .done ∧ t.dout = d.dout ++ input

/-- Empty input: the encode sequence gives no lengths, checksum 0, no padding and no payload, and its decode emits
nothing and is done at `TD.START` (70_reset_and_hazards.md section 2). -/
def Obligations.EmptyInput : Prop :=
  ∀ s d : State, ∃ e t, execAll (encodeSequence []) s = .next e ∧
    (∀ a, lenOf e a = 0) ∧ e.res = 0#64 ∧ e.bwPad = 0 ∧ e.sink = [] ∧
    containerOf 0#64 e = emptyContainer ∧
    execAll (loadLen e.len ++ [.ccAssign, .trBuild, .tdSetsize 0#64, .tdSetcrc (e.res.setWidth 32), .brRst, .tdStart])
      d = .next t ∧ t.status = .ok ∧ t.tdState = .done ∧ t.dout = d.dout

/-! ### The read port (spec/10_state.md) and the container (spec/20_memory.md) -/

/-- The read port shows every register under its number, whole, and nothing under any other number; a slot that
holds no value cannot be read (10_state.md section 13). A length is shown modulo 2^64, the model's choice
(notes/assumptions/9.md). -/
def Obligations.ReadPortShowsTheRegisters : Prop :=
  ∀ s : State,
    (readElement s .csr 0x00 = some (.bits 8 (codeNumber s.status).toNat) ∧
      readElement s .csr 0x01 = some (.bits 8 (codeNumber s.fault).toNat) ∧
      readElement s .csr 0x02 = some (.bits 64 s.res.toNat) ∧
      readElement s .csr 0x03 = some (.bits 7 s.resCnt.val) ∧
      readElement s .csr 0x04 = some (.bits 5 (validWord s).toNat) ∧
      readElement s .csr 0x10 = some (.bits 32 s.crcState.toNat) ∧
      readElement s .csr 0x20 = some (.bits 8 s.bwAcc.toNat) ∧
      readElement s .csr 0x21 = some (.bits 3 s.bwCnt.val) ∧
      readElement s .csr 0x22 = some (.bits 3 s.bwPad.val) ∧
      readElement s .csr 0x23 = some (.bits 64 (s.sink.length % 2 ^ 64))) ∧
    (readElement s .csr 0x30 = some (.bits 8 s.brCur.toNat) ∧
      readElement s .csr 0x31 = some (.bits 4 s.brRem.val) ∧
      readElement s .csr 0x32 = some (.bits 64 s.srcPos.toNat) ∧
      readElement s .csr 0x33 = some (.bits 64 (s.src.length % 2 ^ 64)) ∧
      readElement s .csr 0x40 = some (.bits 8 s.mbAcc.toNat) ∧
      readElement s .csr 0x41 = some (.bits 3 s.mbCnt.val) ∧
      readElement s .csr 0x42 = some (.bits 4 s.mbLvb.val) ∧
      readElement s .csr 0x43 = some (.bits 64 (s.mbBytes.length % 2 ^ 64))) ∧
    ((s.htRoot = none → readElement s .csr 0x50 = some .absent) ∧
      (∀ r, s.htRoot = some r → readElement s .csr 0x50 = some (.bits 9 r)) ∧
      readElement s .csr 0x51 = some (.bits 9 s.htNSym) ∧
      readElement s .csr 0x52 = some (.bits 10 s.htNodes.length) ∧
      readElement s .csr 0x60 = some (.bits 9 s.ccNSym) ∧
      readElement s .csr 0x70 = some (.bits 3 (tdStateNumber s.tdState).toNat) ∧
      readElement s .csr 0x71 = some (.bits 16 s.tdCur) ∧
      readElement s .csr 0x72 = some (.bits 64 s.tdCount.toNat) ∧
      readElement s .csr 0x73 = some (.bits 64 s.tdSize.toNat) ∧
      readElement s .csr 0x74 = some (.bits 32 s.tdXcrc.toNat) ∧
      readElement s .csr 0x75 = some (.bits 17 s.trNodes.length) ∧
      readElement s .csr 0x76 = some (.bits 64 (s.dout.length % 2 ^ 64))) ∧
    (∀ n, (readElement s .csr n ≠ none ↔ n ∈ [0x00, 0x01, 0x02, 0x03, 0x04, 0x10, 0x20, 0x21, 0x22, 0x23, 0x30, 0x31,
      0x32, 0x33, 0x40, 0x41, 0x42, 0x43, 0x50, 0x51, 0x52, 0x60, 0x70, 0x71, 0x72, 0x73, 0x74, 0x75, 0x76])) ∧
    (∀ n, (readElement s .htNode n ≠ none ↔ n < s.htNodes.length) ∧
      (readElement s .trNode n ≠ none ↔ n < s.trNodes.length) ∧
      (readElement s .freq n ≠ none ↔ n < 256) ∧ (readElement s .sink n ≠ none ↔ n < s.sink.length) ∧
      (readElement s .dout n ≠ none ↔ n < s.dout.length) ∧
      (readElement s .mbBytes n ≠ none ↔ n < s.mbBytes.length)) ∧
    ∀ a : Symbol, readElement s .len a.toNat = some (.bits 8 (lenOf s a)) ∧
      readElement s .code a.toNat = some (.bits 255 (codeOf s a).toNat)

/-- The container's layout: each field at its offset, multi-byte integers little-endian, the payload at 273; and the
empty container is the magic and 269 zero bytes (20_memory.md R74, R76; R63 for the byte order). -/
def Obligations.ContainerLayout : Prop :=
  (∀ c : Container,
    (containerBytes c).length = 273 + c.payload.length ∧
    (containerBytes c).take 4 = Config.magic.toList ∧
    leNumber (((containerBytes c).drop 4).take 8) = c.originalSize.toNat ∧
    (∀ a : Symbol, (containerBytes c)[12 + a.toNat]? = some (tblGet c.codeLengths a)) ∧
    (containerBytes c)[268]? = some (BitVec.ofNat 8 c.padBits.val) ∧
    leNumber (((containerBytes c).drop 269).take 4) = c.crc.toNat ∧
    (containerBytes c).drop 273 = c.payload) ∧
  (∀ b : Byte, ∀ bs : List Byte, leNumber (b :: bs) = b.toNat + 256 * leNumber bs) ∧
  containerBytes emptyContainer = Config.magic.toList ++ List.replicate 269 0#8
end

