-- ==== Sys2Proof/Laws/Bits.lean ====
section
/-! SUPPORT. Bit sequences: what `bitsDown`, `shiftIn`, `leftJustify` and `validBits` do. -/

namespace Sys2Proof.Machine

open Sys2Proof

@[simp] theorem bitsDown_zero {w : Nat} (v : BitVec w) : bitsDown v 0 = [] := rfl

@[simp] theorem bitsDown_succ {w : Nat} (v : BitVec w) (k : Nat) :
    bitsDown v (k + 1) = v.getLsbD k :: bitsDown v k := rfl

@[simp] theorem bitsDown_length {w : Nat} (v : BitVec w) (k : Nat) : (bitsDown v k).length = k := by
  induction k with
  | zero => rfl
  | succ k ih => simp [ih]

/-- Element `j` of `bitsDown v k` is bit `k-1-j`. -/
theorem bitsDown_getElem? {w : Nat} (v : BitVec w) (k j : Nat) (h : j < k) :
    (bitsDown v k)[j]? = some (v.getLsbD (k - 1 - j)) := by
  induction k generalizing j with
  | zero => omega
  | succ k ih =>
    cases j with
    | zero => simp
    | succ j =>
      rw [bitsDown_succ, List.getElem?_cons_succ, ih j (by omega)]
      congr 2
      omega

/-- `bitsDown` looks at the low bits only. -/
theorem bitsDown_congr {w w' : Nat} (v : BitVec w) (v' : BitVec w') (k : Nat)
    (h : ∀ j, j < k → v.getLsbD j = v'.getLsbD j) : bitsDown v k = bitsDown v' k := by
  induction k with
  | zero => rfl
  | succ k ih => simp [h k (by omega), ih (fun j hj => h j (by omega))]

theorem shiftIn_getLsbD_zero (acc : Byte) (b : Bool) : (shiftIn acc b).getLsbD 0 = b := by
  cases b <;> simp [shiftIn]

theorem shiftIn_getLsbD_succ (acc : Byte) (b : Bool) (k : Nat) (h : k < 7) :
    (shiftIn acc b).getLsbD (k + 1) = acc.getLsbD k := by
  have key : ∀ (a : BitVec 8) (b : Bool) (k : Fin 7),
      (shiftIn a b).getLsbD (k.val + 1) = a.getLsbD k.val := by decide +kernel
  exact key acc b ⟨k, h⟩

/-- A bit shifted in comes last (42_bitstream.md R139: "oldest in the highest of them"). -/
theorem bitsDown_shiftIn (acc : Byte) (b : Bool) (k : Nat) (h : k ≤ 7) :
    bitsDown (shiftIn acc b) (k + 1) = bitsDown acc k ++ [b] := by
  induction k with
  | zero => rw [bitsDown_succ, shiftIn_getLsbD_zero]; rfl
  | succ k ih =>
    rw [bitsDown_succ, ih (by omega), shiftIn_getLsbD_succ acc b k (by omega)]
    simp

/-- The bound on the accumulator: "`a < 256` because `BW_ACC < 2^BW_CNT`" (42_bitstream.md R139). -/
theorem shiftIn_toNat (acc : Byte) (b : Bool) (k : Nat) (hk : k < 8) (h : acc.toNat < 2 ^ k) :
    (shiftIn acc b).toNat = 2 * acc.toNat + b.toNat := by
  have h7 : acc.toNat < 128 := lt_of_lt_of_le h (by
    calc 2 ^ k ≤ 2 ^ 7 := Nat.pow_le_pow_right (by omega) (by omega)
      _ = 128 := by norm_num)
  have key : ∀ a : BitVec 8, a.toNat < 128 → ∀ b : Bool,
      (shiftIn a b).toNat = 2 * a.toNat + b.toNat := by decide +kernel
  exact key acc h7 b

theorem shiftIn_lt (acc : Byte) (b : Bool) (k : Nat) (hk : k < 7) (h : acc.toNat < 2 ^ k) :
    (shiftIn acc b).toNat < 2 ^ (k + 1) := by
  rw [shiftIn_toNat acc b k (by omega) h]
  have := Bool.toNat_le b
  omega

/-- The justified byte: the valid bits, then zeros (42_bitstream.md R142). -/
theorem bitsDown_leftJustify (acc : Byte) (cnt : Fin 8) :
    bitsDown (leftJustify acc cnt.val) 8 = bitsDown acc cnt.val ++ List.replicate (8 - cnt.val) false := by
  have key : ∀ (a : BitVec 8) (c : Fin 8),
      bitsDown (leftJustify a c.val) 8 = bitsDown a c.val ++ List.replicate (8 - c.val) false := by
    decide +kernel
  exact key acc cnt

theorem leftJustify_filler (acc : Byte) (cnt : Fin 8) :
    (leftJustify acc cnt.val).toNat % 2 ^ (8 - cnt.val) = 0 := by
  have key : ∀ (a : BitVec 8) (c : Fin 8), (leftJustify a c.val).toNat % 2 ^ (8 - c.val) = 0 := by
    decide +kernel
  exact key acc cnt

@[simp] theorem streamBits_nil : streamBits [] = [] := rfl

@[simp] theorem streamBits_cons (b : Byte) (bs : List Byte) :
    streamBits (b :: bs) = bitsDown b 8 ++ streamBits bs := by simp [streamBits]

@[simp] theorem streamBits_append (a b : List Byte) :
    streamBits (a ++ b) = streamBits a ++ streamBits b := by simp [streamBits]

@[simp] theorem streamBits_length (bs : List Byte) : (streamBits bs).length = 8 * bs.length := by
  induction bs with
  | nil => rfl
  | cons b bs ih =>
    rw [streamBits_cons, List.length_append, bitsDown_length, ih, List.length_cons]
    omega

/-- The bits of a stream determine its bytes. -/
theorem streamBits_injective {a b : List Byte} (h : streamBits a = streamBits b) : a = b := by
  have byteEq : ∀ x y : BitVec 8, bitsDown x 8 = bitsDown y 8 → x = y := by
    intro x y hxy
    apply BitVec.eq_of_getLsbD_eq
    intro i hi
    have hj : 8 - 1 - (7 - i) = i := by omega
    have hx := bitsDown_getElem? x 8 (7 - i) (by omega)
    have hy := bitsDown_getElem? y 8 (7 - i) (by omega)
    rw [hj] at hx hy
    rw [hxy, hy] at hx
    simpa using hx.symm
  induction a generalizing b with
  | nil =>
    cases b with
    | nil => rfl
    | cons y ys => simpa using congrArg List.length h
  | cons x xs ih =>
    cases b with
    | nil => simpa using congrArg List.length h
    | cons y ys =>
      rw [streamBits_cons, streamBits_cons] at h
      obtain ⟨h1, h2⟩ := List.append_inj h (by simp)
      rw [byteEq x y h1, ih h2]

/-- A full last byte: every bit of the buffer is valid (42_bitstream.md R157). -/
theorem validBits_full (bytes : List Byte) : validBits bytes 8 = streamBits bytes := by
  induction bytes with
  | nil => rfl
  | cons b bs ih =>
    cases bs with
    | nil =>
      rw [validBits, streamBits_cons, streamBits_nil, List.append_nil,
        List.take_of_length_le (by rw [bitsDown_length])]
    | cons b' bs' => rw [validBits, ih, streamBits_cons b]

/-- A partial last byte contributes its valid bits, from bit 7 down (42_bitstream.md R158). -/
theorem validBits_append_last (bytes : List Byte) (b : Byte) (lvb : Nat) :
    validBits (bytes ++ [b]) lvb = streamBits bytes ++ (bitsDown b 8).take lvb := by
  induction bytes with
  | nil => simp [validBits]
  | cons x xs ih =>
    cases xs with
    | nil => simp only [List.cons_append, List.nil_append, validBits, streamBits_cons, streamBits_nil,
        List.append_nil]
    | cons y ys =>
      rw [List.cons_append] at ih ⊢
      simp only [List.cons_append] at ih ⊢
      rw [validBits, ih, streamBits_cons x, List.append_assoc]

/-- How many bits a flushed buffer holds: `MB_BITS` (10_state.md R35). -/
theorem validBits_length (bytes : List Byte) (lvb : Fin 9) (h : bytes ≠ []) :
    (validBits bytes lvb.val).length = 8 * (bytes.length - 1) + lvb.val := by
  obtain ⟨xs, x, rfl⟩ : ∃ xs x, bytes = xs ++ [x] :=
    ⟨bytes.dropLast, bytes.getLast h, (List.dropLast_append_getLast h).symm⟩
  rw [validBits_append_last, List.length_append, streamBits_length, List.length_take, bitsDown_length]
  simp
  omega

theorem bitsValue_append (a : List Bool) (b : Bool) :
    bitsValue (a ++ [b]) = 2 * bitsValue a + b.toNat := by simp [bitsValue]

theorem bitsValue_lt (a : List Bool) : bitsValue a < 2 ^ a.length := by
  induction a using List.reverseRecOn with
  | nil => simp [bitsValue]
  | append_singleton a b ih =>
    rw [bitsValue_append, List.length_append, List.length_singleton, pow_succ]
    have := Bool.toNat_le b
    omega

end Sys2Proof.Machine
end

