-- ==== Sys2Proof/Laws/Tables.lean ====
section
/-! SUPPORT. Tables indexed by a symbol, the list of all symbols and the present symbols of a table. -/

namespace Sys2Proof.Machine

open Sys2Proof

theorem tblGet_tblSet {α : Type} (t : Table α) (a b : Symbol) (v : α) :
    tblGet (tblSet t a v) b = if b = a then v else tblGet t b := by
  unfold tblGet tblSet
  rw [Vector.getElem_set]
  by_cases h : a = b
  · simp [h]
  · have : a.toNat ≠ b.toNat := fun hn => h (BitVec.eq_of_toNat_eq hn)
    simp [this, Ne.symm h]

@[simp] theorem tblGet_tblSet_self {α : Type} (t : Table α) (a : Symbol) (v : α) :
    tblGet (tblSet t a v) a = v := by simp [tblGet_tblSet]

theorem tblGet_tblSet_ne {α : Type} (t : Table α) {a b : Symbol} (v : α) (h : b ≠ a) :
    tblGet (tblSet t a v) b = tblGet t b := by simp [tblGet_tblSet, h]

@[simp] theorem tblGet_tblFill {α : Type} (v : α) (a : Symbol) : tblGet (tblFill v) a = v := by
  simp [tblGet, tblFill]

/-- Two tables with the same elements are the same. -/
theorem tbl_ext {α : Type} {t u : Table α} (h : ∀ a : Symbol, tblGet t a = tblGet u a) : t = u := by
  apply Vector.ext
  intro i hi
  have := h (BitVec.ofNat 8 i)
  have hm : i % 256 = i := Nat.mod_eq_of_lt hi
  simpa [tblGet, BitVec.toNat_ofNat, hm] using this

theorem mem_allSymbols (a : Symbol) : a ∈ allSymbols := by
  unfold allSymbols
  rw [List.mem_map]
  exact ⟨a.toNat, List.mem_range.mpr a.isLt, by simp⟩

theorem allSymbols_sorted : allSymbols.Pairwise (fun a b => a.toNat < b.toNat) := by
  unfold allSymbols
  rw [List.pairwise_map]
  apply List.Pairwise.imp_of_mem (R := (· < ·)) _ List.pairwise_lt_range
  intro a b ha hb h
  rw [List.mem_range] at ha hb
  simp only [BitVec.toNat_ofNat]
  omega

theorem allSymbols_length : allSymbols.length = 256 := by simp [allSymbols]

theorem mem_presentByLen {len : Table Byte} {a : Symbol} :
    a ∈ presentByLen len ↔ (tblGet len a).toNat ≠ 0 := by
  unfold presentByLen
  rw [List.mem_filter]
  simp only [mem_allSymbols, true_and, bne_iff_ne, ne_eq]
  constructor
  · intro h h'; exact h (BitVec.eq_of_toNat_eq (by simpa using h'))
  · intro h h'; exact h (by rw [h']; rfl)

theorem mem_presentByFreq {freq : Table Word64} {a : Symbol} :
    a ∈ presentByFreq freq ↔ tblGet freq a ≠ 0#64 := by
  unfold presentByFreq
  rw [List.mem_filter]
  simp [mem_allSymbols]

theorem presentByLen_sorted (len : Table Byte) :
    (presentByLen len).Pairwise (fun a b => a.toNat < b.toNat) :=
  allSymbols_sorted.filter _

theorem presentByFreq_sorted (freq : Table Word64) :
    (presentByFreq freq).Pairwise (fun a b => a.toNat < b.toNat) :=
  allSymbols_sorted.filter _

theorem nodup_of_sorted {l : List Symbol} (h : l.Pairwise (fun a b => a.toNat < b.toNat)) : l.Nodup :=
  h.imp (fun hab he => by rw [he] at hab; omega)

theorem presentByLen_nodup (len : Table Byte) : (presentByLen len).Nodup :=
  nodup_of_sorted (presentByLen_sorted len)

theorem presentByFreq_nodup (freq : Table Word64) : (presentByFreq freq).Nodup :=
  nodup_of_sorted (presentByFreq_sorted freq)

theorem presentByLen_length_le (len : Table Byte) : (presentByLen len).length ≤ 256 := by
  rw [← allSymbols_length]
  exact List.length_filter_le _ _

theorem presentByFreq_length_le (freq : Table Word64) : (presentByFreq freq).length ≤ 256 := by
  rw [← allSymbols_length]
  exact List.length_filter_le _ _

/-- Two sorted lists of symbols with the same members are the same. -/
theorem sorted_symbols_eq {a b : List Symbol} (ha : a.Pairwise (fun x y => x.toNat < y.toNat))
    (hb : b.Pairwise (fun x y => x.toNat < y.toNat)) (h : ∀ x, x ∈ a ↔ x ∈ b) : a = b := by
  have hp : a.Perm b := (List.perm_ext_iff_of_nodup (nodup_of_sorted ha) (nodup_of_sorted hb)).mpr h
  exact hp.eq_of_pairwise (fun x y _ _ h1 h2 => by omega) ha hb

/-! ### The canonical order -/

theorem canonBefore_iff (len : Table Byte) (a b : Symbol) :
    canonBefore len a b = true ↔
      (tblGet len a).toNat < (tblGet len b).toNat ∨
        ((tblGet len a).toNat = (tblGet len b).toNat ∧ a.toNat ≤ b.toNat) := by
  simp [canonBefore]

/-- The canonical order holds the present symbols, once each (44_canonical.md R220). -/
theorem canonOrder_perm (len : Table Byte) : (canonOrder len).Perm (presentByLen len) :=
  List.perm_insertionSort _ _

theorem mem_canonOrder {len : Table Byte} {a : Symbol} :
    a ∈ canonOrder len ↔ (tblGet len a).toNat ≠ 0 := by
  rw [(canonOrder_perm len).mem_iff, mem_presentByLen]

theorem canonOrder_nodup (len : Table Byte) : (canonOrder len).Nodup :=
  (canonOrder_perm len).nodup_iff.mpr (presentByLen_nodup len)

/-- The canonical order is sorted by length, then symbol (44_canonical.md R220, R221). -/
theorem canonOrder_sorted (len : Table Byte) :
    (canonOrder len).Pairwise (fun a b => canonBefore len a b = true) := by
  unfold canonOrder
  have : Std.Total (fun a b => canonBefore len a b = true) :=
    ⟨fun a b => by rw [canonBefore_iff, canonBefore_iff]; omega⟩
  have : IsTrans Symbol (fun a b => canonBefore len a b = true) :=
    ⟨fun a b c => by rw [canonBefore_iff, canonBefore_iff, canonBefore_iff]; omega⟩
  exact List.pairwise_insertionSort _ _

theorem canonOrder_length_sorted (len : Table Byte) :
    (canonOrder len).Pairwise (fun a b => (tblGet len a).toNat ≤ (tblGet len b).toNat) :=
  (canonOrder_sorted len).imp (fun h => by rw [canonBefore_iff] at h; omega)

/-- The present symbols read off the table's own list: the form to evaluate. -/
theorem filter_by_table {α : Type} (t : Table α) (p : α → Bool) :
    allSymbols.filter (fun a => p (tblGet t a)) = ((allSymbols.zip t.toList).filter (fun x => p x.2)).map (·.1) := by
  have h : t.toList = allSymbols.map (tblGet t) := by
    apply List.ext_getElem
    · simp [allSymbols]
    · intro i h1 h2
      have hi : i < 256 := by simpa using h1
      have : i % 256 = i := Nat.mod_eq_of_lt hi
      simp [allSymbols, tblGet, this]
  rw [h]
  generalize allSymbols = l
  induction l with
  | nil => rfl
  | cons a l ih =>
    simp only [List.map_cons, List.zip_cons_cons, List.filter_cons]
    split <;> simp [ih]

theorem presentByLen_scan (t : Table Byte) :
    presentByLen t = ((allSymbols.zip t.toList).filter (fun x => x.2 != 0#8)).map (·.1) :=
  filter_by_table t (fun x => x != 0#8)

theorem presentByFreq_scan (t : Table Word64) :
    presentByFreq t = ((allSymbols.zip t.toList).filter (fun x => x.2 != 0#64)).map (·.1) :=
  filter_by_table t (fun x => x != 0#64)

end Sys2Proof.Machine
end

