-- ==== Sys2Proof/Laws/Codes.lean ====
section
/-! SUPPORT. The loop of `CC.ASSIGN`: each code against the Kraft sum of the symbols before it (spec/44_canonical.md
R223), and from it the fit of every code and the prefix property. -/

namespace Sys2Proof.Machine

open Sys2Proof

/-- The share of one symbol in the Kraft sum, times 2^255. -/
def share (len : Table Byte) (a : Symbol) : Nat := 2 ^ (255 - (tblGet len a).toNat)

/-- The Kraft sum of a list of symbols, times 2^255. -/
def shares (len : Table Byte) (l : List Symbol) : Nat := (l.map (share len)).sum

@[simp] theorem shares_nil (len : Table Byte) : shares len [] = 0 := rfl

@[simp] theorem shares_cons (len : Table Byte) (a : Symbol) (l : List Symbol) :
    shares len (a :: l) = share len a + shares len l := by simp [shares]

@[simp] theorem shares_append (len : Table Byte) (a b : List Symbol) :
    shares len (a ++ b) = shares len a + shares len b := by simp [shares]

theorem kraft_eq_shares (len : Table Byte) : kraft len = shares len (canonOrder len) := by
  have h : ((canonOrder len).map (share len)).Perm ((presentByLen len).map (share len)) :=
    (canonOrder_perm len).map _
  exact h.sum_eq.symm

theorem lenNat_le (len : Table Byte) (a : Symbol) : (tblGet len a).toNat ≤ 255 := by
  have := (tblGet len a).isLt
  omega

theorem share_pos (len : Table Byte) (a : Symbol) : 1 ≤ share len a := Nat.one_le_two_pow

theorem share_mul (len : Table Byte) (a : Symbol) :
    2 ^ (tblGet len a).toNat * share len a = 2 ^ 255 := by
  unfold share
  rw [← pow_add]
  congr 1
  have := lenNat_le len a
  omega

/-- What the code and length of the symbol before stand for: the Kraft sum up to and including it. -/
def prevSum : Option (Nat × Nat) → Nat
  | none => 0
  | some (c, l) => (c + 1) * 2 ^ (255 - l)

/-- The next code, justified to 255 bits, is the sum so far (44_canonical.md R223). -/
theorem nextCode_mul (prev : Option (Nat × Nat)) (l : Nat) (hl : l ≤ 255)
    (hp : ∀ p, prev = some p → p.2 ≤ l) : nextCode prev l * 2 ^ (255 - l) = prevSum prev := by
  cases prev with
  | none => simp [nextCode, prevSum]
  | some p =>
    obtain ⟨c, l'⟩ := p
    have hle : l' ≤ l := hp _ rfl
    simp only [nextCode, prevSum, Nat.shiftLeft_eq]
    rw [mul_assoc, ← pow_add]
    congr 2
    omega

/-- What the assigner's loop answers over symbols sorted by length: a table in which every code, justified, is the
Kraft sum before its symbol and fits its length; or nothing, exactly when the sum exceeds 1 (44_canonical.md R220,
R223). -/
theorem assignLoop_spec (len : Table Byte) : ∀ (os : List Symbol) (prev : Option (Nat × Nat))
    (c : Table CodeValue),
    os.Pairwise (fun a b => (tblGet len a).toNat ≤ (tblGet len b).toNat) → os.Nodup →
    (∀ p, prev = some p → ∀ a ∈ os, p.2 ≤ (tblGet len a).toNat) → prevSum prev ≤ 2 ^ 255 →
    (assignLoop len prev os c = none ∧ 2 ^ 255 < prevSum prev + shares len os) ∨
      ∃ c', assignLoop len prev os c = some c' ∧ prevSum prev + shares len os ≤ 2 ^ 255 ∧
        (∀ a, a ∉ os → tblGet c' a = tblGet c a) ∧
        ∀ xs a ys, os = xs ++ a :: ys →
          (tblGet c' a).toNat * share len a = prevSum prev + shares len xs ∧
            (tblGet c' a).toNat < 2 ^ (tblGet len a).toNat := by
  intro os
  induction os with
  | nil =>
    intro prev c _ _ _ hP
    right
    exact ⟨c, rfl, by simpa using hP, fun _ _ => rfl, fun xs a ys h => by simp at h⟩
  | cons s rest ih =>
    intro prev c hsort hnd hprev hP
    have hs := List.pairwise_cons.mp hsort
    have hn := List.nodup_cons.mp hnd
    have hl := lenNat_le len s
    have hv := nextCode_mul prev (tblGet len s).toNat hl (fun p hp => hprev p hp s (by simp))
    by_cases hbig : 2 ^ (tblGet len s).toNat ≤ nextCode prev (tblGet len s).toNat
    · left
      refine ⟨by simp [assignLoop, hbig], ?_⟩
      have h1 : 2 ^ 255 ≤ prevSum prev := by
        rw [← hv, ← share_mul len s]
        exact Nat.mul_le_mul_right _ hbig
      have h2 := share_pos len s
      rw [shares_cons]
      omega
    · have hlt : nextCode prev (tblGet len s).toNat < 2 ^ (tblGet len s).toNat := by omega
      have hsum : prevSum (some (nextCode prev (tblGet len s).toNat, (tblGet len s).toNat))
          = prevSum prev + share len s := by
        have : (nextCode prev (tblGet len s).toNat + 1) * 2 ^ (255 - (tblGet len s).toNat)
            = prevSum prev + share len s := by
          rw [add_mul, hv, one_mul]
          rfl
        exact this
      have hP' : prevSum (some (nextCode prev (tblGet len s).toNat, (tblGet len s).toNat)) ≤ 2 ^ 255 := by
        have : (nextCode prev (tblGet len s).toNat + 1) * share len s
            ≤ 2 ^ (tblGet len s).toNat * share len s := Nat.mul_le_mul_right _ hlt
        rw [share_mul] at this
        exact this
      have hfit : (BitVec.ofNat 255 (nextCode prev (tblGet len s).toNat)).toNat
          = nextCode prev (tblGet len s).toNat := by
        rw [BitVec.toNat_ofNat]
        apply Nat.mod_eq_of_lt
        exact lt_of_lt_of_le hlt (Nat.pow_le_pow_right (by omega) hl)
      have hunf : assignLoop len prev (s :: rest) c =
          assignLoop len (some (nextCode prev (tblGet len s).toNat, (tblGet len s).toNat)) rest
            (tblSet c s (BitVec.ofNat 255 (nextCode prev (tblGet len s).toNat))) := by
        simp [assignLoop, hbig]
      rw [hunf, shares_cons]
      rcases ih (some (nextCode prev (tblGet len s).toNat, (tblGet len s).toNat))
          (tblSet c s (BitVec.ofNat 255 (nextCode prev (tblGet len s).toNat))) hs.2 hn.2
          (fun p hp a ha => by
            simp only [Option.some.injEq] at hp
            subst hp
            exact hs.1 a ha) hP' with ⟨h1, h2⟩ | ⟨c', h1, h2, h3, h4⟩
      · left
        exact ⟨h1, by omega⟩
      · right
        refine ⟨c', h1, by omega, ?_, ?_⟩
        · intro a ha
          rw [List.mem_cons, not_or] at ha
          rw [h3 a ha.2, tblGet_tblSet_ne _ _ ha.1]
        · intro xs a ys heq
          cases xs with
          | nil =>
            simp only [List.nil_append, List.cons.injEq] at heq
            obtain ⟨rfl, rfl⟩ := heq
            rw [h3 _ hn.1, tblGet_tblSet_self, hfit]
            exact ⟨by simpa [share] using hv, hlt⟩
          | cons x xs =>
            simp only [List.cons_append, List.cons.injEq] at heq
            obtain ⟨rfl, heq⟩ := heq
            obtain ⟨h5, h6⟩ := h4 xs a ys heq
            rw [hsum] at h5
            exact ⟨by rw [h5, shares_cons]; omega, h6⟩

/-- The assigner's table: every code against the Kraft sum before it (44_canonical.md R223). -/
theorem assignCodes_spec (len : Table Byte) :
    (assignCodes len = none ∧ 2 ^ 255 < kraft len) ∨
      ∃ c, assignCodes len = some c ∧ kraft len ≤ 2 ^ 255 ∧
        (∀ a, (tblGet len a).toNat = 0 → tblGet c a = 0#255) ∧
        ∀ xs a ys, canonOrder len = xs ++ a :: ys →
          (tblGet c a).toNat * share len a = shares len xs ∧
            (tblGet c a).toNat < 2 ^ (tblGet len a).toNat := by
  rw [kraft_eq_shares]
  unfold assignCodes
  have h := assignLoop_spec len (canonOrder len) none (tblFill 0#255) (canonOrder_length_sorted len)
    (canonOrder_nodup len) (fun p hp => by simp at hp) (by simp [prevSum])
  simp only [prevSum, Nat.zero_add] at h
  rcases h with h | ⟨c, h1, h2, h3, h4⟩
  · exact Or.inl h
  · refine Or.inr ⟨c, h1, h2, ?_, h4⟩
    intro a ha
    rw [h3 a (by rw [mem_canonOrder]; simpa using ha), tblGet_tblFill]

theorem assignCodes_none_iff (len : Table Byte) : assignCodes len = none ↔ 2 ^ 255 < kraft len := by
  rcases assignCodes_spec len with ⟨h1, h2⟩ | ⟨c, h1, h2, -⟩
  · exact ⟨fun _ => h2, fun _ => h1⟩
  · exact ⟨fun h => by rw [h1] at h; exact absurd h (by simp), fun h => absurd h (by omega)⟩

/-- "for every present symbol `s`, `CODE[s] < 2^LEN[s]`" (10_state.md R41); an absent symbol's code is 0. -/
theorem assignCodes_fits {len : Table Byte} {c : Table CodeValue} (h : assignCodes len = some c)
    (a : Symbol) : (tblGet c a).toNat < 2 ^ (tblGet len a).toNat := by
  rcases assignCodes_spec len with ⟨h1, -⟩ | ⟨c', h1, -, h3, h4⟩
  · simp [h1] at h
  · rw [h1, Option.some.injEq] at h
    subst h
    by_cases ha : (tblGet len a).toNat = 0
    · rw [h3 a ha, ha]
      simp
    · obtain ⟨xs, ys, hxy⟩ := List.append_of_mem (mem_canonOrder.mpr ha)
      exact (h4 xs a ys hxy).2

theorem bitsValue_bitsDown {w : Nat} (v : BitVec w) (k : Nat) :
    bitsValue (bitsDown v k) = v.toNat % 2 ^ k := by
  have foldl_add : ∀ (l : List Bool) (x : Nat),
      l.foldl (fun v b => 2 * v + b.toNat) x = x * 2 ^ l.length + bitsValue l := by
    intro l
    induction l with
    | nil => intro x; simp [bitsValue]
    | cons b l ih =>
      intro x
      have h1 := ih (2 * x + b.toNat)
      have h2 := ih (2 * 0 + b.toNat)
      simp only [List.foldl_cons, List.length_cons, bitsValue] at *
      rw [h1, h2, pow_succ]
      ring
  induction k with
  | zero => simp [bitsValue, Nat.mod_one]
  | succ k ih =>
    have h : bitsValue (bitsDown v (k + 1)) = (v.getLsbD k).toNat * 2 ^ k + bitsValue (bitsDown v k) := by
      have := foldl_add (bitsDown v k) (2 * 0 + (v.getLsbD k).toNat)
      rw [bitsDown_length] at this
      simpa [bitsValue] using this
    rw [h, ih, Nat.mod_pow_succ, ← BitVec.testBit_toNat, Nat.toNat_testBit]
    ring

/-- A codeword is the `L`-bit number its code value is (30_encoding.md R100). -/
theorem bitsValue_codewordIn {len : Table Byte} {c : Table CodeValue} (h : assignCodes len = some c)
    (a : Symbol) : bitsValue (codewordIn len c a) = (tblGet c a).toNat := by
  rw [codewordIn, bitsValue_bitsDown, Nat.mod_eq_of_lt (assignCodes_fits h a)]

theorem codewordIn_length (len : Table Byte) (c : Table CodeValue) (a : Symbol) :
    (codewordIn len c a).length = (tblGet len a).toNat := bitsDown_length _ _

theorem bitsValue_append_list (a b : List Bool) :
    bitsValue (a ++ b) = bitsValue a * 2 ^ b.length + bitsValue b := by
  induction b using List.reverseRecOn with
  | nil => simp [bitsValue]
  | append_singleton b x ih =>
    rw [← List.append_assoc, bitsValue_append, ih, bitsValue_append, List.length_append,
      List.length_singleton, pow_succ]
    ring

/-- The prefix property: "no codeword is a prefix of another and no two are equal" (44_canonical.md R224). -/
theorem codewords_prefix_free {len : Table Byte} {c : Table CodeValue} (h : assignCodes len = some c)
    {a b : Symbol} (ha : (tblGet len a).toNat ≠ 0) (hb : (tblGet len b).toNat ≠ 0)
    (hp : codewordIn len c a <+: codewordIn len c b) : a = b := by
  by_contra hne
  rcases assignCodes_spec len with ⟨h1, -⟩ | ⟨c', h1, -, h3, h4⟩
  · simp [h1] at h
  rw [h1, Option.some.injEq] at h
  subst h
  obtain ⟨rest, hrest⟩ := hp
  have hval := congrArg bitsValue hrest
  have hlen := congrArg List.length hrest
  rw [bitsValue_append_list, bitsValue_codewordIn h1, bitsValue_codewordIn h1] at hval
  rw [List.length_append, codewordIn_length, codewordIn_length] at hlen
  have hbr := bitsValue_lt rest
  have hlb := lenNat_le len b
  have hshare : share len a = 2 ^ rest.length * share len b := by
    unfold share
    rw [← pow_add]
    congr 1
    omega
  -- the justified values: `a`'s interval contains `b`'s
  have hlow : (tblGet c' a).toNat * share len a ≤ (tblGet c' b).toNat * share len b := by
    rw [hshare, ← mul_assoc]
    exact Nat.mul_le_mul_right _ (by omega)
  have hhigh : ((tblGet c' b).toNat + 1) * share len b ≤ ((tblGet c' a).toNat + 1) * share len a := by
    rw [hshare, ← mul_assoc]
    apply Nat.mul_le_mul_right
    rw [add_mul]
    omega
  obtain ⟨xs, ys, hxy⟩ := List.append_of_mem (mem_canonOrder.mpr ha)
  have hbm : b ∈ canonOrder len := mem_canonOrder.mpr hb
  rw [hxy, List.mem_append, List.mem_cons] at hbm
  obtain ⟨ha1, -⟩ := h4 xs a ys hxy
  have hpa := share_pos len a
  have hpb := share_pos len b
  rcases hbm with hbx | hbe | hby
  · -- `b` before `a`
    obtain ⟨us, vs, huv⟩ := List.append_of_mem hbx
    obtain ⟨hb1, -⟩ := h4 us b (vs ++ a :: ys) (by rw [hxy, huv]; simp)
    rw [huv, shares_append, shares_cons] at ha1
    omega
  · exact hne hbe.symm
  · -- `b` after `a`
    obtain ⟨us, vs, huv⟩ := List.append_of_mem hby
    obtain ⟨hb1, -⟩ := h4 (xs ++ a :: us) b vs (by rw [hxy, huv]; simp)
    rw [shares_append, shares_cons] at hb1
    rw [add_mul, add_mul] at hhigh
    omega

end Sys2Proof.Machine
end

