-- ==== Sys2Proof/Laws/State.lean ====
section
/-! SUPPORT. The fields of the state under each named update: what the update writes, and that every other field is
as before. One lemma for each update; `simp` uses each part of it, so no proof unfolds a record update. -/

namespace Sys2Proof.Machine

@[simp] theorem endOk_fields (s : State) :
    (endOk s).src = s.src ∧ (endOk s).mbCap = s.mbCap ∧ (endOk s).cmds = s.cmds ∧ (endOk s).status = .ok ∧
    (endOk s).fault = s.fault ∧ (endOk s).res = s.res ∧ (endOk s).resCnt = s.resCnt ∧
    (endOk s).htBuilt = s.htBuilt ∧ (endOk s).ccValid = s.ccValid ∧ (endOk s).trValid = s.trValid ∧
    (endOk s).mbFlushed = s.mbFlushed ∧ (endOk s).crcState = s.crcState ∧ (endOk s).bwAcc = s.bwAcc ∧
    (endOk s).bwCnt = s.bwCnt ∧ (endOk s).bwPad = s.bwPad ∧ (endOk s).sink = s.sink ∧
    (endOk s).brCur = s.brCur ∧ (endOk s).brRem = s.brRem ∧ (endOk s).srcPos = s.srcPos ∧
    (endOk s).mbBytes = s.mbBytes ∧ (endOk s).mbAcc = s.mbAcc ∧ (endOk s).mbCnt = s.mbCnt ∧
    (endOk s).mbLvb = s.mbLvb ∧ (endOk s).freq = s.freq ∧ (endOk s).htNodes = s.htNodes ∧
    (endOk s).htRoot = s.htRoot ∧ (endOk s).htNSym = s.htNSym ∧ (endOk s).len = s.len ∧
    (endOk s).code = s.code ∧ (endOk s).ccNSym = s.ccNSym ∧ (endOk s).trNodes = s.trNodes ∧
    (endOk s).tdState = s.tdState ∧ (endOk s).tdCur = s.tdCur ∧ (endOk s).tdCount = s.tdCount ∧
    (endOk s).tdSize = s.tdSize ∧ (endOk s).tdXcrc = s.tdXcrc ∧ (endOk s).dout = s.dout := by
  and_intros <;> rfl

@[simp] theorem endSignal_fields (s : State) :
    (endSignal s).src = s.src ∧ (endSignal s).mbCap = s.mbCap ∧ (endSignal s).cmds = s.cmds ∧
    (endSignal s).status = .noData ∧ (endSignal s).fault = s.fault ∧ (endSignal s).res = s.res ∧
    (endSignal s).resCnt = s.resCnt ∧ (endSignal s).htBuilt = s.htBuilt ∧ (endSignal s).ccValid = s.ccValid ∧
    (endSignal s).trValid = s.trValid ∧ (endSignal s).mbFlushed = s.mbFlushed ∧
    (endSignal s).crcState = s.crcState ∧ (endSignal s).bwAcc = s.bwAcc ∧ (endSignal s).bwCnt = s.bwCnt ∧
    (endSignal s).bwPad = s.bwPad ∧ (endSignal s).sink = s.sink ∧ (endSignal s).brCur = s.brCur ∧
    (endSignal s).brRem = s.brRem ∧ (endSignal s).srcPos = s.srcPos ∧ (endSignal s).mbBytes = s.mbBytes ∧
    (endSignal s).mbAcc = s.mbAcc ∧ (endSignal s).mbCnt = s.mbCnt ∧ (endSignal s).mbLvb = s.mbLvb ∧
    (endSignal s).freq = s.freq ∧ (endSignal s).htNodes = s.htNodes ∧ (endSignal s).htRoot = s.htRoot ∧
    (endSignal s).htNSym = s.htNSym ∧ (endSignal s).len = s.len ∧ (endSignal s).code = s.code ∧
    (endSignal s).ccNSym = s.ccNSym ∧ (endSignal s).trNodes = s.trNodes ∧ (endSignal s).tdState = s.tdState ∧
    (endSignal s).tdCur = s.tdCur ∧ (endSignal s).tdCount = s.tdCount ∧ (endSignal s).tdSize = s.tdSize ∧
    (endSignal s).tdXcrc = s.tdXcrc ∧ (endSignal s).dout = s.dout := by
  and_intros <;> rfl

@[simp] theorem endRefused_fields (c : Code) (s : State) :
    (endRefused c s).src = s.src ∧ (endRefused c s).mbCap = s.mbCap ∧ (endRefused c s).cmds = s.cmds ∧
    (endRefused c s).status = c ∧ (endRefused c s).fault = s.fault ∧ (endRefused c s).res = s.res ∧
    (endRefused c s).resCnt = s.resCnt ∧ (endRefused c s).htBuilt = s.htBuilt ∧
    (endRefused c s).ccValid = s.ccValid ∧ (endRefused c s).trValid = s.trValid ∧
    (endRefused c s).mbFlushed = s.mbFlushed ∧ (endRefused c s).crcState = s.crcState ∧
    (endRefused c s).bwAcc = s.bwAcc ∧ (endRefused c s).bwCnt = s.bwCnt ∧ (endRefused c s).bwPad = s.bwPad ∧
    (endRefused c s).sink = s.sink ∧ (endRefused c s).brCur = s.brCur ∧ (endRefused c s).brRem = s.brRem ∧
    (endRefused c s).srcPos = s.srcPos ∧ (endRefused c s).mbBytes = s.mbBytes ∧
    (endRefused c s).mbAcc = s.mbAcc ∧ (endRefused c s).mbCnt = s.mbCnt ∧ (endRefused c s).mbLvb = s.mbLvb ∧
    (endRefused c s).freq = s.freq ∧ (endRefused c s).htNodes = s.htNodes ∧
    (endRefused c s).htRoot = s.htRoot ∧ (endRefused c s).htNSym = s.htNSym ∧ (endRefused c s).len = s.len ∧
    (endRefused c s).code = s.code ∧ (endRefused c s).ccNSym = s.ccNSym ∧
    (endRefused c s).trNodes = s.trNodes ∧ (endRefused c s).tdState = s.tdState ∧
    (endRefused c s).tdCur = s.tdCur ∧ (endRefused c s).tdCount = s.tdCount ∧
    (endRefused c s).tdSize = s.tdSize ∧ (endRefused c s).tdXcrc = s.tdXcrc ∧ (endRefused c s).dout = s.dout := by
  and_intros <;> rfl

@[simp] theorem endFault_fields (c : Code) (s : State) :
    (endFault c s).src = s.src ∧ (endFault c s).mbCap = s.mbCap ∧ (endFault c s).cmds = s.cmds ∧
    (endFault c s).status = c ∧ (endFault c s).fault = (if s.fault = .ok then c else s.fault) ∧
    (endFault c s).res = s.res ∧ (endFault c s).resCnt = s.resCnt ∧ (endFault c s).htBuilt = s.htBuilt ∧
    (endFault c s).ccValid = s.ccValid ∧ (endFault c s).trValid = s.trValid ∧
    (endFault c s).mbFlushed = s.mbFlushed ∧ (endFault c s).crcState = s.crcState ∧
    (endFault c s).bwAcc = s.bwAcc ∧ (endFault c s).bwCnt = s.bwCnt ∧ (endFault c s).bwPad = s.bwPad ∧
    (endFault c s).sink = s.sink ∧ (endFault c s).brCur = s.brCur ∧ (endFault c s).brRem = s.brRem ∧
    (endFault c s).srcPos = s.srcPos ∧ (endFault c s).mbBytes = s.mbBytes ∧ (endFault c s).mbAcc = s.mbAcc ∧
    (endFault c s).mbCnt = s.mbCnt ∧ (endFault c s).mbLvb = s.mbLvb ∧ (endFault c s).freq = s.freq ∧
    (endFault c s).htNodes = s.htNodes ∧ (endFault c s).htRoot = s.htRoot ∧
    (endFault c s).htNSym = s.htNSym ∧ (endFault c s).len = s.len ∧ (endFault c s).code = s.code ∧
    (endFault c s).ccNSym = s.ccNSym ∧ (endFault c s).trNodes = s.trNodes ∧
    (endFault c s).tdState = s.tdState ∧ (endFault c s).tdCur = s.tdCur ∧
    (endFault c s).tdCount = s.tdCount ∧ (endFault c s).tdSize = s.tdSize ∧
    (endFault c s).tdXcrc = s.tdXcrc ∧ (endFault c s).dout = s.dout := by
  and_intros <;> rfl

@[simp] theorem clearFault_fields (s : State) :
    (clearFault s).src = s.src ∧ (clearFault s).mbCap = s.mbCap ∧ (clearFault s).cmds = s.cmds ∧
    (clearFault s).status = s.status ∧ (clearFault s).fault = .ok ∧ (clearFault s).res = s.res ∧
    (clearFault s).resCnt = s.resCnt ∧ (clearFault s).htBuilt = s.htBuilt ∧
    (clearFault s).ccValid = s.ccValid ∧ (clearFault s).trValid = s.trValid ∧
    (clearFault s).mbFlushed = s.mbFlushed ∧ (clearFault s).crcState = s.crcState ∧
    (clearFault s).bwAcc = s.bwAcc ∧ (clearFault s).bwCnt = s.bwCnt ∧ (clearFault s).bwPad = s.bwPad ∧
    (clearFault s).sink = s.sink ∧ (clearFault s).brCur = s.brCur ∧ (clearFault s).brRem = s.brRem ∧
    (clearFault s).srcPos = s.srcPos ∧ (clearFault s).mbBytes = s.mbBytes ∧ (clearFault s).mbAcc = s.mbAcc ∧
    (clearFault s).mbCnt = s.mbCnt ∧ (clearFault s).mbLvb = s.mbLvb ∧ (clearFault s).freq = s.freq ∧
    (clearFault s).htNodes = s.htNodes ∧ (clearFault s).htRoot = s.htRoot ∧
    (clearFault s).htNSym = s.htNSym ∧ (clearFault s).len = s.len ∧ (clearFault s).code = s.code ∧
    (clearFault s).ccNSym = s.ccNSym ∧ (clearFault s).trNodes = s.trNodes ∧
    (clearFault s).tdState = s.tdState ∧ (clearFault s).tdCur = s.tdCur ∧
    (clearFault s).tdCount = s.tdCount ∧ (clearFault s).tdSize = s.tdSize ∧
    (clearFault s).tdXcrc = s.tdXcrc ∧ (clearFault s).dout = s.dout := by
  and_intros <;> rfl

@[simp] theorem illegalWord_fields (s : State) :
    (illegalWord s).src = s.src ∧ (illegalWord s).mbCap = s.mbCap ∧ (illegalWord s).cmds = s.cmds ∧
    (illegalWord s).status = .illegal ∧ (illegalWord s).fault = s.fault ∧ (illegalWord s).res = s.res ∧
    (illegalWord s).resCnt = s.resCnt ∧ (illegalWord s).htBuilt = s.htBuilt ∧
    (illegalWord s).ccValid = s.ccValid ∧ (illegalWord s).trValid = s.trValid ∧
    (illegalWord s).mbFlushed = s.mbFlushed ∧ (illegalWord s).crcState = s.crcState ∧
    (illegalWord s).bwAcc = s.bwAcc ∧ (illegalWord s).bwCnt = s.bwCnt ∧ (illegalWord s).bwPad = s.bwPad ∧
    (illegalWord s).sink = s.sink ∧ (illegalWord s).brCur = s.brCur ∧ (illegalWord s).brRem = s.brRem ∧
    (illegalWord s).srcPos = s.srcPos ∧ (illegalWord s).mbBytes = s.mbBytes ∧
    (illegalWord s).mbAcc = s.mbAcc ∧ (illegalWord s).mbCnt = s.mbCnt ∧ (illegalWord s).mbLvb = s.mbLvb ∧
    (illegalWord s).freq = s.freq ∧ (illegalWord s).htNodes = s.htNodes ∧ (illegalWord s).htRoot = s.htRoot ∧
    (illegalWord s).htNSym = s.htNSym ∧ (illegalWord s).len = s.len ∧ (illegalWord s).code = s.code ∧
    (illegalWord s).ccNSym = s.ccNSym ∧ (illegalWord s).trNodes = s.trNodes ∧
    (illegalWord s).tdState = s.tdState ∧ (illegalWord s).tdCur = s.tdCur ∧
    (illegalWord s).tdCount = s.tdCount ∧ (illegalWord s).tdSize = s.tdSize ∧
    (illegalWord s).tdXcrc = s.tdXcrc ∧ (illegalWord s).dout = s.dout := by
  and_intros <;> rfl

@[simp] theorem issueCmd_fields (c : Cmd) (s : State) :
    (issueCmd c s).src = s.src ∧ (issueCmd c s).mbCap = s.mbCap ∧ (issueCmd c s).cmds = c :: s.cmds ∧
    (issueCmd c s).status = s.status ∧ (issueCmd c s).fault = s.fault ∧ (issueCmd c s).res = s.res ∧
    (issueCmd c s).resCnt = s.resCnt ∧ (issueCmd c s).htBuilt = s.htBuilt ∧
    (issueCmd c s).ccValid = s.ccValid ∧ (issueCmd c s).trValid = s.trValid ∧
    (issueCmd c s).mbFlushed = s.mbFlushed ∧ (issueCmd c s).crcState = s.crcState ∧
    (issueCmd c s).bwAcc = s.bwAcc ∧ (issueCmd c s).bwCnt = s.bwCnt ∧ (issueCmd c s).bwPad = s.bwPad ∧
    (issueCmd c s).sink = s.sink ∧ (issueCmd c s).brCur = s.brCur ∧ (issueCmd c s).brRem = s.brRem ∧
    (issueCmd c s).srcPos = s.srcPos ∧ (issueCmd c s).mbBytes = s.mbBytes ∧ (issueCmd c s).mbAcc = s.mbAcc ∧
    (issueCmd c s).mbCnt = s.mbCnt ∧ (issueCmd c s).mbLvb = s.mbLvb ∧ (issueCmd c s).freq = s.freq ∧
    (issueCmd c s).htNodes = s.htNodes ∧ (issueCmd c s).htRoot = s.htRoot ∧
    (issueCmd c s).htNSym = s.htNSym ∧ (issueCmd c s).len = s.len ∧ (issueCmd c s).code = s.code ∧
    (issueCmd c s).ccNSym = s.ccNSym ∧ (issueCmd c s).trNodes = s.trNodes ∧
    (issueCmd c s).tdState = s.tdState ∧ (issueCmd c s).tdCur = s.tdCur ∧
    (issueCmd c s).tdCount = s.tdCount ∧ (issueCmd c s).tdSize = s.tdSize ∧
    (issueCmd c s).tdXcrc = s.tdXcrc ∧ (issueCmd c s).dout = s.dout := by
  and_intros <;> rfl

@[simp] theorem clearTree_fields (s : State) :
    (clearTree s).src = s.src ∧ (clearTree s).mbCap = s.mbCap ∧ (clearTree s).cmds = s.cmds ∧
    (clearTree s).status = s.status ∧ (clearTree s).fault = s.fault ∧ (clearTree s).res = s.res ∧
    (clearTree s).resCnt = s.resCnt ∧ (clearTree s).htBuilt = false ∧ (clearTree s).ccValid = s.ccValid ∧
    (clearTree s).trValid = s.trValid ∧ (clearTree s).mbFlushed = s.mbFlushed ∧
    (clearTree s).crcState = s.crcState ∧ (clearTree s).bwAcc = s.bwAcc ∧ (clearTree s).bwCnt = s.bwCnt ∧
    (clearTree s).bwPad = s.bwPad ∧ (clearTree s).sink = s.sink ∧ (clearTree s).brCur = s.brCur ∧
    (clearTree s).brRem = s.brRem ∧ (clearTree s).srcPos = s.srcPos ∧ (clearTree s).mbBytes = s.mbBytes ∧
    (clearTree s).mbAcc = s.mbAcc ∧ (clearTree s).mbCnt = s.mbCnt ∧ (clearTree s).mbLvb = s.mbLvb ∧
    (clearTree s).freq = s.freq ∧ (clearTree s).htNodes = s.htNodes ∧ (clearTree s).htRoot = s.htRoot ∧
    (clearTree s).htNSym = s.htNSym ∧ (clearTree s).len = s.len ∧ (clearTree s).code = s.code ∧
    (clearTree s).ccNSym = s.ccNSym ∧ (clearTree s).trNodes = s.trNodes ∧ (clearTree s).tdState = s.tdState ∧
    (clearTree s).tdCur = s.tdCur ∧ (clearTree s).tdCount = s.tdCount ∧ (clearTree s).tdSize = s.tdSize ∧
    (clearTree s).tdXcrc = s.tdXcrc ∧ (clearTree s).dout = s.dout := by
  and_intros <;> rfl

@[simp] theorem clearCodes_fields (s : State) :
    (clearCodes s).src = s.src ∧ (clearCodes s).mbCap = s.mbCap ∧ (clearCodes s).cmds = s.cmds ∧
    (clearCodes s).status = s.status ∧ (clearCodes s).fault = s.fault ∧ (clearCodes s).res = s.res ∧
    (clearCodes s).resCnt = s.resCnt ∧ (clearCodes s).htBuilt = s.htBuilt ∧ (clearCodes s).ccValid = false ∧
    (clearCodes s).trValid = false ∧ (clearCodes s).mbFlushed = s.mbFlushed ∧
    (clearCodes s).crcState = s.crcState ∧ (clearCodes s).bwAcc = s.bwAcc ∧ (clearCodes s).bwCnt = s.bwCnt ∧
    (clearCodes s).bwPad = s.bwPad ∧ (clearCodes s).sink = s.sink ∧ (clearCodes s).brCur = s.brCur ∧
    (clearCodes s).brRem = s.brRem ∧ (clearCodes s).srcPos = s.srcPos ∧ (clearCodes s).mbBytes = s.mbBytes ∧
    (clearCodes s).mbAcc = s.mbAcc ∧ (clearCodes s).mbCnt = s.mbCnt ∧ (clearCodes s).mbLvb = s.mbLvb ∧
    (clearCodes s).freq = s.freq ∧ (clearCodes s).htNodes = s.htNodes ∧ (clearCodes s).htRoot = s.htRoot ∧
    (clearCodes s).htNSym = s.htNSym ∧ (clearCodes s).len = s.len ∧ (clearCodes s).code = s.code ∧
    (clearCodes s).ccNSym = s.ccNSym ∧ (clearCodes s).trNodes = s.trNodes ∧
    (clearCodes s).tdState = s.tdState ∧ (clearCodes s).tdCur = s.tdCur ∧
    (clearCodes s).tdCount = s.tdCount ∧ (clearCodes s).tdSize = s.tdSize ∧
    (clearCodes s).tdXcrc = s.tdXcrc ∧ (clearCodes s).dout = s.dout := by
  and_intros <;> rfl

@[simp] theorem brMoveTo_fields (p : Word64) (s : State) :
    (brMoveTo p s).src = s.src ∧ (brMoveTo p s).mbCap = s.mbCap ∧ (brMoveTo p s).cmds = s.cmds ∧
    (brMoveTo p s).status = s.status ∧ (brMoveTo p s).fault = s.fault ∧ (brMoveTo p s).res = s.res ∧
    (brMoveTo p s).resCnt = s.resCnt ∧ (brMoveTo p s).htBuilt = s.htBuilt ∧
    (brMoveTo p s).ccValid = s.ccValid ∧ (brMoveTo p s).trValid = s.trValid ∧
    (brMoveTo p s).mbFlushed = s.mbFlushed ∧ (brMoveTo p s).crcState = s.crcState ∧
    (brMoveTo p s).bwAcc = s.bwAcc ∧ (brMoveTo p s).bwCnt = s.bwCnt ∧ (brMoveTo p s).bwPad = s.bwPad ∧
    (brMoveTo p s).sink = s.sink ∧ (brMoveTo p s).brCur = 0#8 ∧ (brMoveTo p s).brRem = 0 ∧
    (brMoveTo p s).srcPos = p ∧ (brMoveTo p s).mbBytes = s.mbBytes ∧ (brMoveTo p s).mbAcc = s.mbAcc ∧
    (brMoveTo p s).mbCnt = s.mbCnt ∧ (brMoveTo p s).mbLvb = s.mbLvb ∧ (brMoveTo p s).freq = s.freq ∧
    (brMoveTo p s).htNodes = s.htNodes ∧ (brMoveTo p s).htRoot = s.htRoot ∧
    (brMoveTo p s).htNSym = s.htNSym ∧ (brMoveTo p s).len = s.len ∧ (brMoveTo p s).code = s.code ∧
    (brMoveTo p s).ccNSym = s.ccNSym ∧ (brMoveTo p s).trNodes = s.trNodes ∧
    (brMoveTo p s).tdState = s.tdState ∧ (brMoveTo p s).tdCur = s.tdCur ∧
    (brMoveTo p s).tdCount = s.tdCount ∧ (brMoveTo p s).tdSize = s.tdSize ∧
    (brMoveTo p s).tdXcrc = s.tdXcrc ∧ (brMoveTo p s).dout = s.dout := by
  and_intros <;> rfl

@[simp] theorem tdEmit_fields (b : Byte) (s : State) :
    (tdEmit b s).src = s.src ∧ (tdEmit b s).mbCap = s.mbCap ∧ (tdEmit b s).cmds = s.cmds ∧
    (tdEmit b s).status = s.status ∧ (tdEmit b s).fault = s.fault ∧ (tdEmit b s).res = s.res ∧
    (tdEmit b s).resCnt = s.resCnt ∧ (tdEmit b s).htBuilt = s.htBuilt ∧ (tdEmit b s).ccValid = s.ccValid ∧
    (tdEmit b s).trValid = s.trValid ∧ (tdEmit b s).mbFlushed = s.mbFlushed ∧
    (tdEmit b s).crcState = crcByte s.crcState b ∧ (tdEmit b s).bwAcc = s.bwAcc ∧
    (tdEmit b s).bwCnt = s.bwCnt ∧ (tdEmit b s).bwPad = s.bwPad ∧ (tdEmit b s).sink = s.sink ∧
    (tdEmit b s).brCur = s.brCur ∧ (tdEmit b s).brRem = s.brRem ∧ (tdEmit b s).srcPos = s.srcPos ∧
    (tdEmit b s).mbBytes = s.mbBytes ∧ (tdEmit b s).mbAcc = s.mbAcc ∧ (tdEmit b s).mbCnt = s.mbCnt ∧
    (tdEmit b s).mbLvb = s.mbLvb ∧ (tdEmit b s).freq = s.freq ∧ (tdEmit b s).htNodes = s.htNodes ∧
    (tdEmit b s).htRoot = s.htRoot ∧ (tdEmit b s).htNSym = s.htNSym ∧ (tdEmit b s).len = s.len ∧
    (tdEmit b s).code = s.code ∧ (tdEmit b s).ccNSym = s.ccNSym ∧ (tdEmit b s).trNodes = s.trNodes ∧
    (tdEmit b s).tdState = s.tdState ∧ (tdEmit b s).tdCur = 0 ∧ (tdEmit b s).tdCount = s.tdCount + 1#64 ∧
    (tdEmit b s).tdSize = s.tdSize ∧ (tdEmit b s).tdXcrc = s.tdXcrc ∧ (tdEmit b s).dout = s.dout ++ [b] := by
  and_intros <;> rfl

@[simp] theorem tdFinish_fields (s : State) :
    (tdFinish s).src = s.src ∧ (tdFinish s).mbCap = s.mbCap ∧ (tdFinish s).cmds = s.cmds ∧
    (tdFinish s).status = s.status ∧ (tdFinish s).fault = s.fault ∧ (tdFinish s).res = s.res ∧
    (tdFinish s).resCnt = s.resCnt ∧ (tdFinish s).htBuilt = s.htBuilt ∧ (tdFinish s).ccValid = s.ccValid ∧
    (tdFinish s).trValid = s.trValid ∧ (tdFinish s).mbFlushed = s.mbFlushed ∧
    (tdFinish s).crcState = s.crcState ∧ (tdFinish s).bwAcc = s.bwAcc ∧ (tdFinish s).bwCnt = s.bwCnt ∧
    (tdFinish s).bwPad = s.bwPad ∧ (tdFinish s).sink = s.sink ∧ (tdFinish s).brCur = s.brCur ∧
    (tdFinish s).brRem = s.brRem ∧ (tdFinish s).srcPos = s.srcPos ∧ (tdFinish s).mbBytes = s.mbBytes ∧
    (tdFinish s).mbAcc = s.mbAcc ∧ (tdFinish s).mbCnt = s.mbCnt ∧ (tdFinish s).mbLvb = s.mbLvb ∧
    (tdFinish s).freq = s.freq ∧ (tdFinish s).htNodes = s.htNodes ∧ (tdFinish s).htRoot = s.htRoot ∧
    (tdFinish s).htNSym = s.htNSym ∧ (tdFinish s).len = s.len ∧ (tdFinish s).code = s.code ∧
    (tdFinish s).ccNSym = s.ccNSym ∧ (tdFinish s).trNodes = s.trNodes ∧
    (tdFinish s).tdState = (if crcFinal s.crcState = s.tdXcrc then .done else .failed) ∧
    (tdFinish s).tdCur = s.tdCur ∧ (tdFinish s).tdCount = s.tdCount ∧ (tdFinish s).tdSize = s.tdSize ∧
    (tdFinish s).tdXcrc = s.tdXcrc ∧ (tdFinish s).dout = s.dout := by
  and_intros <;> rfl

@[simp] theorem resetBlock_fields (s : State) :
    (resetBlock s).src = s.src ∧ (resetBlock s).mbCap = s.mbCap ∧ (resetBlock s).cmds = s.cmds ∧
    (resetBlock s).status = State.reset.status ∧ (resetBlock s).fault = State.reset.fault ∧
    (resetBlock s).res = State.reset.res ∧ (resetBlock s).resCnt = State.reset.resCnt ∧
    (resetBlock s).htBuilt = State.reset.htBuilt ∧ (resetBlock s).ccValid = State.reset.ccValid ∧
    (resetBlock s).trValid = State.reset.trValid ∧ (resetBlock s).mbFlushed = State.reset.mbFlushed ∧
    (resetBlock s).crcState = State.reset.crcState ∧ (resetBlock s).bwAcc = State.reset.bwAcc ∧
    (resetBlock s).bwCnt = State.reset.bwCnt ∧ (resetBlock s).bwPad = State.reset.bwPad ∧
    (resetBlock s).sink = State.reset.sink ∧ (resetBlock s).brCur = State.reset.brCur ∧
    (resetBlock s).brRem = State.reset.brRem ∧ (resetBlock s).srcPos = State.reset.srcPos ∧
    (resetBlock s).mbBytes = State.reset.mbBytes ∧ (resetBlock s).mbAcc = State.reset.mbAcc ∧
    (resetBlock s).mbCnt = State.reset.mbCnt ∧ (resetBlock s).mbLvb = State.reset.mbLvb ∧
    (resetBlock s).freq = State.reset.freq ∧ (resetBlock s).htNodes = State.reset.htNodes ∧
    (resetBlock s).htRoot = State.reset.htRoot ∧ (resetBlock s).htNSym = State.reset.htNSym ∧
    (resetBlock s).len = State.reset.len ∧ (resetBlock s).code = State.reset.code ∧
    (resetBlock s).ccNSym = State.reset.ccNSym ∧ (resetBlock s).trNodes = State.reset.trNodes ∧
    (resetBlock s).tdState = State.reset.tdState ∧ (resetBlock s).tdCur = State.reset.tdCur ∧
    (resetBlock s).tdCount = State.reset.tdCount ∧ (resetBlock s).tdSize = State.reset.tdSize ∧
    (resetBlock s).tdXcrc = State.reset.tdXcrc ∧ (resetBlock s).dout = State.reset.dout := by
  and_intros <;> rfl

end Sys2Proof.Machine
end

