-- ==== Sys2Proof/Laws/Streams.lean ====
section
/-! SUPPORT. What each shared operation of the writer, the reader and the in-memory buffer does: one lemma for each. -/

namespace Sys2Proof.Machine

open Sys2Proof

/-! ### Writer -/

/-- Two updates of the writer's registers, one after the other, are one. -/
theorem writer_frame_trans {s t u : State}
    (h1 : t = { s with bwAcc := t.bwAcc, bwCnt := t.bwCnt, sink := t.sink })
    (h2 : u = { t with bwAcc := u.bwAcc, bwCnt := u.bwCnt, sink := u.sink }) :
    u = { s with bwAcc := u.bwAcc, bwCnt := u.bwCnt, sink := u.sink } :=
  h2.trans (by rw [h1])

/-- `bw_put` touches the accumulator, the count and the sink (42_bitstream.md R139). -/
theorem bwPut_frame (s : State) (b : Bool) :
    bwPut s b =
      { s with bwAcc := (bwPut s b).bwAcc, bwCnt := (bwPut s b).bwCnt, sink := (bwPut s b).sink } := by
  unfold bwPut
  split <;> rfl

theorem fin8_succ_val (c : Fin 8) (h : c ≠ 7) : (c + 1).val = c.val + 1 := by
  revert h
  revert c
  decide

theorem fin8_le_six (c : Fin 8) (h : c ≠ 7) : c.val ≤ 6 := by
  revert h
  revert c
  decide

/-- `bw_put` appends its bit (20_memory.md R61). -/
theorem writerBits_bwPut (s : State) (b : Bool) : writerBits (bwPut s b) = writerBits s ++ [b] := by
  unfold bwPut writerBits
  split
  next h =>
    have h7 : s.bwCnt.val = 7 := by rw [h]; rfl
    rw [streamBits_append, streamBits_cons, streamBits_nil, h7, bitsDown_shiftIn _ _ 7 (by omega)]
    simp
  next h =>
    have := fin8_le_six _ h
    simp only [fin8_succ_val _ h]
    rw [bitsDown_shiftIn _ _ _ (by omega), List.append_assoc]

theorem writerOk_bwPut {s : State} (h : WriterOk s) (b : Bool) : WriterOk (bwPut s b) := by
  unfold WriterOk at *
  unfold bwPut
  split
  · simp
  next h7 =>
    have := fin8_le_six _ h7
    simp only [fin8_succ_val _ h7]
    exact shiftIn_lt _ _ _ (by omega) h

/-- A sequence of puts appends its bits and touches what one put touches (42_bitstream.md R158). -/
theorem bwPutAll_spec (s : State) (bits : List Bool) :
    writerBits (bwPutAll s bits) = writerBits s ++ bits ∧
      bwPutAll s bits = { s with
        bwAcc := (bwPutAll s bits).bwAcc
        bwCnt := (bwPutAll s bits).bwCnt
        sink := (bwPutAll s bits).sink } ∧
      s.sink <+: (bwPutAll s bits).sink ∧
      (WriterOk s → WriterOk (bwPutAll s bits)) := by
  induction bits generalizing s with
  | nil => exact ⟨by simp [bwPutAll], rfl, List.prefix_rfl, id⟩
  | cons b bits ih =>
    have hstep : bwPutAll s (b :: bits) = bwPutAll (bwPut s b) bits := rfl
    obtain ⟨h1, h2, h3, h4⟩ := ih (bwPut s b)
    rw [hstep]
    refine ⟨?_, ?_, ?_, fun h => h4 (writerOk_bwPut h b)⟩
    · rw [h1, writerBits_bwPut]
      simp
    · exact writer_frame_trans (bwPut_frame s b) h2
    · refine List.IsPrefix.trans ?_ h3
      unfold bwPut
      split
      · exact List.prefix_append _ _
      · exact List.prefix_rfl

theorem bwPutAll_append (s : State) (a b : List Bool) :
    bwPutAll s (a ++ b) = bwPutAll (bwPutAll s a) b := by
  simp [bwPutAll]

/-- The sink and the count are functions of the bits written: a byte per eight bits, the rest pending
(10_state.md R29). -/
theorem writer_of_bits (s : State) :
    s.bwCnt.val = (writerBits s).length % 8 ∧ s.sink.length = (writerBits s).length / 8 := by
  have h : (writerBits s).length = 8 * s.sink.length + s.bwCnt.val := by
    simp [writerBits]
  have := s.bwCnt.isLt
  omega

/-- Two writers that hold the same bits hold the same sink, count and pending bits. -/
theorem writer_injective {s t : State} (h : writerBits s = writerBits t) :
    s.sink = t.sink ∧ s.bwCnt = t.bwCnt ∧
      bitsDown s.bwAcc s.bwCnt.val = bitsDown t.bwAcc t.bwCnt.val := by
  obtain ⟨hs1, hs2⟩ := writer_of_bits s
  obtain ⟨ht1, ht2⟩ := writer_of_bits t
  have hlen : (streamBits s.sink).length = (streamBits t.sink).length := by
    simp only [streamBits_length]
    rw [hs2, ht2, h]
  obtain ⟨h1, h2⟩ := List.append_inj h hlen
  exact ⟨streamBits_injective h1, Fin.ext (by rw [hs1, ht1, h]), h2⟩

/-! ### Reader -/

/-- Two updates of the reader's registers, one after the other, are one. -/
theorem reader_frame_trans {s t u : State}
    (h1 : t = { s with brCur := t.brCur, brRem := t.brRem, srcPos := t.srcPos })
    (h2 : u = { t with brCur := u.brCur, brRem := u.brRem, srcPos := u.srcPos }) :
    u = { s with brCur := u.brCur, brRem := u.brRem, srcPos := u.srcPos } :=
  h2.trans (by rw [h1])

theorem fin9_pred_val (r : Fin 9) (h : r ≠ 0) : (r - 1).val = r.val - 1 := by
  revert h
  revert r
  decide

theorem fin9_pos (r : Fin 9) (h : r ≠ 0) : 1 ≤ r.val := by
  revert h
  revert r
  decide

/-- `brTake` delivers the first unread bit of the current byte. -/
theorem brTake_bits (s : State) (h : s.brRem ≠ 0) :
    bitsDown s.brCur s.brRem.val =
      s.brCur.getLsbD (s.brRem.val - 1) :: bitsDown s.brCur (s.brRem - 1).val := by
  have h1 := fin9_pos _ h
  rw [fin9_pred_val _ h]
  obtain ⟨k, hk⟩ : ∃ k, s.brRem.val = k + 1 := ⟨s.brRem.val - 1, by omega⟩
  rw [hk]
  simp

/-- What `br_get()` does inside `SRC`: at the end of the data nothing, otherwise it delivers the first unread bit
(42_bitstream.md R145). -/
theorem brGet_spec {s : State} (h : ReaderOk s) :
    (readerBits s = [] ∧ brGet s = .noData) ∨
      ∃ b t, brGet s = .bit b t ∧ readerBits s = b :: readerBits t ∧ ReaderOk t ∧
        t = { s with brCur := t.brCur, brRem := t.brRem, srcPos := t.srcPos } ∧
        t.brRem.val = (if s.brRem = 0 then 8 else s.brRem.val) - 1 ∧
        t.srcPos.toNat = (if s.brRem = 0 then s.srcPos.toNat + 1 else s.srcPos.toNat) := by
  obtain ⟨hpos, hlen⟩ := h
  unfold brGet
  by_cases h0 : s.brRem = 0
  · by_cases hend : s.srcPos.toNat = s.src.length
    · left
      simp [h0, hend, readerBits]
    · right
      have hlt : s.srcPos.toNat < s.src.length := by omega
      have hget : s.src[s.srcPos.toNat]? = some s.src[s.srcPos.toNat] := List.getElem?_eq_getElem hlt
      have hadd : (s.srcPos + 1#64).toNat = s.srcPos.toNat + 1 := by
        rw [BitVec.toNat_add]
        simp
        omega
      refine ⟨_, _, by simp only [h0, hend, hget, if_true, if_false]; rfl, ?_, ?_, rfl, ?_, ?_⟩
      · have hdrop : s.src.drop s.srcPos.toNat = s.src[s.srcPos.toNat] :: s.src.drop (s.srcPos.toNat + 1) :=
          List.drop_eq_getElem_cons hlt
        simp only [readerBits, h0]
        rw [hdrop, streamBits_cons, hadd]
        rfl
      · exact ⟨by simp only; rw [hadd]; omega, hlen⟩
      · simp [h0]
      · simp [h0, hadd]
  · right
    refine ⟨s.brCur.getLsbD (s.brRem.val - 1), { s with brRem := s.brRem - 1 },
      by simp only [h0, if_false]; rfl, ?_, ⟨hpos, hlen⟩, rfl, ?_, ?_⟩
    · simp only [readerBits]
      rw [brTake_bits s h0]
      rfl
    · simp only [h0, if_false]
      exact fin9_pred_val _ h0
    · simp [h0]

/-- `br_get()` answers a bit exactly as the unread bits say. -/
theorem brGet_nil {s : State} (h : ReaderOk s) (hb : readerBits s = []) : brGet s = .noData := by
  rcases brGet_spec h with ⟨-, h'⟩ | ⟨b, t, -, h', -⟩
  · exact h'
  · simp [hb] at h'

theorem brGet_cons {s : State} (h : ReaderOk s) {b : Bool} {bs : List Bool} (hb : readerBits s = b :: bs) :
    ∃ t, brGet s = .bit b t ∧ readerBits t = bs ∧ ReaderOk t ∧
      t = { s with brCur := t.brCur, brRem := t.brRem, srcPos := t.srcPos } ∧
      t.brRem.val = (if s.brRem = 0 then 8 else s.brRem.val) - 1 ∧
      t.srcPos.toNat = (if s.brRem = 0 then s.srcPos.toNat + 1 else s.srcPos.toNat) := by
  rcases brGet_spec h with ⟨h', -⟩ | ⟨b', t, h1, h2, h3⟩
  · simp [hb] at h'
  · rw [hb] at h2
    simp only [List.cons.injEq] at h2
    obtain ⟨rfl, rfl⟩ := h2
    exact ⟨t, h1, rfl, h3⟩

/-- The loop of `BR.GETN` reads the first bits there are, at most `n` (42_bitstream.md R148). -/
theorem brGetMany_spec (n : Nat) : ∀ (v k : Nat) (s : State), ReaderOk s →
    ∃ t, brGetMany n v k s =
        .got ((readerBits s |>.take n).foldl (fun v b => 2 * v + b.toNat) v)
          (k + min n (readerBits s).length) t ∧
      readerBits t = (readerBits s).drop n ∧ ReaderOk t ∧
      t = { s with brCur := t.brCur, brRem := t.brRem, srcPos := t.srcPos } := by
  induction n with
  | zero => intro v k s h; exact ⟨s, by simp [brGetMany], by simp, h, rfl⟩
  | succ n ih =>
    intro v k s h
    rcases hb : readerBits s with _ | ⟨b, bs⟩
    · refine ⟨s, ?_, by simp [hb], h, rfl⟩
      simp [brGetMany, brGet_nil h hb]
    · obtain ⟨t, hget, hbits, hok, hfr, -⟩ := brGet_cons h hb
      obtain ⟨u, hu, hub, huok, hufr⟩ := ih (2 * v + b.toNat) (k + 1) t hok
      refine ⟨u, ?_, by rw [hub, hbits]; simp, huok, ?_⟩
      · simp only [brGetMany, hget, hu, hbits, List.take_succ_cons, List.foldl_cons, List.length_cons]
        congr 1
        omega
      · exact reader_frame_trans hfr hufr

/-! ### In-memory buffer -/

/-- Two updates of the buffer's registers, one after the other, are one. -/
theorem buffer_frame_trans {s t u : State}
    (h1 : t = { s with mbAcc := t.mbAcc, mbCnt := t.mbCnt, mbBytes := t.mbBytes })
    (h2 : u = { t with mbAcc := u.mbAcc, mbCnt := u.mbCnt, mbBytes := u.mbBytes }) :
    u = { s with mbAcc := u.mbAcc, mbCnt := u.mbCnt, mbBytes := u.mbBytes } :=
  h2.trans (by rw [h1])

/-- `mb_put` touches the accumulator, the count and the bytes (42_bitstream.md R154). -/
theorem mbPut_frame (s : State) (b : Bool) :
    mbPut s b =
      { s with mbAcc := (mbPut s b).mbAcc, mbCnt := (mbPut s b).mbCnt, mbBytes := (mbPut s b).mbBytes } := by
  unfold mbPut
  split <;> rfl

theorem bufferBits_mbPut (s : State) (b : Bool) : bufferBits (mbPut s b) = bufferBits s ++ [b] := by
  unfold mbPut bufferBits
  split
  next h =>
    have h7 : s.mbCnt.val = 7 := by rw [h]; rfl
    rw [streamBits_append, streamBits_cons, streamBits_nil, h7, bitsDown_shiftIn _ _ 7 (by omega)]
    simp
  next h =>
    have := fin8_le_six _ h
    simp only [fin8_succ_val _ h]
    rw [bitsDown_shiftIn _ _ _ (by omega), List.append_assoc]

theorem bufferBits_length (s : State) : (bufferBits s).length = 8 * s.mbBytes.length + s.mbCnt.val := by
  simp [bufferBits]

/-- The room is what the capacity leaves of the bits held (42_bitstream.md R154). -/
theorem mbRoom_eq {s : State} (hb : s.mbBytes.length ≤ s.mbCap) :
    mbRoom s = 8 * s.mbCap - (bufferBits s).length := by
  rw [bufferBits_length]
  unfold mbRoom
  omega

/-- `mb_put` keeps the buffer's invariants while there is room (42_bitstream.md R154). -/
theorem bufferOk_mbPut {s : State} (h : BufferOk s) (hf : s.mbFlushed = false) (hroom : 1 ≤ mbRoom s)
    (b : Bool) : BufferOk (mbPut s b) := by
  obtain ⟨hacc, hbytes, hslot, hunf, -, -, -⟩ := h
  have hr : 1 ≤ 8 * (s.mbCap - s.mbBytes.length) - s.mbCnt.val := hroom
  unfold mbPut
  split
  next h7 =>
    have h7' : s.mbCnt.val = 7 := by rw [h7]; rfl
    constructor <;> simp_all
  next h7 =>
    have h6 := fin8_le_six _ h7
    constructor <;> simp_all [fin8_succ_val]
    · exact shiftIn_lt _ _ _ (by omega) hacc
    · intro _
      omega

/-- A sequence of puts that fits appends its bits and keeps the invariants (44_canonical.md R226). -/
theorem mbPutAll_spec (bits : List Bool) : ∀ s : State,
    bufferBits (mbPutAll s bits) = bufferBits s ++ bits ∧
      mbPutAll s bits = { s with
        mbAcc := (mbPutAll s bits).mbAcc
        mbCnt := (mbPutAll s bits).mbCnt
        mbBytes := (mbPutAll s bits).mbBytes } ∧
      (BufferOk s → s.mbFlushed = false → bits.length ≤ mbRoom s → BufferOk (mbPutAll s bits)) := by
  induction bits with
  | nil => intro s; exact ⟨by simp [mbPutAll], rfl, fun h _ _ => h⟩
  | cons b bits ih =>
    intro s
    have hstep : mbPutAll s (b :: bits) = mbPutAll (mbPut s b) bits := rfl
    obtain ⟨h1, h2, h3⟩ := ih (mbPut s b)
    rw [hstep]
    refine ⟨?_, ?_, ?_⟩
    · rw [h1, bufferBits_mbPut]
      simp
    · exact buffer_frame_trans (mbPut_frame s b) h2
    · intro h hf hl
      rw [List.length_cons] at hl
      have hok := bufferOk_mbPut h hf (by omega) b
      have hf' : (mbPut s b).mbFlushed = false := by rw [mbPut_frame]; exact hf
      have hcap : (mbPut s b).mbCap = s.mbCap := by rw [mbPut_frame]
      refine h3 hok hf' ?_
      rw [mbRoom_eq hok.bytes, bufferBits_mbPut, hcap]
      rw [mbRoom_eq h.bytes] at hl
      simp
      omega

theorem mbPutAll_append (s : State) (a b : List Bool) :
    mbPutAll s (a ++ b) = mbPutAll (mbPutAll s a) b := by
  simp [mbPutAll]

end Sys2Proof.Machine
end

