-- ==== Sys2Proof/Laws/Trie.lean ====
section
/-! SUPPORT. The trie `TR.BUILD` makes: every node stands for one bit path, the nodes are exactly the prefixes of the
codewords, and the leaves exactly the codewords (spec/45_decoder.md R240, R241). -/

namespace Sys2Proof.Machine

open Sys2Proof

/-- The nodes of a trie arena labelled by the paths that lead to them from the root, `leaf` being the leaf at each
path. -/
structure Labels (arena : List TrNode) (paths : List (List Bool)) (leaf : List Bool → Option Byte) : Prop where
  size : paths.length = arena.length
  root : paths[0]? = some []
  nodup : paths.Nodup
  child : ∀ (i : Nat) (nd : TrNode) (p : List Bool), arena[i]? = some nd → paths[i]? = some p →
    ∀ (b : Bool) (j : Nat), childOf nd b = some j ↔ paths[j]? = some (p ++ [b])
  closed : ∀ (p : List Bool) (b : Bool), p ++ [b] ∈ paths → p ∈ paths
  leafs : ∀ (i : Nat) (nd : TrNode) (p : List Bool), arena[i]? = some nd → paths[i]? = some p → nd.leaf = leaf p
  fresh : ∀ q : List Bool, q ∉ paths → leaf q = none

theorem Labels.index_unique {arena : List TrNode} {paths : List (List Bool)} {leaf : List Bool → Option Byte}
    (h : Labels arena paths leaf) {i j : Nat} {p : List Bool} (hi : paths[i]? = some p)
    (hj : paths[j]? = some p) : i = j := by
  rw [List.getElem?_eq_some_iff] at hi hj
  obtain ⟨hi1, hi2⟩ := hi
  obtain ⟨hj1, hj2⟩ := hj
  exact (List.Nodup.getElem_inj_iff h.nodup).mp (hi2.trans hj2.symm)

theorem Labels.node {arena : List TrNode} {paths : List (List Bool)} {leaf : List Bool → Option Byte}
    (h : Labels arena paths leaf) {i : Nat} {p : List Bool} (hi : paths[i]? = some p) :
    ∃ nd, arena[i]? = some nd := by
  rw [List.getElem?_eq_some_iff] at hi
  obtain ⟨hi1, -⟩ := hi
  rw [h.size] at hi1
  exact ⟨arena[i], List.getElem?_eq_getElem hi1⟩

theorem Labels.path {arena : List TrNode} {paths : List (List Bool)} {leaf : List Bool → Option Byte}
    (h : Labels arena paths leaf) {i : Nat} {nd : TrNode} (hi : arena[i]? = some nd) :
    ∃ p, paths[i]? = some p := by
  rw [List.getElem?_eq_some_iff] at hi
  obtain ⟨hi1, -⟩ := hi
  rw [← h.size] at hi1
  exact ⟨paths[i], List.getElem?_eq_getElem hi1⟩

theorem childOf_withChild (nd : TrNode) (b b' : Bool) (n : Nat) :
    childOf (withChild nd b n) b' = if b' = b then some n else childOf nd b' := by
  cases b <;> cases b' <;> simp [childOf, withChild]

theorem leaf_withChild (nd : TrNode) (b : Bool) (n : Nat) : (withChild nd b n).leaf = nd.leaf := by
  cases b <;> rfl

/-- Setting the leaf of a node. -/
theorem labels_set_leaf {arena : List TrNode} {paths : List (List Bool)} {leaf : List Bool → Option Byte}
    (h : Labels arena paths leaf) {cur : Nat} {p : List Bool} {nd : TrNode} (hp : paths[cur]? = some p)
    (hnd : arena[cur]? = some nd) (sym : Symbol) :
    Labels (arena.set cur { nd with leaf := some sym }) paths (Function.update leaf p (some sym)) := by
  have hlt : cur < arena.length := (List.getElem?_eq_some_iff.mp hnd).1
  refine ⟨by rw [h.size, List.length_set], h.root, h.nodup, ?_, h.closed, ?_, ?_⟩
  · intro i nd' q hi hq b j
    by_cases hc : cur = i
    · subst hc
      rw [List.getElem?_set_self hlt, Option.some.injEq] at hi
      subst hi
      exact h.child cur nd q hnd hq b j
    · rw [List.getElem?_set_ne hc] at hi
      exact h.child i nd' q hi hq b j
  · intro i nd' q hi hq
    by_cases hc : cur = i
    · subst hc
      rw [List.getElem?_set_self hlt, Option.some.injEq] at hi
      rw [hp, Option.some.injEq] at hq
      subst hi hq
      simp
    · rw [List.getElem?_set_ne hc] at hi
      have hne : q ≠ p := fun he => hc (h.index_unique hp (he ▸ hq))
      rw [Function.update_of_ne hne]
      exact h.leafs i nd' q hi hq
  · intro q hq
    have hne : q ≠ p := fun he => hq (he ▸ List.mem_of_getElem? hp)
    rw [Function.update_of_ne hne]
    exact h.fresh q hq

/-- Adding an absent child. -/
theorem labels_add_child {arena : List TrNode} {paths : List (List Bool)} {leaf : List Bool → Option Byte}
    (h : Labels arena paths leaf) {cur : Nat} {p : List Bool} {nd : TrNode} (hp : paths[cur]? = some p)
    (hnd : arena[cur]? = some nd) {b : Bool} (hb : childOf nd b = none) :
    Labels (arena.set cur (withChild nd b arena.length) ++ [emptyNode]) (paths ++ [p ++ [b]]) leaf ∧
      p ++ [b] ∉ paths := by
  have hlt : cur < arena.length := (List.getElem?_eq_some_iff.mp hnd).1
  have hlt' : cur < paths.length := by rw [h.size]; exact hlt
  have hnew : p ++ [b] ∉ paths := by
    intro hm
    obtain ⟨j, hj⟩ := List.mem_iff_getElem?.mp hm
    have := (h.child cur nd p hnd hp b j).mpr hj
    rw [hb] at this
    simp at this
  have hpm : p ∈ paths := List.mem_of_getElem? hp
  have hlast : (paths ++ [p ++ [b]])[paths.length]? = some (p ++ [b]) := by simp
  refine ⟨⟨?_, ?_, ?_, ?_, ?_, ?_, ?_⟩, hnew⟩
  · simp [h.size]
  · rw [List.getElem?_append_left (by omega)]
    exact h.root
  · rw [List.nodup_append]
    refine ⟨h.nodup, by simp, ?_⟩
    intro x hx y hy
    rw [List.mem_singleton] at hy
    subst hy
    exact fun he => hnew (he ▸ hx)
  · intro i nd' q hi hq b' j
    rcases Nat.lt_or_ge i paths.length with hil | hil
    · rw [List.getElem?_append_left (by rw [List.length_set, ← h.size]; exact hil)] at hi
      rw [List.getElem?_append_left hil] at hq
      by_cases hc : cur = i
      · subst hc
        rw [List.getElem?_set_self hlt, Option.some.injEq] at hi
        rw [hp, Option.some.injEq] at hq
        subst hi hq
        rw [childOf_withChild]
        by_cases hbb : b' = b
        · subst hbb
          simp only [if_true, Option.some.injEq]
          constructor
          · intro hj
            rw [← hj, ← h.size]
            exact hlast
          · intro hj
            rcases Nat.lt_or_ge j paths.length with hjl | hjl
            · rw [List.getElem?_append_left hjl] at hj
              exact absurd (List.mem_of_getElem? hj) hnew
            · have := (List.getElem?_eq_some_iff.mp hj).1
              rw [List.length_append, List.length_singleton] at this
              rw [← h.size]
              omega
        · rw [if_neg hbb, h.child cur nd p hnd hp b' j]
          have hne : p ++ [b'] ≠ p ++ [b] := by simpa using hbb
          constructor
          · intro hj
            rw [List.getElem?_append_left (List.getElem?_eq_some_iff.mp hj).1]
            exact hj
          · intro hj
            rcases Nat.lt_or_ge j paths.length with hjl | hjl
            · rwa [List.getElem?_append_left hjl] at hj
            · have hjlt := (List.getElem?_eq_some_iff.mp hj).1
              rw [List.length_append, List.length_singleton] at hjlt
              have : j = paths.length := by omega
              subst this
              rw [hlast, Option.some.injEq] at hj
              exact absurd hj.symm hne
      · rw [List.getElem?_set_ne hc] at hi
        rw [h.child i nd' q hi hq b' j]
        have hne : q ++ [b'] ≠ p ++ [b] := by
          intro he
          obtain ⟨h1, -⟩ := List.append_inj' he rfl
          exact hc (h.index_unique hp (h1 ▸ hq))
        constructor
        · intro hj
          rw [List.getElem?_append_left (List.getElem?_eq_some_iff.mp hj).1]
          exact hj
        · intro hj
          rcases Nat.lt_or_ge j paths.length with hjl | hjl
          · rwa [List.getElem?_append_left hjl] at hj
          · have hjlt := (List.getElem?_eq_some_iff.mp hj).1
            rw [List.length_append, List.length_singleton] at hjlt
            have : j = paths.length := by omega
            subst this
            rw [hlast, Option.some.injEq] at hj
            exact absurd hj.symm hne
    · have hilt := (List.getElem?_eq_some_iff.mp hq).1
      rw [List.length_append, List.length_singleton] at hilt
      have hie : i = paths.length := by omega
      subst hie
      rw [hlast, Option.some.injEq] at hq
      rw [List.getElem?_append_right (by rw [List.length_set, h.size])] at hi
      simp only [List.length_set, h.size, Nat.sub_self, List.getElem?_cons_zero, Option.some.injEq] at hi
      subst hi hq
      constructor
      · intro hj
        cases b' <;> simp [childOf, emptyNode] at hj
      · intro hj
        exfalso
        have hm : (p ++ [b]) ++ [b'] ∈ paths ++ [p ++ [b]] := List.mem_of_getElem? hj
        rw [List.mem_append, List.mem_singleton] at hm
        rcases hm with hm | hm
        · exact hnew (h.closed _ _ hm)
        · have := congrArg List.length hm
          simp at this
  · intro q b' hq
    rw [List.mem_append, List.mem_singleton] at hq ⊢
    rcases hq with hq | hq
    · exact Or.inl (h.closed q b' hq)
    · obtain ⟨h1, -⟩ := List.append_inj' hq rfl
      exact Or.inl (h1 ▸ hpm)
  · intro i nd' q hi hq
    rcases Nat.lt_or_ge i paths.length with hil | hil
    · rw [List.getElem?_append_left (by rw [List.length_set, ← h.size]; exact hil)] at hi
      rw [List.getElem?_append_left hil] at hq
      by_cases hc : cur = i
      · subst hc
        rw [List.getElem?_set_self hlt, Option.some.injEq] at hi
        subst hi
        rw [leaf_withChild]
        exact h.leafs cur nd q hnd hq
      · rw [List.getElem?_set_ne hc] at hi
        exact h.leafs i nd' q hi hq
    · have hilt := (List.getElem?_eq_some_iff.mp hq).1
      rw [List.length_append, List.length_singleton] at hilt
      have hie : i = paths.length := by omega
      subst hie
      rw [hlast, Option.some.injEq] at hq
      rw [List.getElem?_append_right (by rw [List.length_set, h.size])] at hi
      simp only [List.length_set, h.size, Nat.sub_self, List.getElem?_cons_zero, Option.some.injEq] at hi
      subst hi hq
      exact (h.fresh _ hnew).symm
  · intro q hq
    rw [List.mem_append, not_or] at hq
    exact h.fresh q hq.1

/-- Inserting the rest of a codeword: the model's fault cannot happen, the prefixes of the path are added, the leaf is
set at its end, and no more nodes are made than there are bits (45_decoder.md R240, R246). -/
theorem insertBits_spec (sym : Symbol) : ∀ (bits : List Bool) (cur : Nat) (arena : List TrNode)
    (paths : List (List Bool)) (leaf : List Bool → Option Byte) (p : List Bool),
    Labels arena paths leaf → paths[cur]? = some p →
    ∃ arena' paths', insertBits sym bits cur arena = .ok arena' ∧
      Labels arena' paths' (Function.update leaf (p ++ bits) (some sym)) ∧
      (∀ q, q ∈ paths' ↔ q ∈ paths ∨ (p <+: q ∧ q <+: p ++ bits)) ∧
      arena'.length ≤ arena.length + bits.length := by
  intro bits
  induction bits with
  | nil =>
    intro cur arena paths leaf p h hp
    obtain ⟨nd, hnd⟩ := h.node hp
    refine ⟨arena.set cur { nd with leaf := some sym }, paths, by simp only [insertBits, hnd], ?_, ?_, by simp⟩
    · rw [List.append_nil]
      exact labels_set_leaf h hp hnd sym
    · intro q
      rw [List.append_nil]
      constructor
      · exact Or.inl
      · rintro (hq | ⟨h1, h2⟩)
        · exact hq
        · rw [List.IsPrefix.eq_of_length h2 (le_antisymm h2.length_le h1.length_le)]
          exact List.mem_of_getElem? hp
  | cons b rest ih =>
    intro cur arena paths leaf p h hp
    obtain ⟨nd, hnd⟩ := h.node hp
    have happ : p ++ b :: rest = p ++ [b] ++ rest := by simp
    have hpm : p ∈ paths := List.mem_of_getElem? hp
    have hsplit : ∀ q, p <+: q ∧ q <+: p ++ b :: rest ↔ q = p ∨ (p ++ [b] <+: q ∧ q <+: p ++ b :: rest) := by
      intro q
      constructor
      · rintro ⟨⟨x, rfl⟩, h2⟩
        cases x with
        | nil => exact Or.inl (by simp)
        | cons y ys =>
          right
          refine ⟨?_, h2⟩
          obtain ⟨z, hz⟩ := h2
          simp only [List.append_assoc, List.cons_append, List.append_cancel_left_eq, List.cons.injEq] at hz
          obtain ⟨rfl, -⟩ := hz
          exact ⟨ys, by simp⟩
      · rintro (rfl | ⟨⟨x, rfl⟩, h2⟩)
        · exact ⟨List.prefix_rfl, List.prefix_append _ _⟩
        · exact ⟨⟨b :: x, by simp⟩, h2⟩
    rcases hch : childOf nd b with _ | ch
    · obtain ⟨hl, -⟩ := labels_add_child h hp hnd hch
      have hidx : (paths ++ [p ++ [b]])[arena.length]? = some (p ++ [b]) := by
        rw [← h.size]
        simp
      obtain ⟨arena', paths', h1, h2, h3, h4⟩ := ih arena.length _ _ leaf (p ++ [b]) hl hidx
      refine ⟨arena', paths', by simp only [insertBits, hnd, hch, h1], by rw [happ]; exact h2, ?_, ?_⟩
      · intro q
        rw [h3, hsplit, ← happ, List.mem_append, List.mem_singleton]
        constructor
        · rintro ((hq | rfl) | hq)
          · exact Or.inl hq
          · exact Or.inr (Or.inr ⟨List.prefix_rfl, ⟨rest, by simp⟩⟩)
          · exact Or.inr (Or.inr hq)
        · rintro (hq | rfl | hq)
          · exact Or.inl (Or.inl hq)
          · exact Or.inl (Or.inl hpm)
          · exact Or.inr hq
      · rw [List.length_append, List.length_set, List.length_singleton] at h4
        rw [List.length_cons]
        omega
    · have hidx := (h.child cur nd p hnd hp b ch).mp hch
      obtain ⟨arena', paths', h1, h2, h3, h4⟩ := ih ch arena paths leaf (p ++ [b]) h hidx
      refine ⟨arena', paths', by simp only [insertBits, hnd, hch, h1], by rw [happ]; exact h2, ?_, ?_⟩
      · intro q
        rw [h3, hsplit, ← happ]
        constructor
        · rintro (hq | hq)
          · exact Or.inl hq
          · exact Or.inr (Or.inr hq)
        · rintro (hq | rfl | hq)
          · exact Or.inl hq
          · exact Or.inl hpm
          · exact Or.inr hq
      · rw [List.length_cons]
        omega

theorem labels_empty : Labels [emptyNode] [[]] (fun _ => none) := by
  refine ⟨rfl, rfl, by simp, ?_, ?_, ?_, fun _ _ => rfl⟩
  · intro i nd p hi hp b j
    have hi0 : i = 0 := by
      have := (List.getElem?_eq_some_iff.mp hi).1
      simpa using this
    subst hi0
    simp only [List.getElem?_cons_zero, Option.some.injEq] at hi hp
    subst hi hp
    constructor
    · intro h
      cases b <;> simp [childOf, emptyNode] at h
    · intro h
      have := List.mem_of_getElem? h
      simp at this
  · intro p b h
    simp at h
  · intro i nd p hi hp
    have hi0 : i = 0 := by
      have := (List.getElem?_eq_some_iff.mp hi).1
      simpa using this
    subst hi0
    simp only [List.getElem?_cons_zero, Option.some.injEq] at hi
    subst hi
    rfl

/-- The leaf each path has after the symbols of a list are inserted in order. -/
def leafAfter (word : Symbol → List Bool) : List Symbol → (List Bool → Option Byte) → List Bool → Option Byte
  | [], leaf => leaf
  | a :: rest, leaf => leafAfter word rest (Function.update leaf (word a) (some a))

/-- The insertion of all codewords never meets the model's fault; the nodes are the prefixes of the codewords. -/
theorem insertAll_spec (len : Table Byte) (code : Table CodeValue) : ∀ (os : List Symbol)
    (arena : List TrNode) (paths : List (List Bool)) (leaf : List Bool → Option Byte),
    Labels arena paths leaf →
    ∃ arena' paths', insertAll len code os arena = .ok arena' ∧
      Labels arena' paths' (leafAfter (codewordIn len code) os leaf) ∧
      (∀ q, q ∈ paths' ↔ q ∈ paths ∨ ∃ a ∈ os, q <+: codewordIn len code a) ∧
      arena'.length ≤ arena.length + 255 * os.length := by
  intro os
  induction os with
  | nil =>
    intro arena paths leaf h
    exact ⟨arena, paths, rfl, h, by simp, by simp⟩
  | cons a rest ih =>
    intro arena paths leaf h
    obtain ⟨a1, p1, h1, h2, h3, h4⟩ := insertBits_spec a (codewordIn len code a) 0 arena paths leaf [] h h.root
    rw [List.nil_append] at h2
    obtain ⟨a2, p2, h5, h6, h7, h8⟩ := ih a1 p1 _ h2
    refine ⟨a2, p2, by simp only [insertAll, h1, h5], h6, ?_, ?_⟩
    · intro q
      rw [h7, h3]
      simp only [List.nil_append, List.nil_prefix, true_and, List.mem_cons, exists_eq_or_imp]
      tauto
    · rw [codewordIn_length] at h4
      have := lenNat_le len a
      rw [List.length_cons]
      omega

theorem leafAfter_of_ne (word : Symbol → List Bool) : ∀ (os : List Symbol) (leaf : List Bool → Option Byte)
    (q : List Bool), (∀ a ∈ os, word a ≠ q) → leafAfter word os leaf q = leaf q := by
  intro os
  induction os with
  | nil => intro leaf q _; rfl
  | cons a rest ih =>
    intro leaf q h
    rw [leafAfter, ih _ _ (fun x hx => h x (by simp [hx])), Function.update_of_ne (Ne.symm (h a (by simp)))]

theorem leafAfter_of_mem (word : Symbol → List Bool) : ∀ (os : List Symbol) (leaf : List Bool → Option Byte)
    (a : Symbol), a ∈ os → (∀ x ∈ os, word x = word a → x = a) → leafAfter word os leaf (word a) = some a := by
  intro os
  induction os with
  | nil => intro leaf a h _; simp at h
  | cons x rest ih =>
    intro leaf a h hinj
    rw [leafAfter]
    by_cases hr : a ∈ rest
    · exact ih _ a hr (fun y hy => hinj y (by simp [hy]))
    · rw [List.mem_cons] at h
      have hxa : a = x := by tauto
      subst hxa
      rw [leafAfter_of_ne word rest _ _ ?_, Function.update_self]
      intro y hy he
      have := hinj y (by simp [hy]) he
      exact hr (this ▸ hy)

/-- The trie: it is always built, within `TR_CAP`, and its nodes are labelled (45_decoder.md R240, R246). -/
theorem buildTrie_spec (len : Table Byte) (code : Table CodeValue) :
    ∃ arena paths, buildTrie len code = .ok arena ∧
      Labels arena paths (leafAfter (codewordIn len code) (canonOrder len) (fun _ => none)) ∧
      (∀ q, q ∈ paths ↔ q = [] ∨ ∃ a, (tblGet len a).toNat ≠ 0 ∧ q <+: codewordIn len code a) ∧
      arena.length ≤ Config.trCap ∧ arena ≠ [] := by
  obtain ⟨arena, paths, h1, h2, h3, h4⟩ := insertAll_spec len code (canonOrder len) _ _ _ labels_empty
  refine ⟨arena, paths, h1, h2, ?_, ?_, ?_⟩
  · intro q
    rw [h3]
    simp [mem_canonOrder]
  · have hl : (canonOrder len).length ≤ 256 := by
      rw [(canonOrder_perm len).length_eq]
      exact presentByLen_length_le len
    simp only [List.length_singleton] at h4
    unfold Config.trCap
    omega
  · intro h0
    have := h2.root
    rw [h0] at h2
    have hs := h2.size
    simp only [List.length_nil, List.length_eq_zero_iff] at hs
    rw [hs] at this
    simp at this

/-- Under a valid code table the leaves are the codewords (45_decoder.md R241). -/
theorem leafAfter_codes {len : Table Byte} {code : Table CodeValue} (h : assignCodes len = some code)
    (q : List Bool) (a : Byte) :
    leafAfter (codewordIn len code) (canonOrder len) (fun _ => none) q = some a ↔
      (tblGet len a).toNat ≠ 0 ∧ q = codewordIn len code a := by
  have hinj : ∀ x y : Symbol, (tblGet len x).toNat ≠ 0 → (tblGet len y).toNat ≠ 0 →
      codewordIn len code x = codewordIn len code y → x = y := by
    intro x y hx hy he
    exact codewords_prefix_free h hx hy (he ▸ List.prefix_rfl)
  constructor
  · intro hq
    by_cases hex : ∃ x ∈ canonOrder len, codewordIn len code x = q
    · obtain ⟨x, hx, rfl⟩ := hex
      rw [leafAfter_of_mem _ _ _ x hx ?_] at hq
      · rw [Option.some.injEq] at hq
        subst hq
        exact ⟨mem_canonOrder.mp hx, rfl⟩
      · intro y hy he
        exact hinj y x (mem_canonOrder.mp hy) (mem_canonOrder.mp hx) he
    · rw [leafAfter_of_ne _ _ _ _ (fun x hx he => hex ⟨x, hx, he⟩)] at hq
      simp at hq
  · rintro ⟨ha, rfl⟩
    refine leafAfter_of_mem _ _ _ a (mem_canonOrder.mpr ha) ?_
    intro y hy he
    exact hinj y a (mem_canonOrder.mp hy) ha he

/-- A walk from the root ends at the node labelled with the bits walked. -/
theorem trieWalk_labels {arena : List TrNode} {paths : List (List Bool)} {leaf : List Bool → Option Byte}
    (h : Labels arena paths leaf) : ∀ (bits : List Bool) (i : Nat) (p : List Bool), paths[i]? = some p →
    ∀ j, trieWalk arena bits i = some j ↔ paths[j]? = some (p ++ bits) := by
  intro bits
  induction bits with
  | nil =>
    intro i p hi j
    simp only [trieWalk, Option.some.injEq, List.append_nil]
    constructor
    · rintro rfl
      exact hi
    · exact fun hj => h.index_unique hi hj
  | cons b rest ih =>
    intro i p hi j
    obtain ⟨nd, hnd⟩ := h.node hi
    have happ : p ++ b :: rest = p ++ [b] ++ rest := by simp
    rcases hch : childOf nd b with _ | ch
    · simp only [trieWalk, hnd, hch]
      constructor
      · intro hj
        simp at hj
      · intro hj
        exfalso
        have hcl : ∀ (r : List Bool), p ++ [b] ++ r ∈ paths → p ++ [b] ∈ paths := by
          intro r
          induction r using List.reverseRecOn with
          | nil => intro hr; simpa using hr
          | append_singleton r x ihr =>
            intro hr
            rw [← List.append_assoc] at hr
            exact ihr (h.closed _ _ hr)
        have hm := hcl rest (happ ▸ List.mem_of_getElem? hj)
        obtain ⟨k, hk⟩ := List.mem_iff_getElem?.mp hm
        have := (h.child i nd p hnd hi b k).mpr hk
        rw [hch] at this
        simp at this
    · have hidx := (h.child i nd p hnd hi b ch).mp hch
      simp only [trieWalk, hnd, hch, happ]
      exact ih ch (p ++ [b]) hidx j

end Sys2Proof.Machine
end

