-- ==== Sys2Proof/Laws/Decoder.lean ====
section
/-! SUPPORT. The decoder's walk: what one transition does in a labelled trie, and one induction over `TD.RUN`
(spec/45_decoder.md R255 to R260). -/

namespace Sys2Proof.Machine

open Sys2Proof

/-- A reader frame keeps everything the decoder walks by. -/
theorem readerBits_congr {s t : State} (h1 : t.brCur = s.brCur) (h2 : t.brRem = s.brRem) (h3 : t.srcPos = s.srcPos)
    (h4 : t.src = s.src) : readerBits t = readerBits s := by
  unfold readerBits
  rw [h1, h2, h3, h4]

theorem readerOk_congr {s t : State} (h3 : t.srcPos = s.srcPos) (h4 : t.src = s.src) (h : ReaderOk s) :
    ReaderOk t := by
  unfold ReaderOk at *
  rwa [h3, h4]

/-- The reader's fields alone differ (42_bitstream.md R145). -/
def ReaderMoved (s t : State) : Prop := t = { s with brCur := t.brCur, brRem := t.brRem, srcPos := t.srcPos }

/-- One transition of the decoder, whole: input exhausted, absent child, a leaf, or an inner node
(45_decoder.md R255). -/
theorem tdWalk_spec {s : State} {paths : List (List Bool)} {leaf : List Bool → Option Byte} {p : List Bool}
    (hl : Labels s.trNodes paths leaf) (hp : paths[s.tdCur]? = some p) (hr : ReaderOk s) :
    (readerBits s = [] ∧ tdWalk s = .corrupt .exhausted { s with tdState := .failed }) ∨
    ∃ b bs t, readerBits s = b :: bs ∧ readerBits t = bs ∧ ReaderOk t ∧ ReaderMoved s t ∧
      ((p ++ [b] ∉ paths ∧ tdWalk s = .corrupt .absentChild { t with tdState := .failed }) ∨
        (∃ byte, leaf (p ++ [b]) = some byte ∧ p ++ [b] ∈ paths ∧ tdWalk s = .emitted byte (tdLeaf byte t)) ∨
        ∃ ch nd, paths[ch]? = some (p ++ [b]) ∧ s.trNodes[ch]? = some nd ∧ nd.leaf = none ∧
          leaf (p ++ [b]) = none ∧ tdWalk s = .moved { t with tdCur := ch, tdState := .descending }) := by
  rcases brGet_spec hr with ⟨h1, h2⟩ | ⟨b, t, h1, h2, h3, h4, -⟩
  · left
    exact ⟨h1, by simp only [tdWalk, h2]⟩
  · right
    refine ⟨b, readerBits t, t, h2, rfl, h3, h4, ?_⟩
    have htr : t.trNodes = s.trNodes := by rw [h4]
    have htc : t.tdCur = s.tdCur := by rw [h4]
    obtain ⟨nd, hnd⟩ := hl.node hp
    rcases hch : childOf nd b with _ | ch
    · left
      refine ⟨?_, by simp only [tdWalk, h1, htr, htc, hnd, hch]⟩
      intro hm
      obtain ⟨j, hj⟩ := List.mem_iff_getElem?.mp hm
      have := (hl.child _ nd p hnd hp b j).mpr hj
      rw [hch] at this
      simp at this
    · right
      have hidx := (hl.child _ nd p hnd hp b ch).mp hch
      obtain ⟨cn, hcn⟩ := hl.node hidx
      have hlf := hl.leafs ch cn _ hcn hidx
      rcases hcl : cn.leaf with _ | byte
      · right
        exact ⟨ch, cn, hidx, hcn, hcl, by rw [← hlf, hcl], by simp only [tdWalk, h1, htr, htc, hnd, hch, hcn, hcl]⟩
      · left
        exact ⟨byte, by rw [← hlf, hcl], List.mem_of_getElem? hidx,
          by simp only [tdWalk, h1, htr, htc, hnd, hch, hcn, hcl]⟩

/-- The bound of `TD.RUN` is one more than the bits the reader has yet to deliver (45_decoder.md R260). -/
theorem tdBound_eq (s : State) : tdBound s = (readerBits s).length + 1 := by
  unfold tdBound readerBits
  simp only [List.length_append, bitsDown_length, streamBits_length, List.length_drop]
  omega

/-- A transition that goes on takes one bit from the reader and leaves it inside `SRC`. -/
theorem tdWalk_shorter {s : State} (hr : ReaderOk s) :
    (∀ t, tdWalk s = .moved t → (readerBits t).length < (readerBits s).length ∧ ReaderOk t) ∧
    ∀ b t, tdWalk s = .emitted b t → (readerBits t).length < (readerBits s).length ∧ ReaderOk t := by
  rcases brGet_spec hr with ⟨h1, h2⟩ | ⟨b, t, h1, h2, h3, -⟩
  · constructor <;> intros <;> simp_all [tdWalk]
  · have hlen : (readerBits t).length < (readerBits s).length := by simp [h2]
    constructor
    · intro u hu
      simp only [tdWalk, h1] at hu
      repeat' split at hu
      all_goals first | (simp at hu; done) | skip
      simp only [Walk.moved.injEq] at hu
      subst hu
      exact ⟨hlen, h3⟩
    · intro c u hu
      simp only [tdWalk, h1] at hu
      repeat' split at hu
      all_goals first | (simp at hu; done) | skip
      simp only [Walk.emitted.injEq] at hu
      obtain ⟨-, rfl⟩ := hu
      unfold tdLeaf tdFinish
      simp only
      split
      · exact ⟨hlen, h3⟩
      · exact ⟨hlen, h3⟩

/-- One induction over `TD.RUN` for every claim about where it ends: `P` holds before every transition, `Q` at the
end (45_decoder.md R260). -/
theorem tdRunLoop_induct {P : State → Prop} {Q : State → Prop}
    (reader : ∀ s, P s → ReaderOk s)
    (inside : ∀ s f, P s → tdWalk s ≠ .outside f)
    (moved : ∀ s t, P s → tdWalk s = .moved t → P t)
    (emitted : ∀ s b t, P s → tdWalk s = .emitted b t → t.tdState = .atRoot → P t)
    (ended : ∀ s b t, P s → tdWalk s = .emitted b t → t.tdState ≠ .atRoot → Q (tdEnd (some b) .none t))
    (corrupt : ∀ s last cause t, P s → tdWalk s = .corrupt cause t → Q (tdEnd last cause t)) :
    ∀ (fuel : Nat) (last : Option Byte) (s : State), P s → (readerBits s).length < fuel →
      ∃ t, tdRunLoop fuel last s = .next t ∧ Q t := by
  intro fuel
  induction fuel with
  | zero => intro last s _ h; omega
  | succ n ih =>
    intro last s hs hf
    obtain ⟨hm, he⟩ := tdWalk_shorter (reader s hs)
    rcases hw : tdWalk s with t | ⟨b, t⟩ | ⟨cause, t⟩ | f
    · simp only [tdRunLoop, hw]
      exact ih last t (moved s t hs hw) (by have := (hm t hw).1; omega)
    · simp only [tdRunLoop, hw]
      by_cases hroot : t.tdState = .atRoot
      · rw [if_pos hroot]
        exact ih (some b) t (emitted s b t hs hw hroot) (by have := (he b t hw).1; omega)
      · rw [if_neg hroot]
        exact ⟨_, rfl, ended s b t hs hw hroot⟩
    · simp only [tdRunLoop, hw]
      exact ⟨_, rfl, corrupt s last cause t hs hw⟩
    · exact absurd hw (inside s f hs)

/-! ### Codewords -/

/-- The last byte of a decode: the count reaches the size (45_decoder.md R255 to R257). -/
theorem tdLeaf_last {b : Byte} {t : State} (h : t.tdCount + 1#64 = t.tdSize) :
    tdLeaf b t = { t with
      dout := t.dout ++ [b], crcState := crcByte t.crcState b, tdCount := t.tdSize, tdCur := 0,
      tdState := if crcFinal (crcByte t.crcState b) = t.tdXcrc then .done else .failed } := by
  simp only [tdLeaf, tdEmit, tdFinish, h, if_true]

/-- Every other byte of a decode: the walk goes on at the root (45_decoder.md R255, R256). -/
theorem tdLeaf_more {b : Byte} {t : State} (h : ¬ (t.tdCount + 1#64 = t.tdSize)) :
    tdLeaf b t = { t with
      dout := t.dout ++ [b], crcState := crcByte t.crcState b, tdCount := t.tdCount + 1#64, tdCur := 0,
      tdState := .atRoot } := by
  simp only [tdLeaf, tdEmit, h, if_false]

/-- What one symbol's walk may change besides the output. -/
def Walked (s t : State) : Prop :=
  t = { s with brCur := t.brCur, brRem := t.brRem, srcPos := t.srcPos, tdCur := t.tdCur, tdState := t.tdState }

theorem Walked.after {s t : State} (h : Walked s t) (d : List Byte) (c : Word32) (n : Word64) (st : TdState) :
    ({ t with dout := d, crcState := c, tdCount := n, tdCur := 0, tdState := st } : State) =
      { s with
        brCur := t.brCur, brRem := t.brRem, srcPos := t.srcPos, dout := d, crcState := c, tdCount := n, tdCur := 0,
        tdState := st } := by
  unfold Walked at h
  rw [h]

theorem Walked.fields {s t : State} (h : Walked s t) :
    t.trNodes = s.trNodes ∧ t.tdCount = s.tdCount ∧ t.tdSize = s.tdSize ∧ t.crcState = s.crcState ∧
      t.dout = s.dout ∧ t.tdXcrc = s.tdXcrc := by
  unfold Walked at h
  and_intros <;> rw [h]

/-- The walk along the rest of a codeword ends at its symbol's leaf and at no earlier one
(45_decoder.md R241, R255). -/
theorem tdRunLoop_codeword {len : Table Byte} {code : Table CodeValue} {paths : List (List Bool)} {a : Symbol}
    (hc : assignCodes len = some code) (ha : (tblGet len a).toNat ≠ 0)
    (hpaths : ∀ q, q ∈ paths ↔ q = [] ∨ ∃ a, (tblGet len a).toNat ≠ 0 ∧ q <+: codewordIn len code a)
    (rest : List Bool) : ∀ (bits p : List Bool) (s : State), bits ≠ [] → p ++ bits = codewordIn len code a →
    Labels s.trNodes paths (leafAfter (codewordIn len code) (canonOrder len) (fun _ => none)) →
    paths[s.tdCur]? = some p → ReaderOk s → readerBits s = bits ++ rest →
    ∃ t, readerBits t = rest ∧ ReaderOk t ∧ Walked s t ∧ ∀ k last, tdRunLoop (bits.length + k) last s =
        if (tdLeaf a t).tdState = .atRoot then tdRunLoop k (some a) (tdLeaf a t)
        else .next (tdEnd (some a) .none (tdLeaf a t)) := by
  intro bits
  induction bits with
  | nil => intro p s h; exact absurd rfl h
  | cons b bits ih =>
    intro p s _ hpb hl hp hr hbits
    rcases tdWalk_spec hl hp hr with ⟨h1, -⟩ | ⟨b', bs', t, h1, h2, h3, h4, h5⟩
    · rw [h1] at hbits
      simp at hbits
    · rw [hbits, List.cons_append, List.cons.injEq] at h1
      obtain ⟨rfl, h1⟩ := h1
      rw [← h1] at h2
      have hpre : p ++ [b] <+: codewordIn len code a := ⟨bits, by rw [← hpb]; simp⟩
      have hin : p ++ [b] ∈ paths := (hpaths _).mpr (Or.inr ⟨a, ha, hpre⟩)
      by_cases hb : bits = []
      · subst hb
        have hleaf : leafAfter (codewordIn len code) (canonOrder len) (fun _ => none) (p ++ [b]) = some a :=
          (leafAfter_codes hc _ _).mpr ⟨ha, hpb⟩
        rcases h5 with ⟨h5, -⟩ | ⟨byte, h5, -, h6⟩ | ⟨ch, nd, -, -, -, h5, -⟩
        · exact absurd hin h5
        · rw [hleaf, Option.some.injEq] at h5
          subst h5
          refine ⟨t, by simpa using h2, h3, by unfold Walked; rw [h4], ?_⟩
          intro k last
          rw [List.length_singleton, Nat.add_comm]
          simp only [tdRunLoop, h6]
        · rw [hleaf] at h5
          simp at h5
      · have hnl : leafAfter (codewordIn len code) (canonOrder len) (fun _ => none) (p ++ [b]) = none := by
          rcases hlf : leafAfter (codewordIn len code) (canonOrder len) (fun _ => none) (p ++ [b]) with _ | x
          · rfl
          · exfalso
            obtain ⟨hx, he⟩ := (leafAfter_codes hc _ _).mp hlf
            have hxa := codewords_prefix_free hc hx ha (he ▸ hpre)
            subst hxa
            have e1 := congrArg List.length hpb
            have e2 := congrArg List.length he
            simp only [List.length_append, List.length_cons, List.length_nil] at e1 e2
            have := List.length_pos_of_ne_nil hb
            omega
        rcases h5 with ⟨h5, -⟩ | ⟨byte, h5, -⟩ | ⟨ch, nd, h5, -, -, -, h6⟩
        · exact absurd hin h5
        · rw [hnl] at h5
          simp at h5
        · have htr : t.trNodes = s.trNodes := by rw [h4]
          obtain ⟨u, h7, h8, h9, h10⟩ := ih (p ++ [b]) { t with tdCur := ch, tdState := .descending } hb
            (by rw [← hpb]; simp) (by rw [← htr] at hl; exact hl) h5 h3 h2
          refine ⟨u, h7, h8, Eq.trans h9 (by rw [h4]), ?_⟩
          intro k last
          rw [List.length_cons, show bits.length + 1 + k = bits.length + k + 1 by omega]
          simp only [tdRunLoop, h6]
          exact h10 k last

/-- The bits of a byte sequence under a code (44_canonical.md R227). -/
def encodedBits (len : Table Byte) (code : Table CodeValue) (bytes : List Byte) : List Bool :=
  bytes.flatMap (codewordIn len code)

/-- The walk along the codewords of a byte sequence emits those bytes and stops when the count is reached, whatever
follows in the stream (45_decoder.md R257, R265). -/
theorem tdRunLoop_codewords {len : Table Byte} {code : Table CodeValue} {paths : List (List Bool)}
    (hc : assignCodes len = some code)
    (hpaths : ∀ q, q ∈ paths ↔ q = [] ∨ ∃ a, (tblGet len a).toNat ≠ 0 ∧ q <+: codewordIn len code a)
    (rest : List Bool) : ∀ (bytes : List Byte) (b : Byte) (s : State),
    (∀ a ∈ b :: bytes, (tblGet len a).toNat ≠ 0) →
    Labels s.trNodes paths (leafAfter (codewordIn len code) (canonOrder len) (fun _ => none)) →
    s.tdCur = 0 → ReaderOk s → readerBits s = encodedBits len code (b :: bytes) ++ rest →
    s.tdCount.toNat + (bytes.length + 1) = s.tdSize.toNat →
    ∃ t last, readerBits t = rest ∧ ReaderOk t ∧
      t = { s with
        brCur := t.brCur, brRem := t.brRem, srcPos := t.srcPos, dout := s.dout ++ b :: bytes,
        crcState := crcBytes s.crcState (b :: bytes), tdCount := s.tdSize, tdCur := 0,
        tdState := if crcFinal (crcBytes s.crcState (b :: bytes)) = s.tdXcrc then .done else .failed } ∧
      (b :: bytes).getLast? = some last ∧
      ∀ fuel prev, (encodedBits len code (b :: bytes)).length ≤ fuel →
        tdRunLoop fuel prev s = .next (tdEnd (some last) .none t) := by
  intro bytes
  induction bytes with
  | nil =>
    intro b s hpres hl hcur hr hbits hcount
    have hne : codewordIn len code b ≠ [] := by
      intro h
      have := codewordIn_length len code b
      rw [h] at this
      exact hpres b (by simp) this.symm
    simp only [encodedBits, List.flatMap_cons, List.flatMap_nil, List.append_nil] at hbits ⊢
    obtain ⟨t, h1, h2, h3, h4⟩ := tdRunLoop_codeword hc (hpres b (by simp)) hpaths rest _ [] s hne rfl hl
      (by rw [hcur]; exact hl.root) hr hbits
    simp only [List.length_nil, Nat.zero_add] at hcount
    obtain ⟨-, f2, f3, f4, f5, f6⟩ := h3.fields
    have hcnt : t.tdCount + 1#64 = t.tdSize := by
      apply BitVec.eq_of_toNat_eq
      rw [BitVec.toNat_add, f2, f3]
      have := s.tdSize.isLt
      simp only [BitVec.toNat_ofNat]
      omega
    rw [tdLeaf_last hcnt] at h4
    refine ⟨{ t with
      dout := t.dout ++ [b], crcState := crcByte t.crcState b, tdCount := t.tdSize, tdCur := 0,
      tdState := if crcFinal (crcByte t.crcState b) = t.tdXcrc then .done else .failed }, b,
      (readerBits_congr rfl rfl rfl rfl).trans h1, readerOk_congr rfl rfl h2, ?_, rfl, ?_⟩
    rotate_left
    · intro fuel prev hf
      obtain ⟨k, rfl⟩ := Nat.exists_eq_add_of_le hf
      rw [h4 k prev, if_neg]
      simp only
      split <;> simp
    · rw [h3.after, f3, f4, f5, f6]
      rfl
  | cons c bytes ih =>
    intro b s hpres hl hcur hr hbits hcount
    have hne : codewordIn len code b ≠ [] := by
      intro h
      have := codewordIn_length len code b
      rw [h] at this
      exact hpres b (by simp) this.symm
    have hsplit : encodedBits len code (b :: c :: bytes) =
        codewordIn len code b ++ encodedBits len code (c :: bytes) := by
      simp [encodedBits]
    rw [hsplit, List.append_assoc] at hbits
    obtain ⟨t, h1, h2, h3, h4⟩ := tdRunLoop_codeword hc (hpres b (by simp)) hpaths _ _ [] s hne rfl hl
      (by rw [hcur]; exact hl.root) hr hbits
    obtain ⟨f1, f2, f3, f4, f5, f6⟩ := h3.fields
    simp only [List.length_cons] at hcount
    have hcnt : (s.tdCount + 1#64).toNat = s.tdCount.toNat + 1 := by
      rw [BitVec.toNat_add]
      have := s.tdSize.isLt
      simp only [BitVec.toNat_ofNat]
      omega
    have hne2 : ¬ (t.tdCount + 1#64 = t.tdSize) := by
      intro h
      have := congrArg BitVec.toNat h
      rw [f2, f3] at this
      omega
    rw [tdLeaf_more hne2, h3.after] at h4
    obtain ⟨u, last, h5, h6, h7, h8, h9⟩ := ih c { s with
        brCur := t.brCur, brRem := t.brRem, srcPos := t.srcPos, dout := t.dout ++ [b],
        crcState := crcByte t.crcState b, tdCount := t.tdCount + 1#64, tdCur := 0, tdState := .atRoot }
      (fun a ha => hpres a (List.mem_cons_of_mem _ ha)) hl rfl
      (by rw [← h3.after]; exact readerOk_congr rfl rfl h2)
      (by rw [← h3.after]; exact (readerBits_congr rfl rfl rfl rfl).trans h1)
      (by simp only; rw [f2, hcnt]; omega)
    refine ⟨u, last, h5, h6, h7.trans ?_, by simpa using h8, ?_⟩
    rotate_left
    · intro fuel prev hf
      rw [hsplit, List.length_append] at hf
      obtain ⟨k, rfl⟩ := Nat.exists_eq_add_of_le (Nat.le_of_add_right_le hf)
      rw [h4 k prev, if_pos rfl]
      exact h9 k (some b) (by omega)
    · rw [f4, f5]
      simp only [crcBytes, List.foldl_cons, List.append_assoc, List.singleton_append]
      rfl

end Sys2Proof.Machine
end

