-- ==== Sys2Proof/Laws/Tree.lean ====
section
/-! SUPPORT. The tree `HT.BUILD` makes: the order of the queue is a strict total order, the arena is a full binary
tree over the present symbols, and a traversal gives every leaf its depth (spec/43_tree_builder.md R188 to R196,
spec/44_canonical.md R212). -/

namespace Sys2Proof.Machine

open Sys2Proof

/-! ### The order of the queue -/

/-- `before` as one key: frequency, then leaves before internal nodes, then symbol or index
(43_tree_builder.md R189). -/
theorem nodeBefore_iff (x y : QEntry) :
    nodeBefore x y = true ↔
      x.node.freq.toNat < y.node.freq.toNat ∨
        (x.node.freq = y.node.freq ∧
          match x.node.sym, y.node.sym with
          | .leaf a, .leaf b => a.toNat < b.toNat
          | .leaf _, .internal => True
          | .internal, .leaf _ => False
          | .internal, .internal => x.index < y.index) := by
  unfold nodeBefore
  by_cases h : x.node.freq = y.node.freq
  · rw [if_neg (by simpa using h)]
    rw [h]
    cases x.node.sym <;> cases y.node.sym <;> simp [BitVec.lt_def]
  · rw [if_pos h]
    simp [h, BitVec.lt_def]

theorem nodeBefore_irrefl (x : QEntry) : nodeBefore x x = false := by
  rw [Bool.eq_false_iff, Ne, nodeBefore_iff]
  cases x.node.sym <;> simp

theorem nodeBefore_trans {x y z : QEntry} (h1 : nodeBefore x y = true) (h2 : nodeBefore y z = true) :
    nodeBefore x z = true := by
  rw [nodeBefore_iff] at *
  rcases h1 with h1 | ⟨e1, h1⟩ <;> rcases h2 with h2 | ⟨e2, h2⟩
  · exact Or.inl (h1.trans h2)
  · exact Or.inl (e2 ▸ h1)
  · exact Or.inl (e1 ▸ h2)
  · refine Or.inr ⟨e1.trans e2, ?_⟩
    cases hx : x.node.sym <;> cases hy : y.node.sym <;> cases hz : z.node.sym <;>
      simp only [hx, hy, hz] at h1 h2 ⊢ <;> omega

/-- The strict order is total where the leaves hold distinct symbols and the internal nodes have distinct indices. -/
theorem nodeBefore_total {x y : QEntry} (hi : x.index ≠ y.index)
    (hs : ∀ a, x.node.sym = .leaf a → y.node.sym ≠ .leaf a) :
    nodeBefore x y = true ∨ nodeBefore y x = true := by
  rw [nodeBefore_iff, nodeBefore_iff]
  rcases Nat.lt_trichotomy x.node.freq.toNat y.node.freq.toNat with h | h | h
  · exact Or.inl (Or.inl h)
  · have he := BitVec.eq_of_toNat_eq h
    cases hx : x.node.sym <;> cases hy : y.node.sym
    · next a b =>
      have hab : a ≠ b := by
        rintro rfl
        exact hs a hx hy
      have : a.toNat ≠ b.toNat := fun hn => hab (BitVec.eq_of_toNat_eq hn)
      rcases Nat.lt_or_gt_of_ne this with hl | hl
      · exact Or.inl (Or.inr ⟨he, hl⟩)
      · exact Or.inr (Or.inr ⟨he.symm, hl⟩)
    · exact Or.inl (Or.inr ⟨he, trivial⟩)
    · exact Or.inr (Or.inr ⟨he.symm, trivial⟩)
    · rcases Nat.lt_or_gt_of_ne hi with hl | hl
      · exact Or.inl (Or.inr ⟨he, hl⟩)
      · exact Or.inr (Or.inr ⟨he.symm, hl⟩)
  · exact Or.inr (Or.inl h)

/-- "remove and return": nothing is lost and nothing made (43_tree_builder.md R190). -/
theorem popMin_perm (x : QEntry) (q : List QEntry) :
    ((popMin x q).1 :: (popMin x q).2).Perm (x :: q) := by
  induction q generalizing x with
  | nil => rfl
  | cons y q ih =>
    unfold popMin
    split
    · exact (List.Perm.swap _ _ _).trans (((ih y).cons x))
    · exact (List.Perm.swap _ _ _).trans (((ih x).cons y).trans (List.Perm.swap _ _ _))

/-- No member is before the popped one (43_tree_builder.md R190). -/
theorem popMin_least (x : QEntry) (q : List QEntry) :
    ∀ y ∈ x :: q, nodeBefore y (popMin x q).1 = false := by
  induction q generalizing x with
  | nil =>
    intro y hy
    simp only [List.mem_singleton] at hy
    subst hy
    exact nodeBefore_irrefl y
  | cons z q ih =>
    intro y hy
    unfold popMin
    split
    next h =>
      rcases List.mem_cons.mp hy with rfl | hy
      · have hz := ih z z (by simp)
        rw [Bool.eq_false_iff] at hz ⊢
        exact fun hc => hz (nodeBefore_trans h hc)
      · exact ih z y hy
    next h =>
      rcases List.mem_cons.mp hy with rfl | hy
      · exact ih y y (by simp)
      · rcases List.mem_cons.mp hy with rfl | hy
        · rw [Bool.eq_false_iff]
          intro hc
          -- the popped member is not after `x`
          have hx := ih x x (by simp)
          rw [Bool.eq_false_iff, ne_eq] at hx
          change nodeBefore y (popMin x q).1 = true at hc
          by_cases hpe : (popMin x q).1 = x
          · exact h (hpe ▸ hc)
          · rw [nodeBefore_iff] at h hx hc
            apply h
            generalize (popMin x q).1 = m at *
            rcases hc with hc | ⟨e, hc⟩
            · left
              by_contra hlt
              exact hx (Or.inl (by omega))
            · have hle : ¬ x.node.freq.toNat < m.node.freq.toNat := fun hh => hx (Or.inl hh)
              by_cases hee : m.node.freq = x.node.freq
              · right
                refine ⟨e.trans hee, ?_⟩
                have hx' : ¬ _ := fun hh => hx (Or.inr ⟨hee.symm, hh⟩)
                cases hy' : y.node.sym <;> cases hm : m.node.sym <;> cases hxs : x.node.sym <;>
                  simp only [hy', hm, hxs] at hc hx' ⊢ <;> first | trivial | omega
              · left
                have : m.node.freq.toNat ≠ x.node.freq.toNat := fun hn => hee (BitVec.eq_of_toNat_eq hn)
                rw [e]
                omega
        · exact ih x y (by simp [hy])

theorem popMin_length (x : QEntry) (q : List QEntry) : (popMin x q).2.length = q.length := by
  have := (popMin_perm x q).length_eq
  simpa using this

/-! ### The leaves below a node -/

/-- The leaves below node `i`, left to right, each with its depth below `i`, every internal node having two
children made before it (43_tree_builder.md R196). -/
inductive LeavesBelow (arena : List HtNode) : Nat → List (Symbol × Nat) → Prop where
  | leaf {i : Nat} {sym : Symbol} {nd : HtNode} :
      arena[i]? = some nd → nd.sym = .leaf sym → LeavesBelow arena i [(sym, 0)]
  | join {i a b : Nat} {nd : HtNode} {la lb : List (Symbol × Nat)} :
      arena[i]? = some nd → nd.sym = .internal → nd.c0 = some a → nd.c1 = some b → a < i → b < i →
      LeavesBelow arena a la → LeavesBelow arena b lb →
      LeavesBelow arena i ((la ++ lb).map (fun p => (p.1, p.2 + 1)))

theorem LeavesBelow.mono {arena arena' : List HtNode} (h : arena <+: arena') {i : Nat}
    {l : List (Symbol × Nat)} (hl : LeavesBelow arena i l) : LeavesBelow arena' i l := by
  obtain ⟨x, rfl⟩ := h
  have hget : ∀ {j : Nat} {nd : HtNode}, arena[j]? = some nd → (arena ++ x)[j]? = some nd := by
    intro j nd hj
    rw [List.getElem?_append_left (List.getElem?_eq_some_iff.mp hj).1]
    exact hj
  induction hl with
  | leaf h1 h2 => exact .leaf (hget h1) h2
  | join h1 h2 h3 h4 h5 h6 _ _ ih1 ih2 => exact .join (hget h1) h2 h3 h4 h5 h6 ih1 ih2

theorem LeavesBelow.length_pos {arena : List HtNode} {i : Nat} {l : List (Symbol × Nat)}
    (hl : LeavesBelow arena i l) : 1 ≤ l.length := by
  induction hl with
  | leaf => simp
  | join _ _ _ _ _ _ _ _ ih1 ih2 => simp; omega

/-- "depth at most `n - 1`" (43_tree_builder.md R196). -/
theorem LeavesBelow.depth_lt {arena : List HtNode} {i : Nat} {l : List (Symbol × Nat)}
    (hl : LeavesBelow arena i l) : ∀ p ∈ l, p.2 < l.length := by
  induction hl with
  | leaf => simp
  | join _ _ _ _ _ _ ha hb ih1 ih2 =>
    intro p hp
    rw [List.mem_map] at hp
    obtain ⟨q, hq, rfl⟩ := hp
    have h1 := ha.length_pos
    have h2 := hb.length_pos
    simp only [List.length_map, List.length_append]
    rcases List.mem_append.mp hq with hq | hq
    · have := ih1 q hq
      omega
    · have := ih2 q hq
      omega

/-- The Kraft equality of a full tree (44_canonical.md R214). -/
theorem LeavesBelow.kraft {arena : List HtNode} {i : Nat} {l : List (Symbol × Nat)}
    (hl : LeavesBelow arena i l) : ∀ K, (∀ p ∈ l, p.2 ≤ K) → (l.map (fun p => 2 ^ (K - p.2))).sum = 2 ^ K := by
  induction hl with
  | leaf => intro K _; simp
  | @join i a b nd la lb _ _ _ _ _ _ ha hb ih1 ih2 =>
    intro K hK
    have hpos := ha.length_pos
    obtain ⟨p, hp⟩ := List.exists_mem_of_length_pos (by omega : 0 < la.length)
    have hK1 : p.2 + 1 ≤ K := hK (p.1, p.2 + 1) (List.mem_map.mpr ⟨p, by simp [hp], rfl⟩)
    obtain ⟨k, rfl⟩ : ∃ k, K = k + 1 := ⟨K - 1, by omega⟩
    have hle : ∀ q ∈ la ++ lb, q.2 ≤ k := by
      intro q hq
      have := hK (q.1, q.2 + 1) (List.mem_map.mpr ⟨q, hq, rfl⟩)
      simp only at this
      omega
    have e1 := ih1 k (fun q hq => hle q (by simp [hq]))
    have e2 := ih2 k (fun q hq => hle q (by simp [hq]))
    rw [List.map_map]
    have hf : ((fun p : Symbol × Nat => 2 ^ (k + 1 - p.2)) ∘ fun p : Symbol × Nat => (p.1, p.2 + 1)) =
        fun p : Symbol × Nat => 2 ^ (k - p.2) := by
      funext q
      simp
    rw [hf, List.map_append, List.sum_append, e1, e2, pow_succ]
    ring

/-- A leaf stands at the depth listed for it (43_tree_builder.md R196). -/
theorem LeavesBelow.leafBelow_iff {arena : List HtNode} {i : Nat} {l : List (Symbol × Nat)}
    (hl : LeavesBelow arena i l) : ∀ (sym : Symbol) (d : Nat), LeafBelow arena i sym d ↔ (sym, d) ∈ l := by
  induction hl with
  | @leaf i sym nd h1 h2 =>
    intro sym' d
    constructor
    · intro h
      cases h with
      | here h3 h4 =>
        rw [h1, Option.some.injEq] at h3
        subst h3
        rw [h2, NodeSym.leaf.injEq] at h4
        simp [h4]
      | child0 h3 h4 =>
        rw [h1, Option.some.injEq] at h3
        subst h3
        rw [h2] at h4
        cases h4
      | child1 h3 h4 =>
        rw [h1, Option.some.injEq] at h3
        subst h3
        rw [h2] at h4
        cases h4
    · intro h
      simp only [List.mem_singleton, Prod.mk.injEq] at h
      obtain ⟨rfl, rfl⟩ := h
      exact .here h1 h2
  | @join i a b nd la lb h1 h2 h3 h4 _ _ _ _ ih1 ih2 =>
    intro sym d
    rw [List.mem_map]
    constructor
    · intro h
      cases h with
      | here h5 h6 =>
        rw [h1, Option.some.injEq] at h5
        subst h5
        rw [h2] at h6
        cases h6
      | child0 h5 _ h7 h8 =>
        rw [h1, Option.some.injEq] at h5
        subst h5
        rw [h3, Option.some.injEq] at h7
        subst h7
        exact ⟨(sym, _), by rw [List.mem_append]; exact Or.inl ((ih1 _ _).mp h8), rfl⟩
      | child1 h5 _ h7 h8 =>
        rw [h1, Option.some.injEq] at h5
        subst h5
        rw [h4, Option.some.injEq] at h7
        subst h7
        exact ⟨(sym, _), by rw [List.mem_append]; exact Or.inr ((ih2 _ _).mp h8), rfl⟩
    · rintro ⟨⟨s', d'⟩, hm, he⟩
      simp only [Prod.mk.injEq] at he
      obtain ⟨rfl, rfl⟩ := he
      rcases List.mem_append.mp hm with hm | hm
      · exact .child0 h1 h2 h3 ((ih1 _ _).mpr hm)
      · exact .child1 h1 h2 h4 ((ih2 _ _).mpr hm)

/-- What a traversal writes for one leaf (44_canonical.md R212). -/
def writeDepth (d : Nat) (t : Table Byte) (p : Symbol × Nat) : Table Byte :=
  tblSet t p.1 (BitVec.ofNat 8 (if d + p.2 = 0 then 1 else d + p.2))

/-- A traversal never meets the model's fault and writes every leaf's depth (44_canonical.md R212). -/
theorem visit_spec {arena : List HtNode} {i : Nat} {l : List (Symbol × Nat)} (hl : LeavesBelow arena i l) :
    ∀ (fuel d : Nat) (t : Table Byte), i < fuel → visit arena fuel i d t = .ok (l.foldl (writeDepth d) t) := by
  induction hl with
  | leaf h1 h2 =>
    intro fuel d t hf
    obtain ⟨k, rfl⟩ : ∃ k, fuel = k + 1 := ⟨fuel - 1, by omega⟩
    simp [visit, h1, h2, writeDepth]
  | @join i a b nd la lb h1 h2 h3 h4 h5 h6 _ _ ih1 ih2 =>
    intro fuel d t hf
    obtain ⟨k, rfl⟩ : ∃ k, fuel = k + 1 := ⟨fuel - 1, by omega⟩
    have e : ∀ (x : Table Byte) (p : Symbol × Nat), writeDepth d x (p.1, p.2 + 1) = writeDepth (d + 1) x p := by
      intro x p
      simp only [writeDepth]
      rw [show d + (p.2 + 1) = d + 1 + p.2 by omega]
    simp only [visit, h1, h2, h3, h4, ih1 k (d + 1) t (by omega), ih2 k (d + 1) _ (by omega : b < k),
      List.foldl_map, List.foldl_append, e]

/-- The table a traversal leaves: the depth of each leaf, every other entry as before. -/
theorem foldl_writeDepth (d : Nat) : ∀ (l : List (Symbol × Nat)) (t : Table Byte), (l.map Prod.fst).Nodup →
    (∀ p ∈ l, tblGet (l.foldl (writeDepth d) t) p.1 = BitVec.ofNat 8 (if d + p.2 = 0 then 1 else d + p.2)) ∧
      ∀ a, a ∉ l.map Prod.fst → tblGet (l.foldl (writeDepth d) t) a = tblGet t a := by
  intro l
  induction l with
  | nil => intro t _; simp
  | cons q l ih =>
    intro t hn
    rw [List.map_cons, List.nodup_cons] at hn
    obtain ⟨h1, h2⟩ := ih (writeDepth d t q) hn.2
    refine ⟨?_, ?_⟩
    · intro p hp
      rw [List.foldl_cons]
      rcases List.mem_cons.mp hp with rfl | hp
      · rw [h2 _ hn.1]
        simp [writeDepth]
      · exact h1 p hp
    · intro a ha
      rw [List.map_cons, List.mem_cons, not_or] at ha
      rw [List.foldl_cons, h2 a ha.2, writeDepth, tblGet_tblSet_ne _ _ ha.1]

/-! ### The joined leaves -/

/-- A node is a leaf without children, or has two children that stand before it and add up to its frequency
(43_tree_builder.md R188, R196). -/
def NodeOk (arena : List HtNode) (i : Nat) (nd : HtNode) : Prop :=
  match nd.sym with
  | .leaf _ => nd.c0 = none ∧ nd.c1 = none
  | .internal => ∃ a b na nb, nd.c0 = some a ∧ nd.c1 = some b ∧ a ≠ b ∧ a < i ∧ b < i ∧
      arena[a]? = some na ∧ arena[b]? = some nb ∧ nd.freq.toNat = na.freq.toNat + nb.freq.toNat

theorem NodeOk.mono {arena arena' : List HtNode} (h : arena <+: arena') {i : Nat} {nd : HtNode}
    (ho : NodeOk arena i nd) : NodeOk arena' i nd := by
  obtain ⟨x, rfl⟩ := h
  have hget : ∀ {j : Nat} {nd : HtNode}, arena[j]? = some nd → (arena ++ x)[j]? = some nd := by
    intro j nd hj
    rw [List.getElem?_append_left (List.getElem?_eq_some_iff.mp hj).1]
    exact hj
  unfold NodeOk at *
  split
  next h => simpa [h] using ho
  next h =>
    simp only [h] at ho
    obtain ⟨a, b, na, nb, h1, h2, h3, h4, h5, h6, h7, h8⟩ := ho
    exact ⟨a, b, na, nb, h1, h2, h3, h4, h5, hget h6, hget h7, h8⟩

/-- What holds of the arena and the queue before every turn of the loop of `HT.BUILD`. -/
structure Joining (arena : List HtNode) (q : List QEntry) (syms : List Symbol) (total : Nat) : Prop where
  members : ∃ ls : List (List (Symbol × Nat)),
    List.Forall₂ (fun e l => arena[e.index]? = some e.node ∧ LeavesBelow arena e.index l) q ls ∧
      (ls.flatten.map Prod.fst).Perm syms
  freqs : (q.map (fun e => e.node.freq.toNat)).sum = total
  distinct : (q.map QEntry.index).Nodup
  nodes : ∀ i nd, arena[i]? = some nd → NodeOk arena i nd
  parents : ∀ i, i < arena.length → arena.countP (isParentOf i) = if i ∈ q.map QEntry.index then 0 else 1
  childless : ∀ i, arena.length ≤ i → arena.countP (isParentOf i) = 0

theorem Joining.index_lt {arena : List HtNode} {q : List QEntry} {syms : List Symbol} {total : Nat}
    (h : Joining arena q syms total) {e : QEntry} (he : e ∈ q) : arena[e.index]? = some e.node := by
  obtain ⟨ls, h1, -⟩ := h.members
  clear h
  induction h1 with
  | nil => simp at he
  | cons hab _ ih =>
    rcases List.mem_cons.mp he with rfl | he
    · exact hab.1
    · exact ih he

/-- One turn of the loop: two members joined (43_tree_builder.md R188). -/
theorem joining_step {arena : List HtNode} {q r : List QEntry} {a b : QEntry} {syms : List Symbol} {total : Nat}
    (ht : total < 2 ^ 64) (h : Joining arena q syms total) (hp : (a :: b :: r).Perm q) :
    Joining (arena ++ [joinNode a b]) (r ++ [⟨arena.length, joinNode a b⟩]) syms total := by
  obtain ⟨ls, h1, h2⟩ := h.members
  have ha : a ∈ q := hp.mem_iff.mp (by simp)
  have hb : b ∈ q := hp.mem_iff.mp (by simp)
  have hga := h.index_lt ha
  have hgb := h.index_lt hb
  have hla := (List.getElem?_eq_some_iff.mp hga).1
  have hlb := (List.getElem?_eq_some_iff.mp hgb).1
  have hpre : arena <+: arena ++ [joinNode a b] := List.prefix_append _ _
  have hget : ∀ {j : Nat} {nd : HtNode}, arena[j]? = some nd → (arena ++ [joinNode a b])[j]? = some nd := by
    intro j nd hj
    rw [List.getElem?_append_left (List.getElem?_eq_some_iff.mp hj).1]
    exact hj
  have hnew : (arena ++ [joinNode a b])[arena.length]? = some (joinNode a b) := by simp
  have hdist : ((a :: b :: r).map QEntry.index).Nodup := ((hp.map _).nodup_iff).mpr h.distinct
  have hsum : ((a :: b :: r).map (fun e => e.node.freq.toNat)).sum = total :=
    (hp.map _).sum_eq.trans h.freqs
  simp only [List.map_cons, List.sum_cons] at hsum
  simp only [List.map_cons, List.nodup_cons, List.mem_cons, not_or] at hdist
  have hfreq : (joinNode a b).freq.toNat = a.node.freq.toNat + b.node.freq.toNat := by
    simp only [joinNode, BitVec.toNat_add]
    exact Nat.mod_eq_of_lt (by omega)
  have hmem : ∀ i, i ∈ q.map QEntry.index ↔ i = a.index ∨ i = b.index ∨ i ∈ r.map QEntry.index := by
    intro i
    rw [← (hp.map QEntry.index).mem_iff]
    simp
  have hcount : ∀ i, (arena ++ [joinNode a b]).countP (isParentOf i) =
      arena.countP (isParentOf i) + if i = a.index ∨ i = b.index then 1 else 0 := by
    intro i
    rw [List.countP_append]
    have e1 : (a.index = i) = (i = a.index) := propext eq_comm
    have e2 : (b.index = i) = (i = b.index) := propext eq_comm
    simp [isParentOf, joinNode, e1, e2]
  have hrlt : ∀ e ∈ r, e.index < arena.length := fun e he =>
    (List.getElem?_eq_some_iff.mp (h.index_lt (hp.mem_iff.mp (by simp [he])))).1
  refine ⟨?_, ?_, ?_, ?_, ?_, ?_⟩
  · obtain ⟨ls', h3, h4⟩ := List.perm_comp_forall₂ hp h1
    cases h3 with
    | cons hxa h3 =>
      cases h3 with
      | @cons _ lb _ lr hxb h3 =>
        rename_i la
        refine ⟨lr ++ [(la ++ lb).map (fun p => (p.1, p.2 + 1))], ?_, ?_⟩
        · refine List.rel_append ?_ ?_
          · exact h3.imp (fun e l hel => ⟨hget hel.1, hel.2.mono hpre⟩)
          · refine .cons ⟨hnew, ?_⟩ .nil
            exact .join hnew rfl rfl rfl hla hlb (hxa.2.mono hpre) (hxb.2.mono hpre)
        · have hfl : ((la :: lb :: lr).flatten.map Prod.fst).Perm syms :=
            (h4.flatten.map _).trans h2
          refine List.Perm.trans ?_ hfl
          simp only [List.flatten_append, List.flatten_cons, List.flatten_nil, List.append_nil, List.map_append,
            List.map_map]
          rw [show (Prod.fst ∘ fun p : Symbol × Nat => (p.1, p.2 + 1)) = Prod.fst from rfl,
            ← List.append_assoc (List.map Prod.fst la)]
          exact List.perm_append_comm
  · simp only [List.map_append, List.map_cons, List.map_nil, List.sum_append, List.sum_cons, List.sum_nil, hfreq]
    omega
  · rw [List.map_append, List.nodup_append]
    refine ⟨hdist.2.2, by simp, ?_⟩
    intro x hx y hy
    rw [List.mem_map] at hx
    obtain ⟨e, he, rfl⟩ := hx
    simp only [List.map_cons, List.map_nil, List.mem_singleton] at hy
    have := hrlt e he
    omega
  · intro i nd hi
    rcases Nat.lt_or_ge i arena.length with hil | hil
    · rw [List.getElem?_append_left hil] at hi
      exact (h.nodes i nd hi).mono hpre
    · have hilt := (List.getElem?_eq_some_iff.mp hi).1
      simp only [List.length_append, List.length_singleton] at hilt
      have : i = arena.length := by omega
      subst this
      rw [hnew, Option.some.injEq] at hi
      subst hi
      exact ⟨a.index, b.index, a.node, b.node, rfl, rfl, hdist.1.1, hla, hlb, hget hga, hget hgb, hfreq⟩
  · intro i hi
    rw [hcount]
    simp only [List.length_append, List.length_singleton] at hi
    simp only [List.map_append, List.map_cons, List.map_nil, List.mem_append, List.mem_singleton]
    rcases Nat.lt_or_ge i arena.length with hil | hil
    · rw [h.parents i hil]
      have hne : i ≠ arena.length := by omega
      simp only [hmem, hne, or_false]
      by_cases hia : i = a.index
      · subst hia
        simp [hdist.1.2]
      · by_cases hib : i = b.index
        · subst hib
          simp [hdist.2.1]
        · simp [hia, hib]
    · have : i = arena.length := by omega
      subst this
      rw [h.childless _ le_rfl]
      have h1 : arena.length ≠ a.index := by omega
      have h2 : arena.length ≠ b.index := by omega
      simp [h1, h2]
  · intro i hi
    simp only [List.length_append, List.length_singleton] at hi
    rw [hcount, h.childless i (by omega)]
    have h1 : i ≠ a.index := by omega
    have h2 : i ≠ b.index := by omega
    simp [h1, h2]

/-- The loop of `HT.BUILD`, whole: `n + 1` turns join `n + 2` members into one tree whose root is the last node
(43_tree_builder.md R188, R195, R196). -/
theorem joinLoop_spec {syms : List Symbol} {total : Nat} (ht : total < 2 ^ 64) :
    ∀ (n turns : Nat) (arena : List HtNode) (q : List QEntry), q.length = n + 2 → n + 2 ≤ turns →
    Joining arena q syms total →
    ∃ root, arena <+: joinLoop turns arena q ∧ (joinLoop turns arena q).length = arena.length + n + 1 ∧
      root.sym = .internal ∧
      Joining (joinLoop turns arena q) [⟨(joinLoop turns arena q).length - 1, root⟩] syms total := by
  intro n
  induction n with
  | zero =>
    intro turns arena q hq hturns h
    obtain ⟨k, rfl⟩ : ∃ k, turns = k + 1 := ⟨turns - 1, by omega⟩
    obtain ⟨x, y, rfl⟩ : ∃ x y, q = [x, y] := List.length_eq_two.mp (by omega)
    have hp := popMin_perm x [y]
    have hl := popMin_length x [y]
    simp only [joinLoop]
    rcases hpm : popMin x [y] with ⟨a, rest⟩
    rw [hpm] at hp hl
    simp only [List.length_singleton] at hl
    obtain ⟨b, rfl⟩ := List.length_eq_one_iff.mp hl
    have hj := joining_step ht h hp
    have hone : joinLoop k (arena ++ [joinNode a b]) [⟨arena.length, joinNode a b⟩] = arena ++ [joinNode a b] := by
      cases k <;> simp [joinLoop, popMin]
    simp only [popMin, List.nil_append, hone]
    refine ⟨joinNode a b, List.prefix_append _ _, by simp, rfl, ?_⟩
    simpa using hj
  | succ n ih =>
    intro turns arena q hq hturns h
    obtain ⟨k, rfl⟩ : ∃ k, turns = k + 1 := ⟨turns - 1, by omega⟩
    cases q with
    | nil => simp at hq
    | cons x q =>
      have hp := popMin_perm x q
      have hl := popMin_length x q
      simp only [List.length_cons] at hq
      simp only [joinLoop]
      rcases hpm : popMin x q with ⟨a, rest⟩
      rw [hpm] at hp hl
      cases rest with
      | nil =>
        simp only [List.length_nil] at hl
        omega
      | cons y r =>
        simp only [List.length_cons] at hl
        have hp2 := popMin_perm y r
        have hl2 := popMin_length y r
        rcases hpm2 : popMin y r with ⟨b, r'⟩
        rw [hpm2] at hp2 hl2
        have hj := joining_step ht h ((hp2.cons a).trans hp)
        simp only [hpm2]
        obtain ⟨root, h1, h2, h3, h4⟩ := ih k (arena ++ [joinNode a b]) (r' ++ [⟨arena.length, joinNode a b⟩])
          (by simp only [List.length_append, List.length_singleton]; simp only at hl2; omega) (by omega) hj
        refine ⟨root, (List.prefix_append _ _).trans h1, ?_, h3, h4⟩
        rw [h2]
        simp only [List.length_append, List.length_singleton]
        omega

/-! ### The build -/

/-- The leaves, before the first turn. -/
theorem joining_leaves (freq : Table Word64) :
    Joining ((presentByFreq freq).map (leafNode freq)) (leafQueue ((presentByFreq freq).map (leafNode freq)))
      (presentByFreq freq) (totalFreq freq) := by
  generalize hps : presentByFreq freq = ps
  have hlen : (leafQueue (ps.map (leafNode freq))).length = ps.length := by simp [leafQueue]
  have hq : ∀ i (h : i < ps.length), (leafQueue (ps.map (leafNode freq)))[i]'(by rw [hlen]; exact h) =
      ⟨i, leafNode freq ps[i]⟩ := by
    intro i h
    simp [leafQueue]
  have hidx : (leafQueue (ps.map (leafNode freq))).map QEntry.index = List.range ps.length := by
    apply List.ext_getElem
    · simp [leafQueue]
    · intro i h1 h2
      simp [leafQueue]
  have hno : ∀ i, (ps.map (leafNode freq)).countP (isParentOf i) = 0 := by
    intro i
    rw [List.countP_eq_zero]
    intro nd hnd
    rw [List.mem_map] at hnd
    obtain ⟨s, -, rfl⟩ := hnd
    simp [isParentOf, leafNode]
  refine ⟨?_, ?_, ?_, ?_, ?_, fun i _ => hno i⟩
  · refine ⟨ps.map (fun s => [(s, 0)]), ?_, ?_⟩
    · rw [List.forall₂_iff_get]
      refine ⟨by simp [hlen], ?_⟩
      intro i h1 h2
      have hi : i < ps.length := by rw [← hlen]; exact h1
      simp only [List.get_eq_getElem, hq i hi, List.getElem_map]
      refine ⟨by simp [hi], ?_⟩
      exact .leaf (nd := leafNode freq ps[i]) (by simp [hi]) rfl
    · have : ((ps.map (fun s => [(s, 0)])).flatten.map Prod.fst) = ps := by
        clear hps hlen hq hidx hno
        induction ps with
        | nil => rfl
        | cons s ps ih => simpa using ih
      rw [this]
  · have : (leafQueue (ps.map (leafNode freq))).map (fun e => e.node.freq.toNat) =
        ps.map (fun s => (tblGet freq s).toNat) := by
      apply List.ext_getElem
      · simp [leafQueue]
      · intro i h1 h2
        simp [leafQueue, leafNode]
    rw [this, totalFreq, hps]
  · rw [hidx]
    exact List.nodup_range
  · intro i nd hi
    have := List.mem_of_getElem? hi
    rw [List.mem_map] at this
    obtain ⟨s, -, rfl⟩ := this
    exact ⟨rfl, rfl⟩
  · intro i hi
    rw [hno, hidx]
    simp only [List.length_map] at hi
    simp [hi]

/-- The tree over two or more present symbols, whole (43_tree_builder.md R188, R195, R196). -/
theorem buildTree_spec {freq : Table Word64} (ht : totalFreq freq < 2 ^ 64)
    (hn : 2 ≤ (presentByFreq freq).length) :
    ∃ arena root l, buildTree freq = (arena, some (arena.length - 1)) ∧
      arena.length + 1 = 2 * (presentByFreq freq).length ∧
      LeavesBelow arena (arena.length - 1) l ∧ (l.map Prod.fst).Perm (presentByFreq freq) ∧
      arena[arena.length - 1]? = some root ∧ root.sym = .internal ∧ root.freq.toNat = totalFreq freq ∧
      (∀ i nd, arena[i]? = some nd → NodeOk arena i nd) ∧
      ∀ i, i < arena.length → arena.countP (isParentOf i) = if i = arena.length - 1 then 0 else 1 := by
  have hj := joining_leaves freq
  obtain ⟨n, hn2⟩ : ∃ n, (presentByFreq freq).length = n + 2 := ⟨_, (Nat.sub_add_cancel hn).symm⟩
  obtain ⟨root, -, h2, h3, h4⟩ := joinLoop_spec ht n ((presentByFreq freq).map (leafNode freq)).length _ _
    (by simp [leafQueue, hn2]) (by simp [hn2]) hj
  have hb : buildTree freq =
      (joinLoop ((presentByFreq freq).map (leafNode freq)).length ((presentByFreq freq).map (leafNode freq))
          (leafQueue ((presentByFreq freq).map (leafNode freq))),
        some ((joinLoop ((presentByFreq freq).map (leafNode freq)).length
          ((presentByFreq freq).map (leafNode freq))
          (leafQueue ((presentByFreq freq).map (leafNode freq)))).length - 1)) := by
    unfold buildTree
    split
    next h => simp [h] at hn2
    next h => simp [h] at hn2
    next p p' ps h => simp only [h]
  generalize joinLoop ((presentByFreq freq).map (leafNode freq)).length ((presentByFreq freq).map (leafNode freq))
    (leafQueue ((presentByFreq freq).map (leafNode freq))) = arena at *
  obtain ⟨ls, h5, h6⟩ := h4.members
  cases h5 with
  | @cons _ l _ ls hl h5 =>
    cases h5
    refine ⟨arena, root, l, hb, ?_, hl.2, by simpa using h6, hl.1, h3, by simpa using h4.freqs, h4.nodes, ?_⟩
    · simp only [List.length_map] at h2
      omega
    · intro i hi
      rw [h4.parents i hi]
      simp

theorem buildTree_none {freq : Table Word64} (h : presentByFreq freq = []) : buildTree freq = ([], none) := by
  simp [buildTree, h]

theorem buildTree_one {freq : Table Word64} {p : Symbol} (h : presentByFreq freq = [p]) :
    buildTree freq = ([leafNode freq p, { freq := tblGet freq p, sym := .internal, c0 := some 0, c1 := none }],
      some 1) := by
  simp [buildTree, h]

/-- The arena never exceeds `HT_CAP`, and the root is in it (43_tree_builder.md R195). -/
theorem buildTree_size {freq : Table Word64} (ht : totalFreq freq < 2 ^ 64) :
    (buildTree freq).1.length ≤ Config.htCap ∧
      ∀ r, (buildTree freq).2 = some r → r < (buildTree freq).1.length := by
  have hle := presentByFreq_length_le freq
  rcases hp : presentByFreq freq with _ | ⟨p, _ | ⟨p', ps⟩⟩
  · simp [buildTree_none hp, Config.htCap]
  · simp [buildTree_one hp, Config.htCap]
  · obtain ⟨arena, root, l, h1, h2, -⟩ := buildTree_spec ht (by rw [hp]; simp)
    rw [h1]
    refine ⟨by unfold Config.htCap; simp only; omega, ?_⟩
    intro r hr
    simp only [Option.some.injEq] at hr
    simp only
    rw [hp] at h2
    simp only [List.length_cons] at h2
    omega

/-- The extracted lengths: the depth of each present symbol's leaf, 1 to 255, and 0 for an absent symbol; their Kraft
sum is 1 for two or more symbols (44_canonical.md R212, R214). -/
theorem extractLengths_spec {freq : Table Word64} (ht : totalFreq freq < 2 ^ 64) :
    ∃ t, extractLengths (buildTree freq).1 (buildTree freq).2 = .ok t ∧
      (∀ a, tblGet freq a = 0#64 → tblGet t a = 0#8) ∧
      (∀ a, tblGet freq a ≠ 0#64 → 1 ≤ (tblGet t a).toNat ∧
        ∃ r, (buildTree freq).2 = some r ∧ LeafBelow (buildTree freq).1 r a (tblGet t a).toNat) ∧
      presentByLen t = presentByFreq freq ∧
      kraft t = if (presentByFreq freq).length = 0 then 0
        else if (presentByFreq freq).length = 1 then 2 ^ 254 else 2 ^ 255 := by
  have hle := presentByFreq_length_le freq
  have hmemf : ∀ a, a ∈ presentByFreq freq ↔ tblGet freq a ≠ 0#64 := fun a => mem_presentByFreq
  have hpres : ∀ t : Table Byte, (∀ a, tblGet freq a = 0#64 → tblGet t a = 0#8) →
      (∀ a, tblGet freq a ≠ 0#64 → 1 ≤ (tblGet t a).toNat) → presentByLen t = presentByFreq freq := by
    intro t h1 h2
    refine sorted_symbols_eq (presentByLen_sorted t) (presentByFreq_sorted freq) ?_
    intro a
    rw [mem_presentByLen, mem_presentByFreq]
    constructor
    · intro h h0
      rw [h1 a h0] at h
      exact h rfl
    · intro h
      have := h2 a h
      omega
  rcases hp : presentByFreq freq with _ | ⟨p, _ | ⟨p', ps⟩⟩
  · have hall : ∀ a, tblGet freq a = 0#64 := by
      intro a
      by_contra h
      have := (hmemf a).mpr h
      rw [hp] at this
      simp at this
    have he : presentByLen (tblFill 0#8 : Table Byte) = [] := by
      rw [← hp]
      exact hpres _ (by simp) (fun a h => absurd (hall a) h)
    refine ⟨tblFill 0#8, by rw [buildTree_none hp]; rfl, by simp, fun a h => absurd (hall a) h, he, ?_⟩
    simp [Sys2Proof.kraft, he]
  · have hiff : ∀ a, tblGet freq a ≠ 0#64 ↔ a = p := by
      intro a
      rw [← hmemf, hp, List.mem_singleton]
    have hex : extractLengths (buildTree freq).1 (buildTree freq).2 = .ok (tblSet (tblFill 0#8) p 1#8) := by
      rw [buildTree_one hp]
      simp [extractLengths, visit, leafNode]
    have h0 : ∀ a, tblGet freq a = 0#64 → tblGet (tblSet (tblFill 0#8) p 1#8 : Table Byte) a = 0#8 := by
      intro a ha
      rw [tblGet_tblSet_ne, tblGet_tblFill]
      rintro rfl
      exact (hiff a).mpr rfl ha
    have h1 : ∀ a, tblGet freq a ≠ 0#64 → tblGet (tblSet (tblFill 0#8) p 1#8 : Table Byte) a = 1#8 := by
      intro a ha
      rw [(hiff a).mp ha]
      simp
    have he : presentByLen (tblSet (tblFill 0#8) p 1#8 : Table Byte) = [p] := by
      rw [← hp]
      exact hpres _ h0 (fun a ha => by rw [h1 a ha]; decide)
    refine ⟨_, hex, h0, ?_, he, ?_⟩
    · intro a ha
      rw [h1 a ha, buildTree_one hp]
      refine ⟨by decide, 1, rfl, ?_⟩
      have hap := (hiff a).mp ha
      subst hap
      exact .child0 (c := 0) (by rfl) rfl rfl (.here (nd := leafNode freq a) (by rfl) rfl)
    · rw [Sys2Proof.kraft, he]
      simp
  · rw [← hp]
    obtain ⟨arena, root, l, h1, h2, h3, h4, -⟩ := buildTree_spec ht (by rw [hp]; simp)
    have hn : (l.map Prod.fst).Nodup := h4.nodup_iff.mpr (presentByFreq_nodup freq)
    have hll : l.length = (presentByFreq freq).length := by simpa using h4.length_eq
    have hlen2 : 2 ≤ l.length := by rw [hll, hp]; simp
    have hdep := h3.depth_lt
    obtain ⟨w1, w2⟩ := foldl_writeDepth 0 l (tblFill 0#8) hn
    have hpos : ∀ q ∈ l, 1 ≤ q.2 := by
      intro q hq
      by_contra hq0
      have hq0 : q.2 = 0 := by omega
      cases h3 with
      | leaf => simp at hlen2
      | join =>
        rw [List.mem_map] at hq
        obtain ⟨x, -, rfl⟩ := hq
        simp at hq0
    have hval : ∀ q ∈ l, (tblGet (l.foldl (writeDepth 0) (tblFill 0#8)) q.1).toNat = q.2 := by
      intro q hq
      have e1 := hpos q hq
      have e2 := hdep q hq
      rw [w1 q hq, if_neg (by omega), BitVec.toNat_ofNat]
      simp only [Nat.zero_add]
      exact Nat.mod_eq_of_lt (by omega)
    have hex : extractLengths (buildTree freq).1 (buildTree freq).2 = .ok (l.foldl (writeDepth 0) (tblFill 0#8)) := by
      rw [h1]
      refine visit_spec h3 _ 0 _ ?_
      simp only
      omega
    have h0 : ∀ a, tblGet freq a = 0#64 → tblGet (l.foldl (writeDepth 0) (tblFill 0#8)) a = 0#8 := by
      intro a ha
      rw [w2 a, tblGet_tblFill]
      rw [h4.mem_iff, hmemf]
      simpa using ha
    have hin : ∀ a, tblGet freq a ≠ 0#64 → ∃ d, (a, d) ∈ l := by
      intro a ha
      rw [← hmemf, ← h4.mem_iff, List.mem_map] at ha
      obtain ⟨⟨s, d⟩, hq, rfl⟩ := ha
      exact ⟨d, hq⟩
    have hge : ∀ a, tblGet freq a ≠ 0#64 → 1 ≤ (tblGet (l.foldl (writeDepth 0) (tblFill 0#8)) a).toNat := by
      intro a ha
      obtain ⟨d, hq⟩ := hin a ha
      rw [hval _ hq]
      exact hpos _ hq
    have he := hpres _ h0 hge
    refine ⟨_, hex, h0, ?_, he, ?_⟩
    · intro a ha
      refine ⟨hge a ha, arena.length - 1, by rw [h1], ?_⟩
      obtain ⟨d, hq⟩ := hin a ha
      rw [h1, hval _ hq]
      exact (h3.leafBelow_iff a d).mpr hq
    · rw [if_neg (by omega), if_neg (by omega), Sys2Proof.kraft, he]
      rw [← (h4.map _).sum_eq, List.map_map, ← h3.kraft 255 (fun q hq => by have := hdep q hq; omega)]
      congr 1
      apply List.map_congr_left
      intro q hq
      simp only [Function.comp]
      rw [hval q hq]

end Sys2Proof.Machine
end

