-- ==== Sys2Proof/Laws/Legal.lean ====
section
/-! SUPPORT. What keeps a state legal: each lemma says it once for one unit's part of the state, the rest being as
before, and one says it for a transition of the decoder (spec/10_state.md). -/

namespace Sys2Proof.Machine

open Sys2Proof

theorem decodeActive_iff (s : State) :
    decodeActive s = true ↔ s.tdState = .atRoot ∨ s.tdState = .descending := by
  unfold decodeActive
  cases s.tdState <;> simp

/-- A decoder at rest is legal wherever it stands in the arena. -/
theorem decoderOk_resting {t : State} (h : decodeActive t = false)
    (hc : t.tdCur = 0 ∨ t.tdCur < t.trNodes.length) : DecoderOk t := by
  have hn : ¬ (t.tdState = .atRoot ∨ t.tdState = .descending) := by
    rw [← decodeActive_iff, h]
    simp
  have ha : ¬ decodeActive t = true := by simp [h]
  exact ⟨fun h' => absurd (Or.inl h') hn, fun h' => absurd (Or.inr h') hn, fun h' => absurd h' ha,
    fun h' => absurd h' ha, hc⟩

/-- A state that agrees with a legal one on everything the invariants read is legal; the size register may change
while no decode is under way (45_decoder.md R250). -/
theorem legal_congr {s t : State} (h : Legal s)
    (cap : t.mbCap = s.mbCap) (fault : t.fault = .ok ∨ isFaultCode t.fault = true)
    (writer : t.bwAcc = s.bwAcc ∧ t.bwCnt = s.bwCnt) (reader : t.srcPos = s.srcPos ∧ t.src = s.src)
    (buffer : t.mbBytes = s.mbBytes ∧ t.mbAcc = s.mbAcc ∧ t.mbCnt = s.mbCnt ∧ t.mbLvb = s.mbLvb ∧
      t.mbFlushed = s.mbFlushed)
    (tree : t.freq = s.freq ∧ t.htNodes = s.htNodes ∧ t.htRoot = s.htRoot ∧ t.htNSym = s.htNSym ∧
      t.htBuilt = s.htBuilt)
    (codes : t.len = s.len ∧ t.code = s.code ∧ t.ccNSym = s.ccNSym ∧ t.ccValid = s.ccValid ∧
      t.trValid = s.trValid ∧ t.trNodes = s.trNodes)
    (decoder : t.tdState = s.tdState ∧ t.tdCur = s.tdCur ∧ t.tdCount = s.tdCount ∧
      (t.tdSize = s.tdSize ∨ decodeActive s = false)) : Legal t := by
  obtain ⟨h1, h2, h3, h4, h5, h6, h7⟩ := h
  obtain ⟨a1, a2⟩ := writer
  obtain ⟨a3, a4⟩ := reader
  obtain ⟨b1, b2, b3, b4, b5⟩ := buffer
  obtain ⟨c1, c2, c3, c4, c5⟩ := tree
  obtain ⟨d1, d2, d3, d4, d5, d6⟩ := codes
  obtain ⟨f1, f2, f3, f4⟩ := decoder
  have hda : decodeActive t = decodeActive s := by unfold decodeActive; rw [f1]
  refine ⟨by rw [cap]; exact h1, fault, by unfold WriterOk at *; rwa [a1, a2], by unfold ReaderOk at *; rwa [a3, a4],
    ?_, ?_, ?_⟩
  · obtain ⟨g1, g2, g3, g4, g5, g6, g7⟩ := h5
    exact ⟨by rwa [b2, b3], by rwa [b1, cap], by rwa [b3, b1, cap], by rwa [b5, b4], by rwa [b5, b3],
      by rwa [b5, b4, b1], by rwa [b5, b1, b4]⟩
  · obtain ⟨g1, g2, g3, g4, g5, g6, g7, g8⟩ := h6
    exact ⟨by rwa [c5, c1, c2, c3, c4], by rwa [c2], by rwa [c3, c2], by rwa [c4], by rwa [d4, d1, d2, d3],
      by rwa [d3], by rwa [d5, d4, d1, d2, d6], by rwa [d6]⟩
  · obtain ⟨g1, g2, g3, g4, g5⟩ := h7
    refine ⟨by rwa [f1, f2], by rwa [f1, f2, d6], ?_, by rwa [hda, d6], by rwa [f2, d6]⟩
    intro ha
    rw [hda] at ha
    rcases f4 with f4 | f4
    · rw [f3, f4]
      exact g3 ha
    · rw [f4] at ha
      cases ha

theorem legal_status {s : State} (h : Legal s) (c : Code) : Legal { s with status := c } :=
  legal_congr h rfl h.faultCode ⟨rfl, rfl⟩ ⟨rfl, rfl⟩ ⟨rfl, rfl, rfl, rfl, rfl⟩ ⟨rfl, rfl, rfl, rfl, rfl⟩
    ⟨rfl, rfl, rfl, rfl, rfl, rfl⟩ ⟨rfl, rfl, rfl, .inl rfl⟩

theorem legal_cmds {s : State} (h : Legal s) (cs : List Cmd) : Legal { s with cmds := cs } :=
  legal_congr h rfl h.faultCode ⟨rfl, rfl⟩ ⟨rfl, rfl⟩ ⟨rfl, rfl, rfl, rfl, rfl⟩ ⟨rfl, rfl, rfl, rfl, rfl⟩
    ⟨rfl, rfl, rfl, rfl, rfl, rfl⟩ ⟨rfl, rfl, rfl, .inl rfl⟩

theorem legal_result {s : State} (h : Legal s) (r : Word64) (n : Fin 65) :
    Legal { s with res := r, resCnt := n } :=
  legal_congr h rfl h.faultCode ⟨rfl, rfl⟩ ⟨rfl, rfl⟩ ⟨rfl, rfl, rfl, rfl, rfl⟩ ⟨rfl, rfl, rfl, rfl, rfl⟩
    ⟨rfl, rfl, rfl, rfl, rfl, rfl⟩ ⟨rfl, rfl, rfl, .inl rfl⟩

theorem legal_endFault {s : State} (h : Legal s) {c : Code} (hc : isFaultCode c = true) : Legal (endFault c s) := by
  refine legal_congr h rfl ?_ ⟨rfl, rfl⟩ ⟨rfl, rfl⟩ ⟨rfl, rfl, rfl, rfl, rfl⟩ ⟨rfl, rfl, rfl, rfl, rfl⟩
    ⟨rfl, rfl, rfl, rfl, rfl, rfl⟩ ⟨rfl, rfl, rfl, .inl rfl⟩
  simp only [endFault]
  split
  · exact .inr hc
  · exact h.faultCode

theorem legal_tdEnd {s : State} (h : Legal s) (last : Option Byte) (cause : Cause) : Legal (tdEnd last cause s) := by
  have := legal_result h (tdResult last (s.tdState == .done) cause) s.resCnt
  unfold tdEnd
  simp only
  split
  · exact legal_endFault this rfl
  · split
    · exact legal_endFault this rfl
    · exact legal_status this _

/-- The writer's part (10_state.md R29). -/
theorem legal_writer {s t : State} (h : Legal s) (hw : WriterOk t)
    (ht : t = { s with bwAcc := t.bwAcc, bwCnt := t.bwCnt, sink := t.sink }) (pad : Fin 8) (c : Code) :
    Legal { t with bwPad := pad, status := c } := by
  rw [ht]
  obtain ⟨h1, h2, h3, h4, h5, h6, h7⟩ := h
  exact ⟨h1, h2, hw, h4, ⟨h5.1, h5.2, h5.3, h5.4, h5.5, h5.6, h5.7⟩,
    ⟨h6.1, h6.2, h6.3, h6.4, h6.5, h6.6, h6.7, h6.8⟩, ⟨h7.1, h7.2, h7.3, h7.4, h7.5⟩⟩

/-- The reader's part (10_state.md R33). -/
theorem legal_reader {s t : State} (h : Legal s) (hr : ReaderOk t) (ht : ReaderMoved s t) (r : Word64)
    (n : Fin 65) (c : Code) : Legal { t with res := r, resCnt := n, status := c } := by
  unfold ReaderMoved at ht
  rw [ht] at hr ⊢
  obtain ⟨h1, h2, h3, h4, h5, h6, h7⟩ := h
  exact ⟨h1, h2, h3, hr, ⟨h5.1, h5.2, h5.3, h5.4, h5.5, h5.6, h5.7⟩,
    ⟨h6.1, h6.2, h6.3, h6.4, h6.5, h6.6, h6.7, h6.8⟩, ⟨h7.1, h7.2, h7.3, h7.4, h7.5⟩⟩

/-- The buffer's part (10_state.md R34, R35). -/
theorem legal_buffer {s t : State} (h : Legal s) (hb : BufferOk t)
    (ht : t = { s with
      mbBytes := t.mbBytes, mbAcc := t.mbAcc, mbCnt := t.mbCnt, mbLvb := t.mbLvb, mbFlushed := t.mbFlushed })
    (c : Code) : Legal { t with status := c } := by
  have hb' : BufferOk { t with status := c } := ⟨hb.1, hb.2, hb.3, hb.4, hb.5, hb.6, hb.7⟩
  rw [ht] at hb' ⊢
  obtain ⟨h1, h2, h3, h4, h5, h6, h7⟩ := h
  exact ⟨h1, h2, h3, h4, hb', ⟨h6.1, h6.2, h6.3, h6.4, h6.5, h6.6, h6.7, h6.8⟩, ⟨h7.1, h7.2, h7.3, h7.4, h7.5⟩⟩

/-- The decoder's part (10_state.md R44). -/
theorem legal_decoder {s t : State} (h : Legal s)
    (ht : t = { s with
      brCur := t.brCur, brRem := t.brRem, srcPos := t.srcPos, tdCur := t.tdCur, tdState := t.tdState,
      tdCount := t.tdCount, dout := t.dout, crcState := t.crcState })
    (hr : ReaderOk t) (hd : DecoderOk t) : Legal t := by
  rw [ht] at hr hd ⊢
  obtain ⟨h1, h2, h3, h4, h5, h6, h7⟩ := h
  exact ⟨h1, h2, h3, hr, ⟨h5.1, h5.2, h5.3, h5.4, h5.5, h5.6, h5.7⟩,
    ⟨h6.1, h6.2, h6.3, h6.4, h6.5, h6.6, h6.7, h6.8⟩, hd⟩

/-- In a legal state with a valid trie the arena is labelled: nodes are the prefixes of the codewords, leaves the
codewords (45_decoder.md R241). -/
theorem legal_labels {s : State} (h : Legal s) (ht : s.trValid = true) :
    assignCodes s.len = some s.code ∧ s.trNodes ≠ [] ∧ ∃ paths,
      Labels s.trNodes paths (leafAfter (codewordIn s.len s.code) (canonOrder s.len) (fun _ => none)) ∧
      ∀ q, q ∈ paths ↔ q = [] ∨ ∃ a, (tblGet s.len a).toNat ≠ 0 ∧ q <+: codewordIn s.len s.code a := by
  obtain ⟨hcc, htr⟩ := h.tables.trie ht
  obtain ⟨hasg, -⟩ := h.tables.codes hcc
  obtain ⟨arena, paths, g1, g2, g3, -, g5⟩ := buildTrie_spec s.len s.code
  rw [g1, Except.ok.injEq] at htr
  subst htr
  exact ⟨hasg, g5, paths, g2, g3⟩

/-- A decode under way in a legal state. -/
structure Decoding (s : State) : Prop where
  legal : Legal s
  trie : s.trValid = true
  active : decodeActive s = true

/-- One transition of a decode in a legal state: no model fault, and every outcome is legal (45_decoder.md R255). -/
theorem decoding_walk {s : State} (h : Decoding s) :
    (∀ f, tdWalk s ≠ .outside f) ∧ (∀ t, tdWalk s = .moved t → Decoding t) ∧
      (∀ b t, tdWalk s = .emitted b t → Legal t ∧ (t.tdState = .atRoot → Decoding t)) ∧
      ∀ cause t, tdWalk s = .corrupt cause t → Legal t := by
  obtain ⟨hl, ht, ha⟩ := h
  obtain ⟨-, hne, paths, g2, -⟩ := legal_labels hl ht
  have hlt : s.tdCur < s.trNodes.length := by
    rcases hl.decoder.cur with h | h
    · rw [h]
      exact List.length_pos_of_ne_nil hne
    · exact h
  obtain ⟨p, hp⟩ : ∃ p, paths[s.tdCur]? = some p :=
    ⟨_, List.getElem?_eq_getElem (by rw [g2.size]; exact hlt)⟩
  have hcnt := hl.decoder.count ha
  rcases tdWalk_spec g2 hp hl.reader with ⟨w1, w2⟩ | ⟨b, bs, t, w1, w2, w3, w4, w5⟩
  · rw [w2]
    refine ⟨fun f => by simp, fun t => by simp, fun b t => by simp, ?_⟩
    intro c t e
    simp only [Walk.corrupt.injEq] at e
    obtain ⟨-, rfl⟩ := e
    exact legal_decoder hl rfl hl.reader (decoderOk_resting rfl hl.decoder.cur)
  · unfold ReaderMoved at w4
    have q1 : t.trNodes = s.trNodes := by rw [w4]
    have q2 : t.tdCur = s.tdCur := by rw [w4]
    have q3 : t.tdCount = s.tdCount := by rw [w4]
    have q4 : t.tdSize = s.tdSize := by rw [w4]
    have q5 : t.trValid = s.trValid := by rw [w4]
    rcases w5 with ⟨-, w5⟩ | ⟨byte, w5, w6, w7⟩ | ⟨ch, nd, v1, v2, v3, v4, v5⟩
    · rw [w5]
      refine ⟨fun f => by simp, fun t => by simp, fun b t => by simp, ?_⟩
      intro c u e
      simp only [Walk.corrupt.injEq] at e
      obtain ⟨-, rfl⟩ := e
      refine legal_decoder hl (by rw [w4]) w3 (decoderOk_resting rfl ?_)
      simp only [q1, q2]
      exact hl.decoder.cur
    · rw [w7]
      refine ⟨fun f => by simp, fun t => by simp, ?_, fun b t => by simp⟩
      intro c u e
      simp only [Walk.emitted.injEq] at e
      obtain ⟨-, rfl⟩ := e
      by_cases hc : t.tdCount + 1#64 = t.tdSize
      · rw [tdLeaf_last hc]
        refine ⟨legal_decoder hl (by rw [w4]) w3 (decoderOk_resting ?_ (Or.inl rfl)), ?_⟩
        · by_cases hf : crcFinal (crcByte t.crcState byte) = t.tdXcrc
          · simp only [decodeActive, hf, if_true]
          · simp only [decodeActive, hf, if_false]
        · intro h'
          simp only at h'
          split at h' <;> cases h'
      · rw [tdLeaf_more hc]
        have hL : Legal { t with
            dout := t.dout ++ [byte], crcState := crcByte t.crcState byte, tdCount := t.tdCount + 1#64, tdCur := 0,
            tdState := .atRoot } := by
          refine legal_decoder hl (by rw [w4]) w3 ⟨by simp, by simp, ?_, ?_, by simp⟩
          · intro _
            simp only [q3, q4]
            rw [q3, q4] at hc
            have h2 : (s.tdCount + 1#64).toNat = s.tdCount.toNat + 1 := by
              rw [BitVec.toNat_add]
              have := s.tdSize.isLt
              simp only [BitVec.toNat_ofNat]
              omega
            rw [h2]
            have : (s.tdCount + 1#64).toNat ≠ s.tdSize.toNat := fun e => hc (BitVec.eq_of_toNat_eq e)
            omega
          · intro _
            simp only [q1]
            exact hne
        exact ⟨hL, fun _ => ⟨hL, by simp only [q5]; exact ht, rfl⟩⟩
    · rw [v5]
      refine ⟨fun f => by simp, ?_, fun b t => by simp, fun c t => by simp⟩
      intro u e
      simp only [Walk.moved.injEq] at e
      subst e
      have hch : ch ≠ 0 := by
        rintro rfl
        rw [g2.root] at v1
        simp at v1
      refine ⟨legal_decoder hl (by rw [w4]) w3 ⟨by simp, ?_, ?_, ?_, ?_⟩, by simp only [q5]; exact ht, rfl⟩
      · intro _
        exact ⟨hch, nd, by simp only [q1]; exact v2, v3⟩
      · intro _
        simp only [q3, q4]
        exact hcnt
      · intro _
        simp only [q1]
        exact hne
      · right
        simp only [q1]
        exact (List.getElem?_eq_some_iff.mp v2).1

end Sys2Proof.Machine
end

