-- ==== Sys2Proof/Laws/PerInstr.lean ====
section
/-! SUPPORT. One lemma for each command: its word meets exactly one row of the opcode map, of its own kind, and decodes
to it (spec/30_encoding.md R90 to R95). -/

namespace Sys2Proof.Laws.TableRow

open Sys2Proof Sys2Proof.Machine

/-- The rows of an operation byte (30_encoding.md R94). -/
def rowsOf (op : Byte) : List OpcodeRow := opcodeTable.filter (fun r => opOf r.pattern == op)

/-- A command's operation byte has one row in the table, of the command's kind, which holds of its word; the word
decodes to the command; a command that uses no `WDATA` is written with 0 there (30_encoding.md R92 to R95). -/
def Statement (i : Instr) : Prop :=
  i.wf = true →
    (∃ r, rowsOf (opOf (encode i).word) = [r] ∧ r.kind = argKind i ∧ r.holds (encode i).word = true) ∧
      decode (encode i) = .ok i ∧ (usesWdata i = false → (encode i).wdata = 0#64)

/-- `{op, arg}` has the operation in its high byte (30_encoding.md R90). -/
@[simp] theorem opOf_wordOf (op arg : Byte) : opOf (wordOf op arg) = op := by
  ext i hi
  have h : ¬ 8 + i < 8 := by omega
  simp only [opOf, wordOf, BitVec.getElem_extractLsb']
  exact BitVec.getLsbD_append.trans (by simp [h, hi])

/-- `{op, arg}` has the operand in its low byte (30_encoding.md R90). -/
@[simp] theorem argOf_wordOf (op arg : Byte) : argOf (wordOf op arg) = arg := by
  ext i hi
  simp only [argOf, wordOf, BitVec.getElem_extractLsb']
  exact BitVec.getLsbD_append.trans (by simp [hi])

/-- The operand bits of `WDATA` come back (30_encoding.md R93). -/
@[simp] theorem low32_setWidth (v : Word32) : (v.setWidth 64).extractLsb' 0 32 = v := by
  ext i hi
  simp only [BitVec.getElem_extractLsb', BitVec.getLsbD_setWidth, Nat.zero_add, hi, BitVec.getLsbD_eq_getElem,
    Bool.and_eq_right_iff_imp, decide_eq_true_eq]
  intro _
  omega

/-- The operand byte of `WDATA` comes back (30_encoding.md R93). -/
@[simp] theorem low8_setWidth (v : Byte) : (v.setWidth 64).extractLsb' 0 8 = v := by
  ext i hi
  simp only [BitVec.getElem_extractLsb', BitVec.getLsbD_setWidth, Nat.zero_add, hi, BitVec.getLsbD_eq_getElem,
    Bool.and_eq_right_iff_imp, decide_eq_true_eq]
  intro _
  omega

theorem sysNop : Statement (.sysNop) := by
  intro _
  exact ⟨⟨⟨0xFFFF#16, 0x0000#16, .none⟩, by rw [encode, opOf_wordOf]; rfl, rfl, rfl⟩,
    by simp [decode, encode, argNone], fun _ => rfl⟩

theorem sysRst : Statement (.sysRst) := by
  intro _
  exact ⟨⟨⟨0xFFFF#16, 0x0100#16, .none⟩, by rw [encode, opOf_wordOf]; rfl, rfl, rfl⟩,
    by simp [decode, encode, argNone], fun _ => rfl⟩

theorem sysClrf : Statement (.sysClrf) := by
  intro _
  exact ⟨⟨⟨0xFFFF#16, 0x0200#16, .none⟩, by rw [encode, opOf_wordOf]; rfl, rfl, rfl⟩,
    by simp [decode, encode, argNone], fun _ => rfl⟩

theorem crcInit : Statement (.crcInit) := by
  intro _
  exact ⟨⟨⟨0xFFFF#16, 0x1000#16, .none⟩, by rw [encode, opOf_wordOf]; rfl, rfl, rfl⟩,
    by simp [decode, encode, argNone], fun _ => rfl⟩

theorem crcUpd (b : Byte) : Statement (.crcUpd b) := by
  intro _
  have h : ∀ a : Byte, OpcodeRow.holds ⟨0xFF00#16, 0x1100#16, .byte⟩ (wordOf 0x11#8 a) = true := by decide +kernel
  exact ⟨⟨_, by rw [encode, opOf_wordOf]; rfl, rfl, h b⟩, by simp [decode, encode], fun _ => rfl⟩

theorem crcFin : Statement (.crcFin) := by
  intro _
  exact ⟨⟨⟨0xFFFF#16, 0x1200#16, .none⟩, by rw [encode, opOf_wordOf]; rfl, rfl, rfl⟩,
    by simp [decode, encode, argNone], fun _ => rfl⟩

theorem crcSet (v : Word32) : Statement (.crcSet v) := by
  intro _
  exact ⟨⟨⟨0xFFFF#16, 0x1300#16, .none⟩, by rw [encode, opOf_wordOf]; rfl, rfl, by simp only [encode]; decide +kernel⟩,
    by simp [decode, encode, argNone], fun h => absurd h (by simp [usesWdata])⟩

theorem bwRst : Statement (.bwRst) := by
  intro _
  exact ⟨⟨⟨0xFFFF#16, 0x2000#16, .none⟩, by rw [encode, opOf_wordOf]; rfl, rfl, rfl⟩,
    by simp [decode, encode, argNone], fun _ => rfl⟩

theorem bwPut (b : Bool) : Statement (.bwPut b) := by
  intro _
  have h : ∀ c : Bool, OpcodeRow.holds ⟨0xFFFE#16, 0x2100#16, .bit⟩ (wordOf 0x21#8 (bitArg c)) = true := by decide +kernel
  exact ⟨⟨_, by rw [encode, opOf_wordOf]; rfl, rfl, h b⟩, by cases b <;> rfl, fun _ => rfl⟩

theorem bwFlush : Statement (.bwFlush) := by
  intro _
  exact ⟨⟨⟨0xFFFF#16, 0x2200#16, .none⟩, by rw [encode, opOf_wordOf]; rfl, rfl, rfl⟩,
    by simp [decode, encode, argNone], fun _ => rfl⟩

theorem bwPutsym (sym : Symbol) : Statement (.bwPutsym sym) := by
  intro _
  have h : ∀ a : Byte, OpcodeRow.holds ⟨0xFF00#16, 0x2300#16, .symbol⟩ (wordOf 0x23#8 a) = true := by decide +kernel
  exact ⟨⟨_, by rw [encode, opOf_wordOf]; rfl, rfl, h sym⟩, by simp [decode, encode], fun _ => rfl⟩

theorem brRst : Statement (.brRst) := by
  intro _
  exact ⟨⟨⟨0xFFFF#16, 0x3000#16, .none⟩, by rw [encode, opOf_wordOf]; rfl, rfl, rfl⟩,
    by simp [decode, encode, argNone], fun _ => rfl⟩

theorem brGet : Statement (.brGet) := by
  intro _
  exact ⟨⟨⟨0xFFFF#16, 0x3100#16, .none⟩, by rw [encode, opOf_wordOf]; rfl, rfl, rfl⟩,
    by simp [decode, encode, argNone], fun _ => rfl⟩

theorem brGetn (n : Byte) : Statement (.brGetn n) := by
  intro hwf
  have hn : countOk n = true := hwf
  have h : ∀ a : Byte, countOk a = true → OpcodeRow.holds ⟨0xFF00#16, 0x3200#16, .count⟩ (wordOf 0x32#8 a) = true := by
    decide +kernel
  exact ⟨⟨_, by rw [encode, opOf_wordOf]; rfl, rfl, h n hn⟩, by simp [decode, encode, argCount, hn], fun _ => rfl⟩

theorem brSeek (p : Word64) : Statement (.brSeek p) := by
  intro _
  exact ⟨⟨⟨0xFFFF#16, 0x3300#16, .none⟩, by rw [encode, opOf_wordOf]; rfl, rfl, by simp only [encode]; decide +kernel⟩,
    by simp [decode, encode, argNone], fun h => absurd h (by simp [usesWdata])⟩

theorem mbRst : Statement (.mbRst) := by
  intro _
  exact ⟨⟨⟨0xFFFF#16, 0x4000#16, .none⟩, by rw [encode, opOf_wordOf]; rfl, rfl, rfl⟩,
    by simp [decode, encode, argNone], fun _ => rfl⟩

theorem mbPut (b : Bool) : Statement (.mbPut b) := by
  intro _
  have h : ∀ c : Bool, OpcodeRow.holds ⟨0xFFFE#16, 0x4100#16, .bit⟩ (wordOf 0x41#8 (bitArg c)) = true := by decide +kernel
  exact ⟨⟨_, by rw [encode, opOf_wordOf]; rfl, rfl, h b⟩, by cases b <;> rfl, fun _ => rfl⟩

theorem mbFlush : Statement (.mbFlush) := by
  intro _
  exact ⟨⟨⟨0xFFFF#16, 0x4200#16, .none⟩, by rw [encode, opOf_wordOf]; rfl, rfl, rfl⟩,
    by simp [decode, encode, argNone], fun _ => rfl⟩

theorem mbPutsym (sym : Symbol) : Statement (.mbPutsym sym) := by
  intro _
  have h : ∀ a : Byte, OpcodeRow.holds ⟨0xFF00#16, 0x4300#16, .symbol⟩ (wordOf 0x43#8 a) = true := by decide +kernel
  exact ⟨⟨_, by rw [encode, opOf_wordOf]; rfl, rfl, h sym⟩, by simp [decode, encode], fun _ => rfl⟩

theorem mbReplay : Statement (.mbReplay) := by
  intro _
  exact ⟨⟨⟨0xFFFF#16, 0x4400#16, .none⟩, by rw [encode, opOf_wordOf]; rfl, rfl, rfl⟩,
    by simp [decode, encode, argNone], fun _ => rfl⟩

theorem fqClr : Statement (.fqClr) := by
  intro _
  exact ⟨⟨⟨0xFFFF#16, 0x5000#16, .none⟩, by rw [encode, opOf_wordOf]; rfl, rfl, rfl⟩,
    by simp [decode, encode, argNone], fun _ => rfl⟩

theorem fqSet (sym : Symbol) (n : Word64) : Statement (.fqSet sym n) := by
  intro _
  have h : ∀ a : Byte, OpcodeRow.holds ⟨0xFF00#16, 0x5100#16, .symbol⟩ (wordOf 0x51#8 a) = true := by decide +kernel
  exact ⟨⟨_, by rw [encode, opOf_wordOf]; rfl, rfl, h sym⟩, by simp [decode, encode], fun h => absurd h (by simp [usesWdata])⟩

theorem fqInc (sym : Symbol) : Statement (.fqInc sym) := by
  intro _
  have h : ∀ a : Byte, OpcodeRow.holds ⟨0xFF00#16, 0x5200#16, .symbol⟩ (wordOf 0x52#8 a) = true := by decide +kernel
  exact ⟨⟨_, by rw [encode, opOf_wordOf]; rfl, rfl, h sym⟩, by simp [decode, encode], fun _ => rfl⟩

theorem htBuild : Statement (.htBuild) := by
  intro _
  exact ⟨⟨⟨0xFFFF#16, 0x5300#16, .none⟩, by rw [encode, opOf_wordOf]; rfl, rfl, rfl⟩,
    by simp [decode, encode, argNone], fun _ => rfl⟩

theorem clClr : Statement (.clClr) := by
  intro _
  exact ⟨⟨⟨0xFFFF#16, 0x6000#16, .none⟩, by rw [encode, opOf_wordOf]; rfl, rfl, rfl⟩,
    by simp [decode, encode, argNone], fun _ => rfl⟩

theorem clSet (sym : Symbol) (l : Byte) : Statement (.clSet sym l) := by
  intro _
  have h : ∀ a : Byte, OpcodeRow.holds ⟨0xFF00#16, 0x6100#16, .symbol⟩ (wordOf 0x61#8 a) = true := by decide +kernel
  exact ⟨⟨_, by rw [encode, opOf_wordOf]; rfl, rfl, h sym⟩, by simp [decode, encode], fun h => absurd h (by simp [usesWdata])⟩

theorem clExtract : Statement (.clExtract) := by
  intro _
  exact ⟨⟨⟨0xFFFF#16, 0x6200#16, .none⟩, by rw [encode, opOf_wordOf]; rfl, rfl, rfl⟩,
    by simp [decode, encode, argNone], fun _ => rfl⟩

theorem ccAssign : Statement (.ccAssign) := by
  intro _
  exact ⟨⟨⟨0xFFFF#16, 0x6300#16, .none⟩, by rw [encode, opOf_wordOf]; rfl, rfl, rfl⟩,
    by simp [decode, encode, argNone], fun _ => rfl⟩

theorem trBuild : Statement (.trBuild) := by
  intro _
  exact ⟨⟨⟨0xFFFF#16, 0x7000#16, .none⟩, by rw [encode, opOf_wordOf]; rfl, rfl, rfl⟩,
    by simp [decode, encode, argNone], fun _ => rfl⟩

theorem tdSetsize (n : Word64) : Statement (.tdSetsize n) := by
  intro _
  exact ⟨⟨⟨0xFFFF#16, 0x7100#16, .none⟩, by rw [encode, opOf_wordOf]; rfl, rfl, by simp only [encode]; decide +kernel⟩,
    by simp [decode, encode, argNone], fun h => absurd h (by simp [usesWdata])⟩

theorem tdSetcrc (v : Word32) : Statement (.tdSetcrc v) := by
  intro _
  exact ⟨⟨⟨0xFFFF#16, 0x7200#16, .none⟩, by rw [encode, opOf_wordOf]; rfl, rfl, by simp only [encode]; decide +kernel⟩,
    by simp [decode, encode, argNone], fun h => absurd h (by simp [usesWdata])⟩

theorem tdStart : Statement (.tdStart) := by
  intro _
  exact ⟨⟨⟨0xFFFF#16, 0x7300#16, .none⟩, by rw [encode, opOf_wordOf]; rfl, rfl, rfl⟩,
    by simp [decode, encode, argNone], fun _ => rfl⟩

theorem tdStep : Statement (.tdStep) := by
  intro _
  exact ⟨⟨⟨0xFFFF#16, 0x7400#16, .none⟩, by rw [encode, opOf_wordOf]; rfl, rfl, rfl⟩,
    by simp [decode, encode, argNone], fun _ => rfl⟩

theorem tdRun : Statement (.tdRun) := by
  intro _
  exact ⟨⟨⟨0xFFFF#16, 0x7500#16, .none⟩, by rw [encode, opOf_wordOf]; rfl, rfl, rfl⟩,
    by simp [decode, encode, argNone], fun _ => rfl⟩

end Sys2Proof.Laws.TableRow
end

