-- ==== Sys2Proof/Tests/Slice0.lean ====
section
/-! SUPPORT. The model's own tests: what the checks refuse, a word written out for every command, one step with the
result the spec's tables give (spec/95_test_vectors.md and the tables of rules R230 and R270), and a witness for the
hypotheses of every statement. -/

namespace Sys2Proof.Tests

set_option Elab.async false

open Sys2Proof Sys2Proof.Machine

/-! ### Small states -/

/-- A field of the next state; none where there is none. -/
def after {α : Type} (f : State → α) : Result → Option α
  | .next t => some (f t)
  | .fault _ => none
  | .refused _ => none

theorem next_of_after {α : Type} {f : State → α} {r : Result} {v : α} (h : after f r = some v) :
    ∃ t, r = .next t ∧ f t = v := by
  cases r with
  | next t => exact ⟨t, rfl, by simpa [after] using h⟩
  | fault _ => simp [after] at h
  | refused _ => simp [after] at h

/-- The reset state with room for four bytes in the buffer (95_test_vectors.md P3). -/
def base : State := { State.reset with mbCap := 4 }

/-- Lengths `A`:1, `B`:1 (44_canonical.md R230, first row). -/
def lensAB : Table Byte := tblSet (tblSet (tblFill 0#8) 0x41#8 1#8) 0x42#8 1#8

/-- Codes `A` 0, `B` 1 (44_canonical.md R230, first row). -/
def codesAB : Table CodeValue := tblSet (tblFill 0#255) 0x42#8 1#255

/-- The trie of 45_decoder.md R270 row a. -/
def trieAB : List TrNode :=
  [⟨some 1, some 2, none⟩, ⟨none, none, some 0x41#8⟩, ⟨none, none, some 0x42#8⟩]

/-- The counts of the source's scenario (95_test_vectors.md S1). -/
def countsAB : Table Word64 := tblSet (tblSet (tblFill 0#64) 0x41#8 3#64) 0x42#8 1#64

/-- The arena of 95_test_vectors.md V3.1. -/
def arenaAB : List HtNode :=
  [⟨3#64, .leaf 0x41#8, none, none⟩, ⟨1#64, .leaf 0x42#8, none, none⟩, ⟨4#64, .internal, some 1, some 0⟩]

/-- `A` and `B` have codewords. -/
def coded : State := { base with len := lensAB, code := codesAB, ccNSym := 2, ccValid := true }

/-- A decode set up on the payload of the scenario (95_test_vectors.md P2). -/
def ready : State :=
  { coded with
    src := [0x10#8], trNodes := trieAB, trValid := true, tdSize := 4#64, tdXcrc := 0x0204594B#32 }

/-- The decode under way. -/
def running : State := { ready with tdState := .atRoot }

/-- The decode with one byte to come and the first three bits read. -/
def nearEnd : State :=
  { running with
    brCur := 0x10#8, brRem := 5, srcPos := 1#64, tdCount := 3#64, crcState := 0x995FCE58#32,
    dout := [0x41#8, 0x41#8, 0x41#8] }

/-- The tree of the scenario built. -/
def built : State :=
  { base with freq := countsAB, htNodes := arenaAB, htRoot := some 2, htNSym := 2, htBuilt := true }

/-- A flushed buffer of nine one bits (95_test_vectors.md V2.13). -/
def flushed : State := { base with mbBytes := [0xFF#8, 0x80#8], mbLvb := 1, mbFlushed := true }

/-- A table whose total is 2^64 (95_test_vectors.md V3.12). -/
def overfull : State :=
  { base with freq := tblSet (tblSet (tblFill 0#64) 0x41#8 0xFFFFFFFFFFFFFFFF#64) 0x42#8 1#64 }

/-- Three symbols of length 1 (44_canonical.md R230). -/
def overSubscribed : State := { base with len := tblSet lensAB 0x43#8 1#8 }

/-- `a`, `b`, `c`, `d` and `f` once each (95_test_vectors.md V3.4). -/
def tie : State :=
  { base with freq := tblSet (tblSet (tblSet (tblSet (tblSet (tblFill 0#64) 0x61#8 1#64) 0x62#8 1#64) 0x63#8 1#64)
      0x64#8 1#64) 0x66#8 1#64 }

/-- Lengths a:1, b:3, c:3, d:3, r:3 (44_canonical.md R230). -/
def lensAbra : Table Byte :=
  tblSet (tblSet (tblSet (tblSet (tblSet (tblFill 0#8) 0x61#8 1#8) 0x62#8 3#8) 0x63#8 3#8) 0x64#8 3#8) 0x72#8 3#8

/-- Codes a 0, b 100, c 101, d 110, r 111 (44_canonical.md R230). -/
def codesAbra : Table CodeValue :=
  tblSet (tblSet (tblSet (tblSet (tblFill 0#255) 0x62#8 4#255) 0x63#8 5#255) 0x64#8 6#255) 0x72#8 7#255

/-- The codes of `abracadabra`. -/
def abra : State := { base with len := lensAbra, code := codesAbra, ccNSym := 5, ccValid := true }

/-! ### Checks and decoding -/

theorem test_wf_refuses_count_0 : (Instr.brGetn 0#8).wf = false := by decide

theorem test_wf_refuses_count_65 : (Instr.brGetn 65#8).wf = false := by decide

theorem test_wf_takes_1_and_64 : (Instr.brGetn 1#8).wf = true ∧ (Instr.brGetn 64#8).wf = true := by decide

/-- The illegal words of 95_test_vectors.md V6.1. -/
theorem test_illegal_words : [0x0001#16, 0x0300#16, 0x1400#16, 0x2102#16, 0x2400#16, 0x3200#16, 0x3241#16, 0x32FF#16,
    0x3400#16, 0x4102#16, 0x4500#16, 0x5301#16, 0x53FF#16, 0x5400#16, 0x6400#16, 0x7001#16, 0x7600#16, 0x8000#16,
    0xFFFF#16].all (fun w => (decode ⟨w, 0#64⟩).toOption.isNone) = true := by decide +kernel

theorem test_illegal_by_name : decode ⟨0x8000#16, 0#64⟩ = .error (.unknownOp 0x80#8) ∧
    decode ⟨0x2102#16, 0#64⟩ = .error (.badArg 0x21#8 0x02#8) := by decide +kernel

theorem test_decode_sys : decode ⟨0b0000000000000000#16, 7#64⟩ = .ok .sysNop ∧
    decode ⟨0b0000000100000000#16, 7#64⟩ = .ok .sysRst ∧
    decode ⟨0b0000001000000000#16, 7#64⟩ = .ok .sysClrf := by decide +kernel

theorem test_decode_crc : decode ⟨0b0001000000000000#16, 7#64⟩ = .ok .crcInit ∧
    decode ⟨0b0001000101000001#16, 7#64⟩ = .ok (.crcUpd 0x41#8) ∧
    decode ⟨0b0001001000000000#16, 7#64⟩ = .ok .crcFin ∧
    decode ⟨0b0001001100000000#16, 0x12345678DEADBEEF#64⟩ = .ok (.crcSet 0xDEADBEEF#32) := by decide +kernel

theorem test_decode_bw : decode ⟨0b0010000000000000#16, 7#64⟩ = .ok .bwRst ∧
    decode ⟨0b0010000100000001#16, 7#64⟩ = .ok (.bwPut true) ∧
    decode ⟨0b0010000100000000#16, 7#64⟩ = .ok (.bwPut false) ∧
    decode ⟨0b0010001000000000#16, 7#64⟩ = .ok .bwFlush ∧
    decode ⟨0b0010001101000010#16, 7#64⟩ = .ok (.bwPutsym 0x42#8) := by decide +kernel

theorem test_decode_br : decode ⟨0b0011000000000000#16, 7#64⟩ = .ok .brRst ∧
    decode ⟨0b0011000100000000#16, 7#64⟩ = .ok .brGet ∧
    decode ⟨0b0011001000000001#16, 7#64⟩ = .ok (.brGetn 1#8) ∧
    decode ⟨0b0011001001000000#16, 7#64⟩ = .ok (.brGetn 64#8) ∧
    decode ⟨0b0011001100000000#16, 273#64⟩ = .ok (.brSeek 273#64) := by decide +kernel

theorem test_decode_mb : decode ⟨0b0100000000000000#16, 7#64⟩ = .ok .mbRst ∧
    decode ⟨0b0100000100000001#16, 7#64⟩ = .ok (.mbPut true) ∧
    decode ⟨0b0100001000000000#16, 7#64⟩ = .ok .mbFlush ∧
    decode ⟨0b0100001101100001#16, 7#64⟩ = .ok (.mbPutsym 0x61#8) ∧
    decode ⟨0b0100010000000000#16, 7#64⟩ = .ok .mbReplay := by decide +kernel

theorem test_decode_fq_ht : decode ⟨0b0101000000000000#16, 7#64⟩ = .ok .fqClr ∧
    decode ⟨0b0101000111111111#16, 7#64⟩ = .ok (.fqSet 0xFF#8 7#64) ∧
    decode ⟨0b0101001001000001#16, 7#64⟩ = .ok (.fqInc 0x41#8) ∧
    decode ⟨0b0101001100000000#16, 7#64⟩ = .ok .htBuild := by decide +kernel

theorem test_decode_cl_cc : decode ⟨0b0110000000000000#16, 7#64⟩ = .ok .clClr ∧
    decode ⟨0b0110000101000001#16, 0x1234567801#64⟩ = .ok (.clSet 0x41#8 1#8) ∧
    decode ⟨0b0110001000000000#16, 7#64⟩ = .ok .clExtract ∧
    decode ⟨0b0110001100000000#16, 7#64⟩ = .ok .ccAssign := by decide +kernel

theorem test_decode_tr_td : decode ⟨0b0111000000000000#16, 7#64⟩ = .ok .trBuild ∧
    decode ⟨0b0111000100000000#16, 7#64⟩ = .ok (.tdSetsize 7#64) ∧
    decode ⟨0b0111001000000000#16, 0xAAAAAAAA0204594B#64⟩ = .ok (.tdSetcrc 0x0204594B#32) ∧
    decode ⟨0b0111001100000000#16, 7#64⟩ = .ok .tdStart ∧
    decode ⟨0b0111010000000000#16, 7#64⟩ = .ok .tdStep ∧
    decode ⟨0b0111010100000000#16, 7#64⟩ = .ok .tdRun := by decide +kernel

/-- The encodings of 95_test_vectors.md P2 and V2.11 as text (30_encoding.md R105). -/
theorem test_encoding_text : encodingText (.tdSetcrc 0x0204594B#32) = "7200 W=204594B" ∧
    encodingText (.brSeek 273#64) = "3300 W=111" ∧ encodingText .tdRun = "7500" := by decide +kernel

/-- The first instruction after reset, on the words the host reads. -/
theorem test_table_word : decodeTableWord 16 0x2101 = some (.bwPut true) ∧ decodeTableWord 16 0x2102 = none ∧
    after (fun t => (t.bwAcc, t.bwCnt)) (step (State.reset.withFetchWord 16 0x2101)) = some (1#8, 1) := by
  decide +kernel

/-! ### System and checksum -/

theorem test_sysNop : after (fun t => (t.status, t.fault))
    (exec .sysNop { base with status := .integrity, fault := .integrity }) = some (.ok, .integrity) := by
  decide +kernel

theorem test_sysRst : after (fun t => (t.fault, t.dout, t.crcState, t.src)) (exec .sysRst { nearEnd with fault := .corrupt }) =
    some (.ok, [], 0xFFFFFFFF#32, [0x10#8]) := by decide +kernel

theorem test_sysClrf : after (fun t => (t.status, t.fault, t.tdState))
    (exec .sysClrf { base with fault := .integrity, tdState := .failed }) = some (.ok, .ok, .failed) := by
  decide +kernel

/-- V1.4. -/
theorem test_crcInit : after (fun t => (t.crcState, t.res))
    (exec .crcInit { base with crcState := 0x2C266174#32, res := 9#64 }) = some (0xFFFFFFFF#32, 9#64) := by
  decide +kernel

/-- V1.1. -/
theorem test_crcUpd : after State.crcState (exec (.crcUpd 0x41#8) base) = some 0x2C266174#32 := by decide +kernel

/-- V1.2. -/
theorem test_crcUpd_rows : crcByte 0#32 0#8 = 0#32 ∧ crcByte 0#32 1#8 = 0x77073096#32 ∧
    crcByte 0#32 0x80#8 = 0xEDB88320#32 ∧ crcByte 0xFFFFFFFF#32 0#8 = 0x2DFD1072#32 ∧
    crcByte 0xFFFFFFFF#32 0xFF#8 = 0x00FFFFFF#32 := by decide +kernel

/-- V1.1. -/
theorem test_crcFin : after (fun t => (t.res, t.crcState)) (exec .crcFin { base with crcState := 0x2C266174#32 }) =
    some (0xD3D99E8B#64, 0x2C266174#32) := by decide +kernel

/-- V1.4. -/
theorem test_crcSet : after State.crcState (exec (.crcSet 0xDEADBEEF#32) base) = some 0xDEADBEEF#32 := by
  decide +kernel

/-! ### Writer -/

/-- V2.4. -/
theorem test_bwRst : after (fun t => (t.bwAcc, t.bwCnt, t.bwPad, t.sink))
    (exec .bwRst { base with bwAcc := 7#8, bwCnt := 3, bwPad := 5, sink := [0xB2#8, 0x80#8] }) =
    some (0#8, 0, 0, [0xB2#8, 0x80#8]) := by decide +kernel

/-- V2.1, the eighth bit. -/
theorem test_bwPut_eighth : after (fun t => (t.bwAcc, t.bwCnt, t.sink))
    (exec (.bwPut false) { base with bwAcc := 0b1011001#8, bwCnt := 7 }) = some (0#8, 0, [0xB2#8]) := by
  decide +kernel

/-- V2.6 and V2.3, a second flush. -/
theorem test_bwFlush : after (fun t => (t.bwAcc, t.bwCnt, t.bwPad, t.sink))
      (exec .bwFlush { base with bwAcc := 1#8, bwCnt := 4 }) = some (0#8, 0, 4, [0x10#8]) ∧
    after (fun t => (t.bwPad, t.sink)) (exec .bwFlush { base with bwPad := 7, sink := [0x80#8] }) =
      some (0, [0x80#8]) := by decide +kernel

/-- V4.16. -/
theorem test_bwPutsym : after (fun t => (t.status, t.bwAcc, t.bwCnt)) (exec (.bwPutsym 0x62#8) abra) =
    some (.ok, 0b100#8, 3) := by decide +kernel

/-- V4.16. -/
theorem test_bwPutsym_refused : after State.status (exec (.bwPutsym 0x61#8) base) = some .seq ∧
    after State.status (exec (.bwPutsym 0x65#8) abra) = some .noCode := by decide +kernel

/-! ### Reader -/

theorem test_brRst : after (fun t => (t.brCur, t.brRem, t.srcPos))
    (exec .brRst { base with src := [0xA5#8], brCur := 0xA5#8, brRem := 5, srcPos := 1#64 }) =
    some (0#8, 0, 0#64) := by decide +kernel

/-- V2.7, the fourth bit. -/
theorem test_brGet : after (fun t => (t.res, t.brCur, t.brRem, t.srcPos))
    (exec .brGet { base with src := [0x10#8], brCur := 0x10#8, brRem := 5, srcPos := 1#64 }) =
    some (1#64, 0x10#8, 4, 1#64) := by decide +kernel

/-- V2.7, the first and the ninth. -/
theorem test_brGet_edges : after (fun t => (t.res, t.brCur, t.brRem, t.srcPos)) (exec .brGet { base with src := [0x10#8] }) =
      some (0#64, 0x10#8, 7, 1#64) ∧
    after (fun t => (t.status, t.fault, t.res)) (exec .brGet { base with src := [0x10#8], srcPos := 1#64, res := 9#64 }) =
      some (.noData, .ok, 9#64) := by decide +kernel

/-- V2.8. -/
theorem test_brGetn : after (fun t => (t.status, t.res, t.resCnt, t.brRem)) (exec (.brGetn 3#8) { base with src := [0xA5#8] }) =
      some (.ok, 5#64, 3, 5) ∧
    after (fun t => (t.status, t.res, t.resCnt, t.brRem))
      (exec (.brGetn 8#8) { base with src := [0xA5#8], brCur := 0xA5#8, brRem := 5, srcPos := 1#64 }) =
      some (.noData, 5#64, 5, 0) := by decide +kernel

/-- V2.9. -/
theorem test_brGetn_64 : after (fun t => (t.res, t.resCnt, t.brRem, t.srcPos)) (exec (.brGetn 64#8)
    { base with src := [1#8, 2#8, 3#8, 4#8, 5#8, 6#8, 7#8, 8#8, 9#8] }) =
    some (0x0102030405060708#64, 64, 0, 8#64) := by decide +kernel

/-- V2.11. -/
theorem test_brSeek : after (fun t => (t.status, t.srcPos)) (exec (.brSeek 1#64) { base with src := [0xA5#8] }) =
      some (.ok, 1#64) ∧
    after (fun t => (t.status, t.srcPos)) (exec (.brSeek 2#64) { base with src := [0xA5#8] }) =
      some (.range, 0#64) := by decide +kernel

/-! ### Buffer -/

theorem test_mbRst : after (fun t => (t.mbBytes, t.mbLvb, t.mbFlushed)) (exec .mbRst flushed) =
    some ([], 0, false) := by decide +kernel

/-- V2.15, the sixteenth bit, and the next. -/
theorem test_mbPut : after (fun t => (t.status, t.mbBytes, t.mbCnt))
      (exec (.mbPut true) { base with mbCap := 2, mbBytes := [0#8], mbCnt := 7 }) =
      some (.ok, [0#8, 1#8], 0) ∧
    after State.status (exec (.mbPut true) { base with mbCap := 2, mbBytes := [0#8, 1#8] }) =
      some .capacity := by decide +kernel

/-- V2.13 and V2.14. -/
theorem test_mbFlush : after (fun t => (t.mbBytes, t.mbCnt, t.mbLvb, t.mbFlushed))
      (exec .mbFlush { base with mbBytes := [0xFF#8], mbAcc := 1#8, mbCnt := 1 }) =
      some ([0xFF#8, 0x80#8], 0, 1, true) ∧
    after (fun t => (t.mbBytes, t.mbLvb)) (exec .mbFlush { base with mbBytes := [0xFF#8] }) =
      some ([0xFF#8], 8) := by decide +kernel

/-- V2.12. -/
theorem test_mbFlush_edges : after (fun t => (t.status, t.mbLvb, t.mbFlushed)) (exec .mbFlush base) = some (.ok, 0, true) ∧
    after State.status (exec .mbFlush flushed) = some .seq := by decide +kernel

/-- V4.16. -/
theorem test_mbPutsym : after (fun t => (t.status, t.mbAcc, t.mbCnt))
    (exec (.mbPutsym 0x62#8) { abra with mbCap := 1, mbAcc := 0b100#8, mbCnt := 3 }) =
    some (.ok, 0b100100#8, 6) := by decide +kernel

/-- V4.16. -/
theorem test_mbPutsym_refused :
    after State.status (exec (.mbPutsym 0x65#8) { abra with mbCap := 1 }) = some .noCode ∧
    after (fun t => (t.status, t.mbCnt)) (exec (.mbPutsym 0x63#8) { abra with mbCap := 1, mbAcc := 0b100100#8, mbCnt := 6 }) =
      some (.capacity, 6) := by decide +kernel

/-- V2.13. -/
theorem test_mbReplay : after (fun t => (t.sink, t.bwAcc, t.bwCnt, t.mbBytes))
    (exec .mbReplay { flushed with bwAcc := 1#8, bwCnt := 4 }) =
    some ([0x1F#8], 0b11111#8, 5, [0xFF#8, 0x80#8]) := by decide +kernel

/-- V2.12. -/
theorem test_mbReplay_refused : after State.status (exec .mbReplay base) = some .seq := by decide +kernel

/-! ### Frequencies and tree -/

theorem test_fqClr : after (fun t => (freqOf t 0x41#8, t.htBuilt, t.htRoot)) (exec .fqClr built) =
    some (0#64, false, some 2) := by decide +kernel

/-- V3.13. -/
theorem test_fqSet : after (fun t => (freqOf t 0x42#8, freqOf t 0x41#8, t.htBuilt)) (exec (.fqSet 0x42#8 0#64) built) =
    some (0#64, 3#64, false) := by decide +kernel

/-- P1 and V3.12. -/
theorem test_fqInc : after (fun t => (t.status, freqOf t 0x41#8)) (exec (.fqInc 0x41#8) built) = some (.ok, 4#64) ∧
    after (fun t => (t.status, freqOf t 0x41#8)) (exec (.fqInc 0x41#8) overfull) =
      some (.overflow, 0xFFFFFFFFFFFFFFFF#64) := by decide +kernel

/-- V3.1. -/
theorem test_htBuild : after (fun t => (t.htNodes, t.htRoot, t.htNSym, t.htBuilt)) (exec .htBuild { base with freq := countsAB }) =
    some (arenaAB, some 2, 2, true) := by
  simp only [exec, execHtBuild, buildTree, totalFreq, presentByFreq_scan]
  decide +kernel

/-- V3.4: the third pair is leaf f and the older internal node. -/
theorem test_htBuild_tie : after (fun t => (t.htNodes.drop 5, t.htRoot)) (exec .htBuild tie) =
    some ([⟨2#64, .internal, some 0, some 1⟩, ⟨2#64, .internal, some 2, some 3⟩, ⟨3#64, .internal, some 4, some 5⟩,
      ⟨5#64, .internal, some 6, some 7⟩], some 8) := by
  simp only [exec, execHtBuild, buildTree, totalFreq, presentByFreq_scan]
  decide +kernel

/-! ### Lengths and codes -/

theorem test_clClr : after (fun t => (lenOf t 0x41#8, t.ccValid, t.trValid, codeOf t 0x42#8)) (exec .clClr ready) =
    some (0, false, false, 1#255) := by decide +kernel

/-- V4.17. -/
theorem test_clSet : after (fun t => (lenOf t 0x41#8, t.ccValid, t.trValid)) (exec (.clSet 0x41#8 1#8) ready) =
    some (1, false, false) := by decide +kernel

/-- V3.1. -/
theorem test_clExtract : after (fun t => [0#8, 0x41#8, 0x42#8, 0x43#8].map (lenOf t)) (exec .clExtract built) =
    some [0, 1, 1, 0] := by decide +kernel

/-- V3.13. -/
theorem test_clExtract_refused : after State.status (exec .clExtract base) = some .seq := by decide +kernel

/-- R230, the third row. -/
theorem test_ccAssign : after (fun t => (t.status, t.ccNSym, t.ccValid, [0x61#8, 0x62#8, 0x63#8, 0x64#8, 0x72#8].map (codeOf t)))
    (exec .ccAssign { base with len := lensAbra }) =
    some (.ok, 5, true, [0#255, 4#255, 5#255, 6#255, 7#255]) := by
  simp only [exec, execCcAssign, assignCodes, canonOrder, presentByLen_scan]
  decide +kernel

/-- V4.11. -/
theorem test_ccAssign_fault : after (fun t => (t.status, t.fault, t.ccValid, t.ccNSym, codeOf t 0x42#8)) (exec .ccAssign overSubscribed) =
    some (.badLen, .badLen, false, 3, 0#255) := by
  simp only [exec, execCcAssign, assignCodes, canonOrder, presentByLen_scan]
  decide +kernel

/-! ### Trie and decoder -/

/-- R270, row a. -/
theorem test_trBuild : after (fun t => (t.trNodes, t.trValid, t.tdState)) (exec .trBuild coded) =
    some (trieAB, true, .idle) := by
  simp only [exec, execTrBuild, buildTrie, canonOrder, presentByLen_scan]
  decide +kernel

/-- R270, row c. -/
theorem test_trBuild_abra : after State.trNodes (exec .trBuild abra) =
    some [⟨some 1, some 2, none⟩, ⟨none, none, some 0x61#8⟩, ⟨some 3, some 6, none⟩, ⟨some 4, some 5, none⟩,
      ⟨none, none, some 0x62#8⟩, ⟨none, none, some 0x63#8⟩, ⟨some 7, some 8, none⟩, ⟨none, none, some 0x64#8⟩,
      ⟨none, none, some 0x72#8⟩] := by
  simp only [exec, execTrBuild, buildTrie, canonOrder, presentByLen_scan]
  decide +kernel

/-- V5.6. -/
theorem test_tdSetsize : after (fun t => (t.status, t.tdSize)) (exec (.tdSetsize 9#64) running) = some (.seq, 4#64) ∧
    after (fun t => (t.status, t.tdSize)) (exec (.tdSetsize 9#64) ready) = some (.ok, 9#64) := by decide +kernel

/-- V5.6. -/
theorem test_tdSetcrc : after (fun t => (t.status, t.tdXcrc)) (exec (.tdSetcrc 1#32) running) = some (.seq, 0x0204594B#32) ∧
    after (fun t => (t.status, t.tdXcrc)) (exec (.tdSetcrc 1#32) ready) = some (.ok, 1#32) := by decide +kernel

/-- P2. -/
theorem test_tdStart : after (fun t => (t.status, t.tdState, t.crcState, t.res)) (exec .tdStart { ready with crcState := 5#32, res := 6#64 }) =
    some (.ok, .atRoot, 0xFFFFFFFF#32, 0#64) := by decide +kernel

/-- R270, rows k and l. -/
theorem test_tdStart_empty : after (fun t => (t.status, t.tdState, t.res)) (exec .tdStart { ready with tdSize := 0#64, tdXcrc := 0#32 }) =
      some (.ok, .done, 0x200#64) ∧
    after (fun t => (t.status, t.fault, t.tdState, t.res)) (exec .tdStart { ready with tdSize := 0#64, tdXcrc := 1#32 }) =
      some (.integrity, .integrity, .failed, 0#64) := by decide +kernel

/-- P2, the first and the fourth step. -/
theorem test_tdStep : after (fun t => (t.tdState, t.res, t.dout, t.crcState, t.brRem)) (exec .tdStep running) =
      some (.atRoot, 0x141#64, [0x41#8], 0x2C266174#32, 7) ∧
    after (fun t => (t.tdState, t.res, t.dout, t.crcState, t.tdCount)) (exec .tdStep nearEnd) =
      some (.done, 0x342#64, [0x41#8, 0x41#8, 0x41#8, 0x42#8], 0xFDFBA6B4#32, 4#64) := by decide +kernel

/-- V5.2, step 2, and R270, row m. -/
theorem test_tdStep_walk : after (fun t => (t.status, t.tdState, t.tdCur, t.res)) (exec .tdStep { running with
      trNodes := [⟨some 1, some 2, none⟩, ⟨none, none, some 0x61#8⟩, ⟨some 3, none, none⟩, ⟨none, none, some 0x62#8⟩],
      brCur := 0x4E#8, brRem := 7, srcPos := 1#64 }) = some (.ok, .descending, 2, 0#64) ∧
    after (fun t => (t.fault, t.tdState, t.tdCur, t.res, t.brRem)) (exec .tdStep { running with
      trNodes := [⟨none, none, none⟩], src := [0xFF#8] }) =
      some (.corrupt, .failed, 0, 0x10000#64, 7) := by decide +kernel

/-- R270, rows a and d. -/
theorem test_tdRun : after (fun t => (t.tdState, t.res, t.dout, t.brRem, t.srcPos)) (exec .tdRun running) =
      some (.done, 0x342#64, [0x41#8, 0x41#8, 0x41#8, 0x42#8], 4, 1#64) ∧
    after (fun t => (t.status, t.res, t.dout, t.brRem, t.crcState)) (exec .tdRun { running with tdSize := 9#64 }) =
      some (.corrupt, 0x20141#64,
        [0x41#8, 0x41#8, 0x41#8, 0x42#8, 0x41#8, 0x41#8, 0x41#8, 0x41#8], 0, 0xC1E89925#32) := by decide +kernel

/-- R270, rows e and f. -/
theorem test_tdRun_faults : after (fun t => (t.status, t.fault, t.res, t.crcState)) (exec .tdRun { running with src := [0#8] }) =
      some (.integrity, .integrity, 0x141#64, 0x64F2F70E#32) ∧
    after (fun t => (t.status, t.tdCur, t.res, t.dout, t.brRem)) (exec .tdRun { running with
      src := [0x20#8], tdSize := 5#64, trNodes := [⟨some 1, none, none⟩, ⟨none, none, some 0x41#8⟩] }) =
      some (.corrupt, 0, 0x10141#64, [0x41#8, 0x41#8], 5) := by decide +kernel


/-! ### Legal states -/

theorem base_tables : TablesOk base := by constructor <;> simp [base, State.reset]

theorem base_buffer : BufferOk base := by constructor <;> simp [base, State.reset]

theorem base_decoder : DecoderOk base := by constructor <;> simp [base, State.reset, decodeActive]

theorem base_legal : Legal base :=
  ⟨by simp [base], .inl rfl, by simp [WriterOk, base, State.reset], by simp [ReaderOk, base, State.reset], base_buffer,
    base_tables, base_decoder⟩

theorem codesAB_assigned : assignCodes lensAB = some codesAB := by
  simp only [assignCodes, canonOrder, presentByLen_scan]
  decide +kernel

theorem presentAB : (presentByLen lensAB).length = 2 := by
  rw [presentByLen_scan]
  decide +kernel

theorem trieAB_made : buildTrie lensAB codesAB = .ok trieAB := by
  simp only [buildTrie, canonOrder, presentByLen_scan]
  decide +kernel

theorem coded_tables : TablesOk coded :=
  ⟨(fun h => nomatch h), base_tables.treeSize, base_tables.treeRoot, base_tables.treeSyms,
    fun _ => ⟨codesAB_assigned, presentAB.symm⟩, by show 2 ≤ 256; omega, (fun h => nomatch h), base_tables.trieSize⟩

theorem coded_legal : Legal coded :=
  ⟨base_legal.capacity, base_legal.faultCode, base_legal.writer, base_legal.reader,
    by constructor <;> simp [coded, base, State.reset], coded_tables, by constructor <;> simp [coded, base, State.reset, decodeActive]⟩

theorem ready_tables : TablesOk ready :=
  ⟨(fun h => nomatch h), base_tables.treeSize, base_tables.treeRoot, base_tables.treeSyms,
    fun _ => ⟨codesAB_assigned, presentAB.symm⟩, by show 2 ≤ 256; omega, fun _ => ⟨rfl, trieAB_made⟩,
    by show 3 ≤ 65281; omega⟩

theorem ready_legal : Legal ready :=
  ⟨base_legal.capacity, base_legal.faultCode, base_legal.writer, by simp [ReaderOk, ready, coded, base, State.reset],
    by constructor <;> simp [ready, coded, base, State.reset], ready_tables,
    by constructor <;> simp [ready, coded, base, State.reset, decodeActive]⟩

/-- A decode under way is a legal state, and no run from reset with nothing placed reaches it. -/
theorem running_legal : Legal running :=
  ⟨base_legal.capacity, base_legal.faultCode, base_legal.writer, ready_legal.reader,
    by constructor <;> simp [running, ready, coded, base, State.reset],
    ⟨(fun h => nomatch h), ready_tables.treeSize, ready_tables.treeRoot, ready_tables.treeSyms, ready_tables.codes,
      ready_tables.codeSyms, ready_tables.trie, ready_tables.trieSize⟩,
    by constructor <;> simp [running, ready, coded, base, State.reset, decodeActive, trieAB]⟩

theorem arenaAB_made : buildTree countsAB = (arenaAB, some 2) ∧ totalFreq countsAB = 4 ∧
    presentByFreq countsAB = [0x41#8, 0x42#8] := by
  simp only [buildTree, totalFreq, presentByFreq_scan]
  decide +kernel

theorem built_legal : Legal built :=
  ⟨base_legal.capacity, base_legal.faultCode, base_legal.writer, base_legal.reader,
    by constructor <;> simp [built, base, State.reset],
    ⟨fun _ => by
      obtain ⟨h1, h2, h3⟩ := arenaAB_made
      simp [built, h1, h2, h3],
      by show 3 ≤ 511; omega, by simp [built, arenaAB], by show 2 ≤ 256; omega, base_tables.codes, base_tables.codeSyms,
      base_tables.trie, base_tables.trieSize⟩,
    by constructor <;> simp [built, base, State.reset, decodeActive]⟩

theorem flushed_legal : Legal flushed :=
  ⟨base_legal.capacity, base_legal.faultCode, base_legal.writer, base_legal.reader,
    by constructor <;> simp [flushed, base, State.reset],
    ⟨base_tables.tree, base_tables.treeSize, base_tables.treeRoot, base_tables.treeSyms, base_tables.codes,
      base_tables.codeSyms, base_tables.trie, base_tables.trieSize⟩,
    by constructor <;> simp [flushed, base, State.reset, decodeActive]⟩

theorem overfull_total : totalFreq overfull.freq = 2 ^ 64 := by
  rw [totalFreq, presentByFreq_scan]
  decide +kernel

theorem overfull_legal : Legal overfull :=
  ⟨base_legal.capacity, base_legal.faultCode, base_legal.writer, base_legal.reader,
    by constructor <;> simp [overfull, base, State.reset],
    ⟨(fun h => nomatch h), base_tables.treeSize, base_tables.treeRoot, base_tables.treeSyms, base_tables.codes,
      base_tables.codeSyms, base_tables.trie, base_tables.trieSize⟩,
    by constructor <;> simp [overfull, base, State.reset, decodeActive]⟩

/-! ### Witnesses: for each statement with hypotheses, states and operands that meet them -/

theorem witness_DecodeEncodeRoundTrip : (Instr.brGetn 1#8).wf = true ∧ (Instr.brGetn 64#8).wf = true ∧
    (Instr.clSet 255#8 255#8).wf = true := by decide

theorem witness_DecodedWordReencodes :
    decode ⟨0x6141#16, 0xFFFFFFFFFFFFFF01#64⟩ = .ok (.clSet 0x41#8 1#8) := by decide +kernel

theorem witness_WdataUsedBySixCommands : (0x1141#16).extractLsb' 8 8 ∉
    [0x13#8, 0x33#8, 0x51#8, 0x61#8, 0x71#8, 0x72#8] := by decide

theorem witness_StepRunsDecodedCommand :
    (∃ (s : State) (c : Cmd) (rest : List Cmd) (i : Instr), s.cmds = c :: rest ∧ decode c = .ok i ∧ rest ≠ []) ∧
      base.cmds = [] :=
  ⟨⟨{ base with cmds := [⟨0x2101#16, 0#64⟩, ⟨0x2200#16, 0#64⟩] }, _, _, .bwPut true, rfl, by decide +kernel, by simp⟩, rfl⟩

theorem witness_IllegalWordOnlySetsStatus : ∃ (s : State) (c : Cmd) (rest : List Cmd), s.cmds = c :: rest ∧
    ∀ r ∈ opcodeTable, r.holds c.word = false :=
  ⟨{ base with cmds := [⟨0x3241#16, 0#64⟩] }, _, _, rfl, by decide +kernel⟩

theorem witness_CommandListRunsInOrder : ∀ i ∈ [Instr.crcInit, .brGetn 64#8, .tdRun], i.wf = true := by decide

/-- A legal state in the midst of a decode, and its step. -/
theorem witness_StepKeepsLegal : ∃ s t : State, Legal s ∧ step s = .next t ∧ t.tdState = .done := by
  have h : after State.tdState (step { running with cmds := [⟨0x7500#16, 0#64⟩] }) = some .done := by decide +kernel
  obtain ⟨t, h1, h2⟩ := next_of_after h
  exact ⟨_, t, legal_cmds running_legal _, h1, h2⟩

theorem witness_LegalStepsComplete : Legal running ∧ Legal built ∧ Legal flushed := ⟨running_legal, built_legal, flushed_legal⟩

theorem witness_RefusalChangesOnlyStatus : ∃ t, exec (.bwPutsym 0x41#8) base = .next t ∧ isRefusalCode t.status = true := by
  have h : after (fun t => isRefusalCode t.status) (exec (.bwPutsym 0x41#8) base) = some true := by decide +kernel
  exact next_of_after h

/-- A first fault, a second one that is not kept, and the two commands that clear. -/
theorem witness_FaultHoldsTheFirstCode : (∃ t, exec .ccAssign overSubscribed = .next t ∧ t.fault = .badLen) ∧
    (∃ t, exec .ccAssign { overSubscribed with fault := .integrity } = .next t ∧ t.fault = .integrity) ∧
    (∃ t, exec .sysClrf { base with fault := .integrity } = .next t ∧ t.fault = .ok) ∧
    ∃ t, exec .sysRst { base with fault := .integrity } = .next t ∧ t.fault = .ok := by
  have h1 : after State.fault (exec .ccAssign overSubscribed) = some .badLen := by
    simp only [exec, execCcAssign, assignCodes, canonOrder, presentByLen_scan]
    decide +kernel
  have h2 : after State.fault (exec .ccAssign { overSubscribed with fault := .integrity }) = some .integrity := by
    simp only [exec, execCcAssign, assignCodes, canonOrder, presentByLen_scan]
    decide +kernel
  exact ⟨next_of_after h1, next_of_after h2, ⟨_, rfl, rfl⟩, ⟨_, rfl, rfl⟩⟩

theorem witness_StatusPerCommand : ∃ t, exec (.brGetn 64#8) base = .next t ∧ t.status = .noData ∧
    (Instr.brGetn 64#8).wf = true := by
  have h : after State.status (exec (.brGetn 64#8) base) = some .noData := by decide +kernel
  obtain ⟨t, h1, h2⟩ := next_of_after h
  exact ⟨t, h1, h2, by decide⟩

theorem witness_ValidFlagCascade : (∃ t, exec (.clSet 0x41#8 1#8) ready = .next t ∧ t.trValid = false) ∧
    (∃ (s : State) (c : Cmd) (rest : List Cmd), s.cmds = c :: rest ∧ ∀ i, decode c ≠ .ok i) ∧
    (∃ t, Legal overfull ∧ exec .htBuild overfull = .next t ∧ t.status = .overflow) ∧
    ∃ t, presentByFreq base.freq = [] ∧ exec .htBuild base = .next t ∧ t.htBuilt = true := by
  have h1 : after State.trValid (exec (.clSet 0x41#8 1#8) ready) = some false := by decide +kernel
  have h2 : after State.status (exec .htBuild overfull) = some .overflow := by
    simp only [exec, execHtBuild, buildTree, totalFreq, presentByFreq_scan]
    decide +kernel
  have h3 : after State.htBuilt (exec .htBuild base) = some true := by
    simp only [exec, execHtBuild, buildTree, totalFreq, presentByFreq_scan]
    decide +kernel
  obtain ⟨t, h4, h5⟩ := next_of_after h2
  obtain ⟨u, h6, h7⟩ := next_of_after h3
  refine ⟨next_of_after h1, ⟨{ base with cmds := [⟨0x8000#16, 0#64⟩] }, _, _, rfl, ?_⟩, ⟨t, overfull_legal, h4, h5⟩,
    ⟨u, by rw [presentByFreq_scan]; decide +kernel, h6, h7⟩⟩
  intro i h
  simp [decode, opOf] at h

/-- A command for each clause that changes the state the clause is about. -/
theorem witness_EachStateHasItsWriters :
    after (fun t => (t.res, t.resCnt)) (exec (.brGetn 2#8) { base with src := [0xFF#8] }) = some (3#64, 2) ∧
    after State.crcState (exec (.crcSet 5#32) base) = some 5#32 ∧
    after (fun t => (t.bwAcc, t.bwCnt, t.bwPad)) (exec (.bwPut true) base) = some (1#8, 1, 0) ∧
    after (fun t => (t.bwPad, t.sink)) (exec .bwFlush { base with bwAcc := 1#8, bwCnt := 1 }) = some (7, [0x80#8]) ∧
    after State.brRem (exec .brGet { base with src := [0xFF#8] }) = some 7 ∧
    after State.mbCnt (exec (.mbPut true) base) = some 1 ∧
    after (fun t => freqOf t 0x41#8) (exec (.fqInc 0x41#8) base) = some 1#64 ∧
    after State.htNSym (exec .htBuild { base with freq := countsAB }) = some 2 ∧
    after (fun t => lenOf t 0x41#8) (exec (.clSet 0x41#8 9#8) base) = some 9 ∧
    after State.ccNSym (exec .ccAssign { base with ccNSym := 3 }) = some 0 ∧
    after (fun t => (t.trNodes, t.tdState)) (exec .trBuild { coded with tdState := .done }) = some (trieAB, .idle) ∧
    after (fun t => (t.tdCount, t.dout)) (exec .tdStep running) = some (1#64, [0x41#8]) ∧
    after State.tdSize (exec (.tdSetsize 8#64) base) = some 8#64 ∧
    after State.tdXcrc (exec (.tdSetcrc 8#32) base) = some 8#32 := by decide +kernel

theorem witness_ResetValues : ∃ t, (t = State.reset ∨ exec .sysRst nearEnd = .next t) ∧ t.src = [0x10#8] :=
  ⟨_, .inr rfl, rfl⟩

theorem witness_WriterCommands : 0x02#8 &&& 0xFE#8 ≠ 0#8 ∧
    (({ base with bwAcc := 0x7F#8, bwCnt := 7 } : State).bwCnt.val = 7) ∧ base.bwCnt.val ≠ 7 ∧ base.bwCnt.val = 0 ∧
      ({ base with bwCnt := 6 } : State).bwCnt.val ≠ 7 ∧ 0 < ({ base with bwCnt := 1 } : State).bwCnt.val :=
  ⟨by decide, rfl, by decide, rfl, by decide, by decide⟩

theorem witness_BytesAreMsbFirst :
    ([true, false, true, true, false, false, true, false].length = 8 ∧ base.bwCnt = 0 ∧ base.bwAcc = 0#8) ∧
    ∃ s : State, s.brRem = 0 ∧ s.src.length < 2 ^ 64 ∧ s.src[s.srcPos.toNat]? = some 0xB2#8 ∧ 7 < 8 :=
  ⟨⟨rfl, rfl, rfl⟩, ⟨{ base with src := [0xB2#8] }, rfl, by simp, rfl, by omega⟩⟩

/-- The last bit of the last byte, and the first bit of a payload after a 273-byte header. -/
theorem witness_ReadBackLaw : (∃ s : State, s.src.length < 2 ^ 64 ∧ (0#64).toNat + 15 / 8 < s.src.length) ∧
    (∃ s : State, s.src.length < 2 ^ 64 ∧ (273#64).toNat + 0 / 8 < s.src.length) ∧
    ready.src.length < 2 ^ 64 ∧ (1#64).toNat ≤ ready.src.length ∧ (0#64).toNat ≤ ready.src.length :=
  ⟨⟨{ base with src := [0xB2#8, 0x80#8] }, by simp, by simp⟩,
    ⟨{ base with src := List.replicate 274 0x10#8 }, by decide +kernel, by decide +kernel⟩, by decide +kernel⟩

theorem witness_WriterPutsACodeword : base.ccValid = false ∧
    (coded.ccValid = true ∧ lenOf coded 0x43#8 = 0 ∧ lenOf coded 0x42#8 ≠ 0) := by decide +kernel

theorem witness_ReaderPositioning : ready.src.length < (2#64).toNat ∧ (1#64).toNat ≤ ready.src.length ∧
    (0#64).toNat ≤ ready.src.length := by decide

theorem witness_ReaderGetsABit : (base.brRem = 0 ∧ base.srcPos.toNat = base.src.length) ∧
    (ready.brRem = 0 ∧ ready.src[ready.srcPos.toNat]? = some 0x10#8) ∧ nearEnd.brRem ≠ 0 ∧
    ({ nearEnd with brRem := 8 } : State).brRem ≠ 0 := ⟨⟨rfl, rfl⟩, ⟨rfl, rfl⟩, by decide, by decide⟩

theorem witness_ReaderGetsManyBits : 64 < (65#8).toNat ∧ (1 ≤ (1#8).toNat ∧ (64#8).toNat ≤ 64) ∧
    (nearEnd.srcPos.toNat ≤ nearEnd.src.length ∧ nearEnd.src.length < 2 ^ 64) ∧
    (base.srcPos.toNat ≤ base.src.length ∧ base.src.length < 2 ^ 64) :=
  ⟨by decide, ⟨by decide, by decide⟩, ⟨by decide, by simp [nearEnd, running, ready]⟩, ⟨by decide, by simp [base, State.reset]⟩⟩

theorem witness_BufferCommands : 0xFF#8 &&& 0xFE#8 ≠ 0#8 ∧ flushed.mbFlushed = true ∧
    (∃ s : State, s.mbFlushed = false ∧ 8 * (s.mbCap - s.mbBytes.length) ≤ s.mbCnt.val) ∧
    (∃ s : State, s.mbFlushed = false ∧ s.mbCnt.val < 8 * (s.mbCap - s.mbBytes.length) ∧ s.mbCnt.val = 7) ∧
    (base.mbFlushed = false ∧ base.mbCnt.val < 8 * (base.mbCap - base.mbBytes.length) ∧ base.mbCnt.val ≠ 7) ∧
    (∃ s : State, s.mbFlushed = false ∧ 0 < s.mbCnt.val) ∧
    (∃ s : State, s.mbFlushed = false ∧ s.mbCnt.val = 0 ∧ s.mbBytes ≠ []) ∧
    base.mbCnt.val = 0 ∧ base.mbBytes = [] :=
  ⟨by decide, rfl, ⟨{ base with mbBytes := [0#8, 1#8, 2#8, 3#8] }, rfl, by decide⟩,
    ⟨{ base with mbBytes := [0#8, 1#8, 2#8], mbCnt := 7 }, rfl, by decide, rfl⟩, ⟨rfl, by decide, by decide⟩,
    ⟨{ base with mbCnt := 1 }, rfl, by decide⟩, ⟨{ base with mbBytes := [0#8] }, rfl, rfl, by simp⟩, rfl, rfl⟩

/-- The last clause at the boundary: one bit into the last place of the buffer (95_test_vectors.md V4.16). -/
theorem witness_BufferPutsACodeword : base.ccValid = false ∧ flushed.mbFlushed = true ∧
    (abra.ccValid = true ∧ abra.mbFlushed = false ∧ lenOf abra 0x65#8 = 0 ∧ lenOf abra 0x63#8 = 3 ∧ lenOf abra 0x61#8 = 1) ∧
    (∃ s : State, s = { abra with mbCap := 1, mbCnt := 6 } ∧ 8 * (s.mbCap - s.mbBytes.length) < s.mbCnt.val + 3) ∧
    ∃ s : State, s = { abra with mbCap := 1, mbCnt := 7 } ∧ s.mbCnt.val + 1 ≤ 8 * (s.mbCap - s.mbBytes.length) :=
  ⟨rfl, rfl, by decide +kernel, ⟨_, rfl, by decide⟩, ⟨_, rfl, by decide⟩⟩

theorem witness_ReplaySendsTheValidBits : base.mbFlushed = false ∧ flushed.mbFlushed = true ∧ 1 ≤ flushed.mbLvb.val ∧
    flushed.mbBytes ≠ [] := ⟨rfl, rfl, by decide, by simp [flushed]⟩

theorem witness_FlushedBufferInvariant : (Legal flushed ∧ flushed.mbFlushed = true ∧ flushed.mbBytes.length ≠ 0 ∧
      flushed.mbBytes.getLast? = some 0x80#8 ∧ 6 < 8 - flushed.mbLvb.val) ∧
    ∃ s : State, Legal s ∧ s.mbFlushed = true ∧ s.mbBytes.length = 0 := by
  exact ⟨⟨flushed_legal, rfl, by decide, rfl, by decide⟩, { base with mbFlushed := true },
    ⟨base_legal.capacity, base_legal.faultCode, base_legal.writer, base_legal.reader,
      by constructor <;> simp [base, State.reset],
      ⟨base_tables.tree, base_tables.treeSize, base_tables.treeRoot, base_tables.treeSyms, base_tables.codes,
        base_tables.codeSyms, base_tables.trie, base_tables.trieSize⟩,
      by constructor <;> simp [base, State.reset, decodeActive]⟩, rfl, rfl⟩

/-- A full buffer of four bytes: 32 bits, the capacity. -/
theorem witness_FlushedBufferHoldsItsBits :
    (List.replicate 32 (Instr.mbPut true)).mapM (bufferedBits base) = some (List.replicate 32 [true]) ∧
    (List.replicate 32 [true]).flatten.length ≤ 8 * base.mbCap ∧
    [Instr.mbPut true, .mbPutsym 0x42#8].mapM (bufferedBits coded) = some [[true], [true]] := by decide +kernel

/-- Two chunks, one with a codeword and one that fills the buffer. -/
theorem witness_StitchingLaw :
    [[Instr.mbPutsym 0x42#8], List.replicate 32 (.mbPut false)].mapM (fun puts => puts.mapM (bufferedBits coded)) =
      some [[[true]], List.replicate 32 [false]] ∧
    ∀ b ∈ [[[true]], List.replicate 32 [false]], b.flatten.length ≤ 8 * coded.mbCap := by decide +kernel

theorem witness_CountingPass : ((freqOf overfull 0x41#8).toNat = 2 ^ 64 - 1 ∧
    (freqOf overfull 0x42#8).toNat < 2 ^ 64 - 1 ∧
    (freqOf { base with freq := tblFill 0xFFFFFFFFFFFFFFFE#64 } 0x41#8).toNat < 2 ^ 64 - 1) ∧
    [0x41#8, 0x41#8, 0x41#8, 0x42#8].length < 2 ^ 64 := ⟨by decide +kernel, by simp⟩

/-- The total at 2^64, at 2^64 - 1 with one symbol, and tables of none, one and two symbols. -/
theorem witness_BuildOutcome : 2 ^ 64 ≤ totalFreq overfull.freq ∧
    (totalFreq (tblSet (tblFill 0#64) 0x41#8 0xFFFFFFFFFFFFFFFF#64) < 2 ^ 64 ∧
      presentByFreq (tblSet (tblFill 0#64) 0x41#8 0xFFFFFFFFFFFFFFFF#64) = [0x41#8]) ∧
    (totalFreq base.freq < 2 ^ 64 ∧ presentByFreq base.freq = []) ∧
    totalFreq built.freq < 2 ^ 64 ∧ 2 ≤ (presentByFreq built.freq).length :=
  ⟨by rw [overfull_total], by
    simp only [totalFreq, presentByFreq_scan]
    decide +kernel, by
    simp only [totalFreq, presentByFreq_scan]
    decide +kernel, by
    rw [show built.freq = countsAB from rfl, arenaAB_made.2.1, arenaAB_made.2.2]
    decide⟩

theorem built_next : ∃ t, exec .htBuild built = .next t ∧ t.htNodes = arenaAB := by
  have h : after State.htNodes (exec .htBuild built) = some arenaAB := by
    simp only [exec, execHtBuild, buildTree, totalFreq, presentByFreq_scan]
    decide +kernel
  exact next_of_after h

theorem witness_TreeShape : ∃ t, totalFreq built.freq < 2 ^ 64 ∧ 2 ≤ (presentByFreq built.freq).length ∧
    exec .htBuild built = .next t ∧ t.htNodes[2]? = some ⟨4#64, .internal, some 1, some 0⟩ ∧ 0 + 1 < t.htNodes.length := by
  obtain ⟨t, h1, h2⟩ := built_next
  refine ⟨t, witness_BuildOutcome.2.2.2.1, witness_BuildOutcome.2.2.2.2, h1, ?_, ?_⟩ <;> rw [h2] <;> decide

/-- The two internal nodes of equal frequency, and the third pair: leaf 4 and the older node 5, node 6 being left
(95_test_vectors.md V3.4). -/
theorem witness_BuildJoinsTheLeastTwo : totalFreq tie.freq < 2 ^ 64 ∧ 2 ≤ (presentByFreq tie.freq).length ∧
    ∃ t, exec .htBuild tie = .next t ∧ t.htNodes[5]? = some ⟨2#64, .internal, some 0, some 1⟩ ∧
      t.htNodes[6]? = some ⟨2#64, .internal, some 2, some 3⟩ ∧
      t.htNodes[7]? = some ⟨3#64, .internal, some 4, some 5⟩ ∧ (presentByFreq tie.freq).length ≤ 7 ∧
      Alive t.htNodes 7 6 := by
  have h : after (fun t => t.htNodes) (exec .htBuild tie) = some
    [⟨1#64, .leaf 0x61#8, none, none⟩, ⟨1#64, .leaf 0x62#8, none, none⟩, ⟨1#64, .leaf 0x63#8, none, none⟩,
     ⟨1#64, .leaf 0x64#8, none, none⟩, ⟨1#64, .leaf 0x66#8, none, none⟩, ⟨2#64, .internal, some 0, some 1⟩,
     ⟨2#64, .internal, some 2, some 3⟩, ⟨3#64, .internal, some 4, some 5⟩, ⟨5#64, .internal, some 6, some 7⟩] := by
    simp only [exec, execHtBuild, buildTree, totalFreq, presentByFreq_scan]
    decide +kernel
  have hp : presentByFreq tie.freq = [0x61#8, 0x62#8, 0x63#8, 0x64#8, 0x66#8] := by
    rw [presentByFreq_scan]
    decide +kernel
  obtain ⟨t, h1, h2⟩ := next_of_after h
  refine ⟨by rw [totalFreq, hp]; decide +kernel, by rw [hp]; decide, t, h1, by rw [h2]; rfl, by rw [h2]; rfl, by rw [h2]; rfl,
    by rw [hp]; decide, by omega, ?_⟩
  intro j nd hj hnd
  rw [h2] at hnd
  rcases j with _ | _ | _ | _ | _ | _ | _ | j
  all_goals first
    | omega
    | (obtain rfl : _ = nd := Option.some.inj hnd; decide)

theorem witness_ExtractWritesTheDepths : base.htBuilt = false ∧ (Legal built ∧ built.htBuilt = true ∧
      built.htRoot = some 2 ∧ LeafBelow built.htNodes 2 0x41#8 1) ∧
    ∃ s : State, Legal s ∧ s.htBuilt = true ∧ s.htRoot = none := by
  refine ⟨rfl, ⟨built_legal, rfl, rfl, .child1 (c := 0) rfl rfl rfl (.here rfl rfl)⟩, { base with htBuilt := true }, ?_, rfl, rfl⟩
  have h : buildTree (tblFill 0#64) = ([], none) ∧ totalFreq (tblFill 0#64) = 0 ∧ presentByFreq (tblFill 0#64) = [] := by
    simp only [buildTree, totalFreq, presentByFreq_scan]
    decide +kernel
  obtain ⟨h1, h2, h3⟩ := h
  exact ⟨base_legal.capacity, base_legal.faultCode, base_legal.writer, base_legal.reader,
    by constructor <;> simp [base, State.reset],
    ⟨fun _ => ⟨by show totalFreq (tblFill 0#64) < _; rw [h2]; decide, h1, by show 0 = (presentByFreq (tblFill 0#64)).length; rw [h3]; rfl⟩,
      base_tables.treeSize, base_tables.treeRoot, base_tables.treeSyms, base_tables.codes, base_tables.codeSyms,
      base_tables.trie, base_tables.trieSize⟩,
    by constructor <;> simp [base, State.reset, decodeActive]⟩

theorem witness_KraftEquality : (totalFreq countsAB < 2 ^ 64 ∧ 2 ≤ (presentByFreq countsAB).length) ∧
    (totalFreq (tblSet (tblFill 0#64) 0x41#8 5#64) < 2 ^ 64 ∧
      (presentByFreq (tblSet (tblFill 0#64) 0x41#8 5#64)).length = 1) ∧
    totalFreq base.freq < 2 ^ 64 ∧ (presentByFreq base.freq).length = 0 :=
  ⟨witness_BuildOutcome.2.2.2, by
    simp only [totalFreq, presentByFreq_scan]
    decide +kernel, by
    simp only [totalFreq, presentByFreq_scan]
    decide +kernel⟩

/-- Just over the bound, at it, and below it. -/
theorem witness_AssignCanonicalCodes : 2 ^ 255 < kraft overSubscribed.len ∧ kraft lensAB = 2 ^ 255 ∧
    kraft (tblSet (tblFill 0#8) 0x41#8 1#8) ≤ 2 ^ 255 ∧ canonOrder lensAB = [0x41#8, 0x42#8] ∧ lenOf coded 0#8 = 0 := by
  simp only [kraft, canonOrder, presentByLen_scan]
  decide +kernel

theorem witness_AssignFaultsExactlyWhenOverSubscribed : ∃ t, exec .ccAssign coded = .next t ∧ t.status = .ok ∧ lenOf coded 0x42#8 ≠ 0 := by
  have h : after State.status (exec .ccAssign coded) = some .ok := by
    simp only [exec, execCcAssign, assignCodes, canonOrder, presentByLen_scan]
    decide +kernel
  obtain ⟨t, h1, h2⟩ := next_of_after h
  exact ⟨t, h1, h2, by decide +kernel⟩

theorem witness_CodewordsArePrefixFree : ∃ t, exec .ccAssign coded = .next t ∧ t.status = .ok ∧ lenOf t 0x41#8 = 1 ∧
    lenOf t 0x42#8 = 1 ∧ (0x41#8).toNat < (0x42#8).toNat := by
  have h : after (fun t => (t.status, lenOf t 0x41#8, lenOf t 0x42#8)) (exec .ccAssign coded) = some (.ok, 1, 1) := by
    simp only [exec, execCcAssign, assignCodes, canonOrder, presentByLen_scan]
    decide +kernel
  obtain ⟨t, h1, h2⟩ := next_of_after h
  simp only [Prod.mk.injEq] at h2
  exact ⟨t, h1, h2.1, h2.2.1, h2.2.2, by decide⟩

theorem witness_BuiltLengthsAssign : totalFreq countsAB < 2 ^ 64 ∧ totalFreq base.freq < 2 ^ 64 :=
  ⟨witness_BuildOutcome.2.2.2.1, witness_BuildOutcome.2.2.1.1⟩

theorem witness_TrieHasExactlyTheCodewords : base.ccValid = false ∧ Legal coded ∧ coded.ccValid = true ∧
    trieWalk trieAB [true] 0 = some 2 ∧ trieAB[2]? = some ⟨none, none, some 0x42#8⟩ ∧ codeword coded 0x42#8 = [true] :=
  ⟨rfl, coded_legal, rfl, by decide, by decide, by decide +kernel⟩

theorem witness_DecoderSetup : (running.tdState = .atRoot ∧ { running with tdState := .descending }.tdState = .descending) ∧
    ready.tdState ≠ .atRoot ∧ ready.tdState ≠ .descending := by
  exact ⟨⟨rfl, rfl⟩, (fun h => nomatch h), (fun h => nomatch h)⟩

theorem witness_DecoderStart : base.trValid = false ∧ (ready.trValid = true ∧ ready.tdSize ≠ 0#64) ∧
    (∃ s : State, s.trValid = true ∧ s.tdSize = 0#64 ∧ s.tdXcrc = 0#32) ∧
    ∃ s : State, s.trValid = true ∧ s.tdSize = 0#64 ∧ s.tdXcrc ≠ 0#32 :=
  ⟨rfl, ⟨rfl, by decide⟩, ⟨{ ready with tdSize := 0#64, tdXcrc := 0#32 }, rfl, rfl, rfl⟩,
    ⟨{ ready with tdSize := 0#64 }, rfl, rfl, by decide⟩⟩

/-- A root with one child, of two bits' depth: the absent child, the inner node and, below it, the leaf. -/
def chain : State :=
  { running with trNodes := [⟨none, some 1, none⟩, ⟨some 2, none, none⟩, ⟨none, none, some 0x41#8⟩], src := [0x80#8] }

theorem witness_DecoderStep : (base.trValid = false ∧ ready.trValid = true ∧ ready.tdState = .idle) ∧
    (∃ s : State, s.trValid = true ∧ s.tdState = .atRoot ∧ s.brRem = 0 ∧ s.srcPos.toNat = s.src.length) ∧
    (nextBit chain = some (true, 0x80#8, 7, 1#64) ∧ chain.trNodes[chain.tdCur]? = some ⟨none, some 1, none⟩ ∧
      chain.trNodes[1]? = some ⟨some 2, none, none⟩) ∧
    (nextBit { chain with src := [0#8] } = some (false, 0#8, 7, 1#64)) ∧
    (nextBit running = some (false, 0x10#8, 7, 1#64) ∧ running.trNodes[running.tdCur]? = some ⟨some 1, some 2, none⟩ ∧
      running.trNodes[1]? = some ⟨none, none, some 0x41#8⟩ ∧ running.tdCount + 1#64 ≠ running.tdSize) ∧
    (nextBit { nearEnd with brRem := 4 } = some (false, 0x10#8, 3, 1#64) ∧
      nearEnd.tdCount + 1#64 = nearEnd.tdSize ∧
      crcByte nearEnd.crcState 0x42#8 ^^^ 0xFFFFFFFF#32 = nearEnd.tdXcrc ∧
      crcByte nearEnd.crcState 0x41#8 ^^^ 0xFFFFFFFF#32 ≠ nearEnd.tdXcrc) :=
  ⟨⟨rfl, rfl, rfl⟩, ⟨{ running with srcPos := 1#64 }, rfl, rfl, rfl, rfl⟩, by decide +kernel, by decide +kernel,
    by decide +kernel, by decide +kernel⟩

theorem witness_RunIsRepeatedSteps : (base.trValid = false) ∧ Legal running ∧ running.trValid = true ∧
    running.tdState = .atRoot := ⟨rfl, running_legal, rfl, rfl⟩

theorem failed_next : ∃ t, execAll (.tdStart :: List.replicate 4 .tdStep) { ready with src := [0#8] } = .next t ∧
    isFaultCode t.status = true := by
  have h : after (fun t => isFaultCode t.status)
    (execAll (.tdStart :: List.replicate 4 .tdStep) { ready with src := [0#8] }) = some true := by decide +kernel
  exact next_of_after h

theorem witness_FailedDecodeRests :
    (∃ t, exec .tdStep { ready with tdState := .failed } = .next t ∧ t.status = .seq) ∧ ready.trValid = true ∧
    ∃ t, execAll (.tdStart :: List.replicate 4 .tdStep) { ready with src := [0#8] } = .next t ∧
      isFaultCode t.status = true := by
  have h : after State.status (exec .tdStep { ready with tdState := .failed }) = some .seq := by decide +kernel
  exact ⟨next_of_after h, rfl, failed_next⟩

theorem witness_DoneMeansCountAndChecksum :
    (∃ t, execAll (.tdStart :: List.replicate 4 .tdStep) ready = .next t ∧ (t.status, t.tdState) = (.ok, .done)) ∧
    ∃ t, execAll [.tdStart, .tdRun] ready = .next t ∧ t.status = .ok := by
  have h1 : after (fun t => (t.status, t.tdState)) (execAll (.tdStart :: List.replicate 4 .tdStep) ready) =
    some (.ok, .done) := by decide +kernel
  have h2 : after State.status (execAll [.tdStart, .tdRun] ready) = some .ok := by decide +kernel
  exact ⟨next_of_after h1, next_of_after h2⟩

theorem witness_DecodeInvertsEncode : Legal ready ∧ ready.trValid = true ∧
    [0x41#8, 0x41#8, 0x41#8, 0x42#8] ≠ [] ∧ (∀ b ∈ [0x41#8, 0x42#8], lenOf ready b ≠ 0) ∧
    readerBits ready = [0x41#8, 0x41#8, 0x41#8, 0x42#8].flatMap (codeword ready) ++ [false, false, false, false] ∧
    ready.tdSize.toNat = 4 ∧ ready.tdXcrc = crc32 [0x41#8, 0x41#8, 0x41#8, 0x42#8] :=
  ⟨ready_legal, rfl, by simp, by decide +kernel, by decide +kernel, rfl, by decide +kernel⟩

theorem witness_RoundTrip : [0x41#8, 0x41#8, 0x41#8, 0x42#8] ≠ [] ∧
    ∃ d : State, d.src = [0x10#8] ∧ d.src.length < 2 ^ 64 := ⟨by simp, ready, rfl, by simp [ready]⟩

theorem witness_ReadPortShowsTheRegisters : base.htRoot = none ∧ built.htRoot = some 2 := ⟨rfl, rfl⟩

end Sys2Proof.Tests
end

/-! How commands end, what they do to `FAULT` and to the flags of `VALID`, and the flushed buffer
(spec/10_state.md R25, R27, R35). -/

namespace Sys2Proof.Machine

open Sys2Proof

/-! ### The four ways a command ends -/

/-- `t` is one of the four outcomes of a command issued in `s`: ok, signal, refused or fault, where `P` holds of the
state just before `STATUS` and `FAULT` are written (60_exceptions.md R302 to R305). -/
inductive Ended (s : State) (P : State → Prop) : State → Prop where
  | ok {u : State} (h : P u) : Ended s P (endOk u)
  | signal {u : State} (h : P u) : Ended s P (endSignal u)
  | refused {c : Code} (hc : isRefusalCode c = true) : Ended s P (endRefused c s)
  | fault {c : Code} {u : State} (hc : isFaultCode c = true) (h : P u) : Ended s P (endFault c u)

theorem Ended.ite {s a b : State} {P : State → Prop} {c : Prop} [Decidable c] (ha : Ended s P a)
    (hb : Ended s P b) : Ended s P (if c then a else b) := by
  split
  · exact ha
  · exact hb

/-- Where the command's meaning answers a next state, that state is one of the four outcomes. -/
def EndsIn (s : State) (P : State → Prop) (r : Result) : Prop := ∀ t, r = .next t → Ended s P t

theorem EndsIn.next {s t : State} {P : State → Prop} (h : Ended s P t) : EndsIn s P (.next t) := by
  rintro _ ⟨⟩
  exact h

theorem EndsIn.stopped {s : State} {P : State → Prop} (f : Fault) : EndsIn s P (.fault f) := by
  rintro _ ⟨⟩

theorem isFaultCode_of_isRefusalCode {c : Code} (h : isRefusalCode c = true) : isFaultCode c = false := by
  revert h
  cases c <;> simp [isRefusalCode, isFaultCode]

/-! ### What the shared operations leave unchanged, from any state -/

/-- `br_get()` moves the reader only (42_bitstream.md R145). -/
theorem brGet_moved {s t : State} {b : Bool} (h : brGet s = .bit b t) : ReaderMoved s t := by
  unfold brGet brTake at h
  split at h
  · split at h
    · cases h
    · split at h
      · cases h
      · cases h
        rfl
  · cases h
    rfl

/-- The loop of `BR.GETN` moves the reader only (42_bitstream.md R148). -/
theorem brGetMany_moved {n v k v' k' : Nat} {s t : State} (h : brGetMany n v k s = .got v' k' t) :
    ReaderMoved s t := by
  induction n generalizing v k s with
  | zero =>
    cases h
    rfl
  | succ n ih =>
    unfold brGetMany at h
    split at h
    next b u hget => exact reader_frame_trans (brGet_moved hget) (ih h)
    next =>
      cases h
      rfl
    next => cases h

/-- The decoder's walk has changed nothing but the reader, the decoder and its output (45_decoder.md R255). -/
def DecoderMoved (s t : State) : Prop :=
  t = { s with
    brCur := t.brCur, brRem := t.brRem, srcPos := t.srcPos, tdCur := t.tdCur, tdState := t.tdState,
    tdCount := t.tdCount, dout := t.dout, crcState := t.crcState }

theorem DecoderMoved.trans {s t u : State} (h1 : DecoderMoved s t) (h2 : DecoderMoved t u) : DecoderMoved s u := by
  unfold DecoderMoved at *
  rw [h2, h1]

theorem ReaderMoved.decoderMoved {s t : State} (h : ReaderMoved s t) : DecoderMoved s t := by
  unfold ReaderMoved at h
  unfold DecoderMoved
  rw [h]

theorem tdLeaf_moved (b : Byte) (s : State) : DecoderMoved s (tdLeaf b s) := by
  unfold tdLeaf
  simp only
  split
  · rfl
  · rfl

/-- Every transition of the decoder that leaves a state leaves one that differs in the reader, the decoder and its
output only (45_decoder.md R255). -/
theorem tdWalk_moved (s t : State) :
    (tdWalk s = .moved t → DecoderMoved s t) ∧ (∀ b, tdWalk s = .emitted b t → DecoderMoved s t) ∧
      ∀ cause, tdWalk s = .corrupt cause t → DecoderMoved s t := by
  unfold tdWalk
  cases hget : brGet s with
  | outside f => exact ⟨nofun, nofun, nofun⟩
  | noData => exact ⟨nofun, nofun, by rintro _ ⟨⟩; rfl⟩
  | bit b u =>
    have hu : DecoderMoved s u := (brGet_moved hget).decoderMoved
    simp only
    split
    · exact ⟨nofun, nofun, nofun⟩
    · split
      · exact ⟨nofun, nofun, by rintro _ ⟨⟩; exact hu.trans rfl⟩
      · split
        · exact ⟨nofun, nofun, nofun⟩
        · split
          · exact ⟨nofun, by rintro _ ⟨⟩; exact hu.trans (tdLeaf_moved _ u), nofun⟩
          · exact ⟨by rintro ⟨⟩; exact hu.trans rfl, nofun, nofun⟩

/-- `TD.RUN` ends as its last transition does (45_decoder.md R260). -/
theorem tdRunLoop_ends {steps : Nat} {last : Option Byte} {s t : State} (h : tdRunLoop steps last s = .next t) :
    ∃ l cause u, t = tdEnd l cause u ∧ DecoderMoved s u := by
  induction steps generalizing last s with
  | zero => cases h
  | succ steps ih =>
    unfold tdRunLoop at h
    cases hw : tdWalk s with
    | outside f => simp [hw] at h
    | corrupt cause u =>
      simp only [hw, Host.Outcome.next.injEq] at h
      exact ⟨last, cause, u, h.symm, (tdWalk_moved s u).2.2 cause hw⟩
    | moved u =>
      simp only [hw] at h
      obtain ⟨l, cause, v, ht, hv⟩ := ih h
      exact ⟨l, cause, v, ht, ((tdWalk_moved s u).1 hw).trans hv⟩
    | emitted b u =>
      have hu : DecoderMoved s u := (tdWalk_moved s u).2.1 b hw
      simp only [hw] at h
      split at h
      · obtain ⟨l, cause, v, ht, hv⟩ := ih h
        exact ⟨l, cause, v, ht, hu.trans hv⟩
      · cases h
        exact ⟨some b, .none, u, rfl, hu⟩

/-! ### `FAULT` and `VALID` -/

/-- The four flags of `VALID`, from bit 0 on (10_state.md R27). -/
def validFlags (s : State) : Bool × Bool × Bool × Bool := (s.htBuilt, s.ccValid, s.trValid, s.mbFlushed)

theorem validFlags_eq_iff {s : State} {ht cc tr mb : Bool} :
    validFlags s = (ht, cc, tr, mb) ↔ s.htBuilt = ht ∧ s.ccValid = cc ∧ s.trValid = tr ∧ s.mbFlushed = mb := by
  simp [validFlags]

/-- The commands that the table of `VALID` names (10_state.md R27). -/
def writesFlags : Instr → Bool
  | .sysRst | .mbRst | .mbFlush | .fqClr | .fqSet _ _ | .fqInc _ | .htBuild | .clClr | .clSet _ _ | .clExtract
  | .ccAssign | .trBuild => true
  | .sysNop | .sysClrf | .crcInit | .crcUpd _ | .crcFin | .crcSet _ | .bwRst | .bwPut _ | .bwFlush | .bwPutsym _
  | .brRst | .brGet | .brGetn _ | .brSeek _ | .mbPut _ | .mbPutsym _ | .mbReplay | .tdSetsize _ | .tdSetcrc _
  | .tdStart | .tdStep | .tdRun => false

/-- `FAULT` is as before, and so are the flags unless `i` is a command that writes them. -/
structure Keeps (i : Instr) (s u : State) : Prop where
  fault : u.fault = s.fault
  flags : writesFlags i = false → validFlags u = validFlags s

theorem Keeps.of_eq {i : Instr} {s u : State} (hf : u.fault = s.fault) (hv : validFlags u = validFlags s) :
    Keeps i s u := ⟨hf, fun _ => hv⟩

theorem Keeps.of_writer {i : Instr} {s u : State} (hi : writesFlags i = true) (hf : u.fault = s.fault) :
    Keeps i s u := ⟨hf, by simp [hi]⟩

theorem Keeps.ite {i : Instr} {s a b : State} {c : Prop} [Decidable c] (ha : Keeps i s a) (hb : Keeps i s b) :
    Keeps i s (if c then a else b) := by
  split
  · exact ha
  · exact hb

theorem ReaderMoved.keeps {s t : State} (h : ReaderMoved s t) (i : Instr) : Keeps i s t := by
  unfold ReaderMoved at h
  rw [h]
  exact .of_eq rfl rfl

theorem DecoderMoved.keeps {s t : State} (h : DecoderMoved s t) (i : Instr) : Keeps i s t := by
  unfold DecoderMoved at h
  rw [h]
  exact .of_eq rfl rfl

theorem bwPutAll_keeps (i : Instr) (s : State) (bits : List Bool) : Keeps i s (bwPutAll s bits) := by
  obtain ⟨-, hframe, -, -⟩ := bwPutAll_spec s bits
  rw [hframe]
  exact .of_eq rfl rfl

theorem mbPutAll_keeps (i : Instr) (s : State) (bits : List Bool) : Keeps i s (mbPutAll s bits) := by
  obtain ⟨-, hframe, -⟩ := mbPutAll_spec bits s
  rw [hframe]
  exact .of_eq rfl rfl

theorem bwPut_keeps (i : Instr) (s : State) (b : Bool) : Keeps i s (bwPut s b) := bwPutAll_keeps i s [b]

theorem mbPut_keeps (i : Instr) (s : State) (b : Bool) : Keeps i s (mbPut s b) := mbPutAll_keeps i s [b]

/-- A decoder command ends ok, or in one of its two faults (45_decoder.md R255, R257). -/
theorem tdEnd_ended {i : Instr} {s u : State} (h : Keeps i s u) (last : Option Byte) (cause : Cause) :
    Ended s (Keeps i s) (tdEnd last cause u) := by
  have hres : Keeps i s { u with res := tdResult last (u.tdState == .done) cause } := ⟨h.fault, h.flags⟩
  unfold tdEnd
  exact .ite (.fault rfl hres) (.ite (.fault rfl hres) (.ok hres))

theorem execBrGet_ends (i : Instr) (s : State) : EndsIn s (Keeps i s) (execBrGet s) := by
  unfold execBrGet
  cases hget : brGet s with
  | bit b t =>
    have hk := (brGet_moved hget).keeps i
    exact .next (.ok ⟨hk.fault, hk.flags⟩)
  | noData => exact .next (.signal (.of_eq rfl rfl))
  | outside f => exact .stopped f

theorem execBrGetn_ends (i : Instr) (n : Byte) (s : State) : EndsIn s (Keeps i s) (execBrGetn n s) := by
  unfold execBrGetn
  split
  · cases hgot : brGetMany n.toNat 0 0 s with
    | got v k t =>
      have hk := (brGetMany_moved hgot).keeps i
      exact .next (.ite (.signal ⟨hk.fault, hk.flags⟩) (.ok ⟨hk.fault, hk.flags⟩))
    | outside f => exact .stopped f
  · exact .next (.refused rfl)

theorem execClExtract_ends (s : State) : EndsIn s (Keeps .clExtract s) (execClExtract s) := by
  unfold execClExtract
  split
  · exact .next (.refused rfl)
  · cases extractLengths s.htNodes s.htRoot with
    | error f => exact .stopped f
    | ok t => exact .next (.ok (.of_writer rfl rfl))

theorem execCcAssign_ends (s : State) : EndsIn s (Keeps .ccAssign s) (execCcAssign s) := by
  unfold execCcAssign
  cases assignCodes s.len with
  | none => exact .next (.fault rfl (.of_writer rfl rfl))
  | some c => exact .next (.ok (.of_writer rfl rfl))

theorem execTrBuild_ends (s : State) : EndsIn s (Keeps .trBuild s) (execTrBuild s) := by
  unfold execTrBuild
  split
  · exact .next (.refused rfl)
  · cases buildTrie s.len s.code with
    | error f => exact .stopped f
    | ok arena => exact .next (.ok (.of_writer rfl rfl))

theorem execTdStart_ends (i : Instr) (s : State) : EndsIn s (Keeps i s) (execTdStart s) := by
  unfold execTdStart
  refine .next (.ite (.refused rfl) ?_)
  extract_lets u
  refine tdEnd_ended ?_ none .none
  exact .ite (.of_eq rfl rfl) (.of_eq rfl rfl)

theorem execTdStep_ends (i : Instr) (s : State) : EndsIn s (Keeps i s) (execTdStep s) := by
  unfold execTdStep
  split
  · exact .next (.refused rfl)
  · cases hw : tdWalk s with
    | moved t => exact .next (tdEnd_ended (((tdWalk_moved s t).1 hw).keeps i) _ _)
    | emitted b t => exact .next (tdEnd_ended (((tdWalk_moved s t).2.1 b hw).keeps i) _ _)
    | corrupt cause t => exact .next (tdEnd_ended (((tdWalk_moved s t).2.2 cause hw).keeps i) _ _)
    | outside f => exact .stopped f

theorem execTdRun_ends (i : Instr) (s : State) : EndsIn s (Keeps i s) (execTdRun s) := by
  unfold execTdRun
  split
  · exact .next (.refused rfl)
  · intro t h
    obtain ⟨last, cause, u, rfl, hu⟩ := tdRunLoop_ends h
    exact tdEnd_ended (hu.keeps i) last cause

/-- How every command ends: but for the two commands that clear `FAULT`, each keeps `FAULT` up to its outcome, and the
flags unless it is one that writes them (10_state.md R25, R27). -/
theorem exec_ends (i : Instr) (s : State) (hclrf : i ≠ .sysClrf) (hrst : i ≠ .sysRst) :
    EndsIn s (Keeps i s) (exec i s) :=
  match i with
  | .sysNop => .next (.ok (.of_eq rfl rfl))
  | .sysRst => absurd rfl hrst
  | .sysClrf => absurd rfl hclrf
  | .crcInit => .next (.ok (.of_eq rfl rfl))
  | .crcUpd _ => .next (.ok (.of_eq rfl rfl))
  | .crcFin => .next (.ok (.of_eq rfl rfl))
  | .crcSet _ => .next (.ok (.of_eq rfl rfl))
  | .bwRst => .next (.ok (.of_eq rfl rfl))
  | .bwPut b => .next (.ok (bwPut_keeps _ s b))
  | .bwFlush => .next (.ok (.ite (.of_eq rfl rfl) (.of_eq rfl rfl)))
  | .bwPutsym sym => .next (.ite (.refused rfl) (.ite (.refused rfl) (.ok (bwPutAll_keeps _ s (codeword s sym)))))
  | .brRst => .next (.ok (.of_eq rfl rfl))
  | .brGet => execBrGet_ends _ s
  | .brGetn n => execBrGetn_ends _ n s
  | .brSeek _ => .next (.ite (.refused rfl) (.ok (.of_eq rfl rfl)))
  | .mbRst => .next (.ok (.of_writer rfl rfl))
  | .mbPut b => .next (.ite (.refused rfl) (.ite (.refused rfl) (.ok (mbPut_keeps _ s b))))
  | .mbFlush => .next (.ite (.refused rfl)
      (.ite (.ok (.of_writer rfl rfl)) (.ite (.ok (.of_writer rfl rfl)) (.ok (.of_writer rfl rfl)))))
  | .mbPutsym sym => .next (.ite (.refused rfl) (.ite (.refused rfl)
      (.ite (.refused rfl) (.ok (mbPutAll_keeps _ s (codeword s sym))))))
  | .mbReplay => .next (.ite (.refused rfl) (.ok (bwPutAll_keeps _ s (validBits s.mbBytes s.mbLvb.val))))
  | .fqClr => .next (.ok (.of_writer rfl rfl))
  | .fqSet _ _ => .next (.ok (.of_writer rfl rfl))
  | .fqInc _ => .next (.ite (.refused rfl) (.ok (.of_writer rfl rfl)))
  | .htBuild => .next (.ite (.refused rfl) (.ok (.of_writer rfl rfl)))
  | .clClr => .next (.ok (.of_writer rfl rfl))
  | .clSet _ _ => .next (.ok (.of_writer rfl rfl))
  | .clExtract => execClExtract_ends s
  | .ccAssign => execCcAssign_ends s
  | .trBuild => execTrBuild_ends s
  | .tdSetsize _ => .next (.ite (.refused rfl) (.ok (.of_eq rfl rfl)))
  | .tdSetcrc _ => .next (.ite (.refused rfl) (.ok (.of_eq rfl rfl)))
  | .tdStart => execTdStart_ends _ s
  | .tdStep => execTdStep_ends _ s
  | .tdRun => execTdRun_ends _ s

/-- The four outcomes latch `FAULT` as its rule says (10_state.md R25). -/
theorem Ended.fault_eq {s t : State} {P : State → Prop} (h : Ended s P t) (hP : ∀ u, P u → u.fault = s.fault) :
    t.fault = if isFaultCode t.status = true ∧ s.fault = .ok then t.status else s.fault := by
  cases h with
  | ok hu => simp [isFaultCode, hP _ hu]
  | signal hu => simp [isFaultCode, hP _ hu]
  | refused hc => simp [isFaultCode_of_isRefusalCode hc]
  | fault hc hu => simp [hc, hP _ hu]

/-- No outcome writes a flag (60_exceptions.md R302 to R305). -/
theorem Ended.validFlags_eq {s t : State} {P : State → Prop} (h : Ended s P t)
    (hP : ∀ u, P u → validFlags u = validFlags s) : validFlags t = validFlags s := by
  cases h with
  | @ok u hu => exact (hP u hu :)
  | @signal u hu => exact (hP u hu :)
  | refused hc => rfl
  | @fault c u hc hu => exact (hP u hu :)

/-- A command that the table of `VALID` does not name keeps every flag (10_state.md R27). -/
theorem exec_validFlags {i : Instr} {s t : State} (hi : writesFlags i = false) (h : exec i s = .next t) :
    validFlags t = validFlags s := by
  by_cases hclrf : i = .sysClrf
  · subst hclrf
    cases h
    rfl
  · have hrst : i ≠ .sysRst := by
      rintro rfl
      cases hi
    exact (exec_ends i s hclrf hrst t h).validFlags_eq (fun _ hu => hu.flags hi)

/-- Settles O13: every command but the two that clear `FAULT` ends in one of the four outcomes, of which only a fault
writes it. -/
theorem faultHoldsTheFirstCode : Obligations.FaultHoldsTheFirstCode := by
  unfold Obligations.FaultHoldsTheFirstCode
  refine ⟨?latched, ?cleared, ⟨rfl, rfl⟩, fun _ => rfl⟩
  case latched =>
    intro i s t h hclrf hrst
    exact (exec_ends i s hclrf hrst t h).fault_eq (fun _ hu => hu.fault)
  case cleared =>
    rintro i s t (rfl | rfl) h
    · cases h
      rfl
    · cases h
      rfl

/-! ### The commands that write flags (10_state.md R27) -/

theorem execMbFlush_validFlags {s t : State} (h : execMbFlush s = .next t) :
    validFlags t = (s.htBuilt, s.ccValid, s.trValid, true) := by
  unfold execMbFlush at h
  cases h
  split
  next hflushed => simp [validFlags, hflushed]
  · split
    · rfl
    · split
      · rfl
      · rfl

theorem execFqInc_validFlags {s t : State} {sym : Symbol} (h : execFqInc sym s = .next t) :
    validFlags t = (if t.status = .ok then false else s.htBuilt, s.ccValid, s.trValid, s.mbFlushed) := by
  unfold execFqInc at h
  cases h
  split
  · rfl
  · rfl

/-- `HT.BUILD` is refused exactly where the total of the counts does not fit (43_tree_builder.md R194). -/
theorem execHtBuild_cases {s t : State} (h : execHtBuild s = .next t) :
    (2 ^ 64 ≤ totalFreq s.freq ∧ t = endRefused .overflow s) ∨
      (totalFreq s.freq < 2 ^ 64 ∧ t = endOk { s with
        htNodes := (buildTree s.freq).1
        htRoot := (buildTree s.freq).2
        htNSym := (presentByFreq s.freq).length
        htBuilt := true }) := by
  unfold execHtBuild at h
  cases h
  by_cases hfit : 2 ^ 64 ≤ totalFreq s.freq
  · exact .inl ⟨hfit, if_pos hfit⟩
  · exact .inr ⟨by omega, if_neg hfit⟩

theorem execHtBuild_validFlags {s t : State} (h : execHtBuild s = .next t) :
    validFlags t = (if t.status = .ok then true else s.htBuilt, s.ccValid, s.trValid, s.mbFlushed) := by
  obtain ⟨-, rfl⟩ | ⟨-, rfl⟩ := execHtBuild_cases h
  · rfl
  · rfl

theorem execClExtract_validFlags {s t : State} (h : execClExtract s = .next t) :
    validFlags t = (s.htBuilt, if t.status = .ok then false else s.ccValid,
      if t.status = .ok then false else s.trValid, s.mbFlushed) := by
  unfold execClExtract at h
  split at h
  · cases h
    rfl
  · split at h
    · cases h
    · cases h
      rfl

theorem execCcAssign_validFlags {s t : State} (h : execCcAssign s = .next t) :
    validFlags t = (s.htBuilt, if t.status = .ok then true else false, false, s.mbFlushed) := by
  unfold execCcAssign at h
  cases h
  split
  · rfl
  · rfl

theorem execTrBuild_validFlags {s t : State} (h : execTrBuild s = .next t) :
    validFlags t = (s.htBuilt, s.ccValid, if t.status = .ok then true else s.trValid, s.mbFlushed) := by
  unfold execTrBuild at h
  split at h
  · cases h
    rfl
  · split at h
    · cases h
    · cases h
      rfl

/-- In a legal state a refused `HT.BUILD` finds its flag 0 (10_state.md R27). -/
theorem htBuild_overflow {s t : State} (hs : Legal s) (h : execHtBuild s = .next t) (ht : t.status = .overflow) :
    t = { s with status := .overflow } ∧ s.htBuilt = false := by
  obtain ⟨hbig, rfl⟩ | ⟨-, rfl⟩ := execHtBuild_cases h
  · refine ⟨rfl, Bool.eq_false_iff.mpr fun hbuilt => ?_⟩
    obtain ⟨hfit, -⟩ := hs.tables.tree hbuilt
    omega
  · cases ht

/-- With no present symbol the build ends ok and makes no tree (43_tree_builder.md R192). -/
theorem htBuild_without_symbols {s t : State} (hnone : presentByFreq s.freq = []) (h : execHtBuild s = .next t) :
    t.htBuilt = true ∧ t.htRoot = none := by
  have htotal : totalFreq s.freq = 0 := by simp [totalFreq, hnone]
  obtain ⟨hbig, -⟩ | ⟨-, rfl⟩ := execHtBuild_cases h
  · omega
  · exact ⟨rfl, by simp [buildTree_none hnone]⟩

/-- A word that is no command keeps `VALID` (30_encoding.md R97). -/
theorem step_illegal_validWord {s : State} {c : Cmd} {rest : List Cmd} (hcmds : s.cmds = c :: rest)
    (hc : ∀ i, decode c ≠ .ok i) : ∃ t, step s = .next t ∧ validWord t = validWord s := by
  refine ⟨illegalWord { s with cmds := rest }, ?_, rfl⟩
  unfold step takeCmd
  rw [hcmds]
  cases hd : decode c with
  | ok i => exact absurd hd (hc i)
  | error e => simp only [hd]

/-- `VALID` as a number (10_state.md R27). -/
theorem validWord_toNat (s : State) : (validWord s).toNat =
    s.htBuilt.toNat + 2 * s.ccValid.toNat + 4 * s.trValid.toNat + 8 * s.mbFlushed.toNat := by
  have key : ∀ ht cc tr mb : Bool,
      (0#1 ++ BitVec.ofBool mb ++ BitVec.ofBool tr ++ BitVec.ofBool cc ++ BitVec.ofBool ht).toNat =
        ht.toNat + 2 * cc.toNat + 4 * tr.toNat + 8 * mb.toNat := by decide
  exact key s.htBuilt s.ccValid s.trValid s.mbFlushed

/-- Settles O15: each writer of a flag by its own equation; every other command keeps all four flags. -/
theorem validFlagCascade : Obligations.ValidFlagCascade := by
  unfold Obligations.ValidFlagCascade
  refine ⟨?writers, fun s c rest => step_illegal_validWord, fun s t => htBuild_overflow,
    fun s t => htBuild_without_symbols, rfl, fun s => ?word⟩
  case word =>
    rw [← validWord_toNat]
    rfl
  case writers =>
    intro i s t h
    rw [← validFlags_eq_iff]
    cases i
    case htBuild => exact execHtBuild_validFlags h
    case fqInc sym => exact execFqInc_validFlags h
    case clExtract => exact execClExtract_validFlags h
    case ccAssign => exact execCcAssign_validFlags h
    case trBuild => exact execTrBuild_validFlags h
    case mbFlush => exact execMbFlush_validFlags h
    case fqClr | fqSet | clClr | clSet | mbRst | sysRst =>
      cases h
      rfl
    all_goals exact exec_validFlags rfl h

/-! ### The flushed buffer (10_state.md R35) -/

/-- A byte's first `k` bits, index by index from bit 7 down. -/
theorem map_getLsbD_range (b : Byte) (k : Nat) (hk : k ≤ 8) :
    (List.range k).map (fun j => b.getLsbD (7 - j)) = (bitsDown b 8).take k := by
  have hall : bitsDown b 8 = (List.range 8).map (fun j => b.getLsbD (7 - j)) := rfl
  rw [hall, ← List.map_take, List.take_range, Nat.min_eq_left hk]

/-- A byte that is not the last is replayed whole, before the rest (42_bitstream.md R158). -/
theorem replayBits_cons {s : State} {b b' : Byte} {bs : List Byte} (h : s.mbBytes = b :: b' :: bs) :
    replayBits s = bitsDown b 8 ++ replayBits { s with mbBytes := b' :: bs } := by
  have hb : (List.range 8).map (fun j => b.getLsbD (7 - j)) = bitsDown b 8 := rfl
  simp only [replayBits, h]
  rw [List.length_cons, List.range_succ_eq_map, List.flatMap_cons, List.flatMap_map]
  simp [hb]

/-- The bits that a replay sends are the bits that the buffer stands for (42_bitstream.md R158, R166). -/
theorem replayBits_eq_heldBits (s : State) : replayBits s = heldBits s := by
  have hlvb : s.mbLvb.val ≤ 8 := by omega
  generalize hbytes : s.mbBytes = bytes
  induction bytes generalizing s with
  | nil => simp [replayBits, heldBits, validBits, hbytes]
  | cons b bs ih =>
    cases bs with
    | nil => simp [replayBits, heldBits, validBits, hbytes, map_getLsbD_range b _ hlvb]
    | cons b' bs =>
      have hrest := ih { s with mbBytes := b' :: bs } hlvb rfl
      rw [replayBits_cons hbytes, hrest]
      simp only [heldBits, hbytes, validBits]

/-- How many bits a replay sends: `MB_BITS` (10_state.md R35). -/
theorem replayBits_length (s : State) :
    (replayBits s).length = if s.mbBytes.length = 0 then 0 else 8 * (s.mbBytes.length - 1) + s.mbLvb.val := by
  rw [replayBits_eq_heldBits]
  unfold heldBits
  split
  next hempty =>
    rw [List.eq_nil_of_length_eq_zero hempty]
    rfl
  next hlen => exact validBits_length s.mbBytes s.mbLvb (List.ne_nil_of_length_pos (by omega))

/-- The bits below `k` of a byte that `2 ^ k` divides are 0. -/
theorem getLsbD_eq_false_of_mod {b : Byte} {k j : Nat} (h : b.toNat % 2 ^ k = 0) (hj : j < k) :
    b.getLsbD j = false := by
  have hbit := Nat.testBit_mod_two_pow b.toNat k j
  simp only [h, Nat.zero_testBit, hj, decide_true, Bool.true_and] at hbit
  exact hbit.symm

/-- Settles O33, from the buffer's part of a legal state. -/
theorem flushedBufferInvariant : Obligations.FlushedBufferInvariant := by
  unfold Obligations.FlushedBufferInvariant
  intro s hs hflushed
  have hlvb : s.mbLvb = 0 ↔ s.mbBytes.length = 0 := by
    rw [hs.buffer.flushedLvb hflushed, List.length_eq_zero_iff]
  refine ⟨hs.buffer.flushedCnt hflushed, hlvb, fun hlen => ?_, fun byte j hlast hj => ?_, replayBits_length s⟩
  · have hpos := fin9_pos s.mbLvb (fun h0 => hlen (hlvb.mp h0))
    omega
  · exact getLsbD_eq_false_of_mod (hs.buffer.filler hflushed byte hlast) hj

end Sys2Proof.Machine

/-! The bit order inside a byte and the container's layout (spec/20_memory.md R61, R63, R74 to R76). -/

namespace Sys2Proof.Machine

open Sys2Proof

/-! ### The writer's and the reader's commands, as sequences (42_bitstream.md R141, R147) -/

/-- The writer neither reads nor writes `STATUS` (42_bitstream.md R139). -/
theorem bwPutAll_status (s : State) (bits : List Bool) (c : Code) :
    bwPutAll { s with status := c } bits = { bwPutAll s bits with status := c } := by
  induction bits generalizing s with
  | nil => rfl
  | cons b bits ih =>
    have hput : bwPut { s with status := c } b = { bwPut s b with status := c } := by
      unfold bwPut
      split
      · rfl
      · rfl
    calc bwPutAll { s with status := c } (b :: bits)
        = bwPutAll (bwPut { s with status := c } b) bits := rfl
      _ = { bwPutAll (bwPut s b) bits with status := c } := by rw [hput, ih]

/-- A sequence of `BW.PUT` puts its bits, and its last command ends ok (42_bitstream.md R141). -/
theorem execAll_bwPut (s : State) (bits : List Bool) :
    execAll (bits.map .bwPut) s =
      .next { bwPutAll s bits with status := if bits = [] then s.status else .ok } := by
  induction bits generalizing s with
  | nil => rfl
  | cons b bits ih =>
    have hstep : execAll ((b :: bits).map .bwPut) s = execAll (bits.map .bwPut) (endOk (bwPut s b)) := rfl
    have hstatus : (if bits = [] then (endOk (bwPut s b)).status else Code.ok) = .ok := ite_self _
    have hput : bwPutAll (endOk (bwPut s b)) bits = { bwPutAll s (b :: bits) with status := .ok } :=
      bwPutAll_status (bwPut s b) bits .ok
    rw [hstep, ih, hstatus, hput]
    simp

/-- `BR.GET` delivers the first unread bit (42_bitstream.md R147). -/
theorem exec_brGet_cons {s : State} (h : ReaderOk s) {b : Bool} {bs : List Bool} (hb : readerBits s = b :: bs) :
    ∃ t, exec .brGet s = .next t ∧ t.status = .ok ∧ t.res = (if b then 1#64 else 0#64) ∧
      readerBits t = bs ∧ ReaderOk t := by
  obtain ⟨t, hget, hbits, hok, -⟩ := brGet_cons h hb
  refine ⟨endOk { t with res := if b then 1#64 else 0#64 }, ?_, rfl, rfl, hbits, hok⟩
  simp only [exec, execBrGet, hget]

/-- A sequence of `BR.GET` inside the data takes that many unread bits (42_bitstream.md R147). -/
theorem execAll_brGet {s : State} (h : ReaderOk s) {n : Nat} (hn : n ≤ (readerBits s).length) :
    ∃ t, execAll (List.replicate n .brGet) s = .next t ∧ readerBits t = (readerBits s).drop n ∧ ReaderOk t := by
  induction n generalizing s with
  | zero => exact ⟨s, rfl, rfl, h⟩
  | succ n ih =>
    obtain ⟨b, bs, hb⟩ := List.exists_cons_of_length_pos (by omega : 0 < (readerBits s).length)
    obtain ⟨t, hget, -, -, hbits, hok⟩ := exec_brGet_cons h hb
    rw [hb, List.length_cons] at hn
    obtain ⟨u, hu, hubits, huok⟩ := ih hok (by rw [hbits]; omega)
    refine ⟨u, ?_, ?_, huok⟩
    · simp only [List.replicate_succ, execAll, hget, hu]
    · rw [hubits, hbits, hb, List.drop_succ_cons]

/-- The bit that `BR.GET` delivers after `n` others is unread bit `n` (42_bitstream.md R147). -/
theorem brGet_after_brGets {s : State} (h : ReaderOk s) {n : Nat} {b : Bool} (hb : (readerBits s)[n]? = some b) :
    ∃ t u, execAll (List.replicate n .brGet) s = .next t ∧ exec .brGet t = .next u ∧ u.status = .ok ∧
      u.res = if b then 1#64 else 0#64 := by
  obtain ⟨hn, hbn⟩ := List.getElem?_eq_some_iff.mp hb
  obtain ⟨t, ht, hbits, hok⟩ := execAll_brGet h hn.le
  have hnext : readerBits t = b :: (readerBits s).drop (n + 1) := by
    rw [hbits, List.drop_eq_getElem_cons hn, hbn]
  obtain ⟨u, hu, hstatus, hres, -⟩ := exec_brGet_cons hok hnext
  exact ⟨t, u, ht, hu, hstatus, hres⟩

/-! ### Bit order inside a byte (20_memory.md R61) -/

/-- Eight bits put from a byte boundary are one more byte of the sink, and leave the writer at a byte boundary. -/
theorem bwPutAll_byte {s : State} {bits : List Bool} (hlen : bits.length = 8) (hcnt : s.bwCnt = 0) :
    ∃ byte : Byte, (bwPutAll s bits).sink = s.sink ++ [byte] ∧ (bwPutAll s bits).bwCnt = 0 ∧
      bitsDown byte 8 = bits := by
  obtain ⟨hbits, -, ⟨out, hout⟩, -⟩ := bwPutAll_spec s bits
  have hstart : writerBits s = streamBits s.sink := by simp [writerBits, hcnt]
  obtain ⟨hcnt', hsink'⟩ := writer_of_bits (bwPutAll s bits)
  rw [hbits, hstart, List.length_append, streamBits_length, hlen] at hcnt' hsink'
  have hzero : (bwPutAll s bits).bwCnt = 0 := Fin.ext (by simp only [hcnt', Fin.val_zero]; omega)
  have hone : out.length = 1 := by
    rw [← hout, List.length_append] at hsink'
    omega
  obtain ⟨byte, rfl⟩ := List.length_eq_one_iff.mp hone
  refine ⟨byte, hout.symm, hzero, ?_⟩
  rw [hstart, writerBits, hzero, ← hout, streamBits_append] at hbits
  simpa using hbits

/-- With no bit left of the current byte, the next eight unread bits are those of the byte at `SRC_POS`, from bit 7
down. -/
theorem readerBits_getElem?_of_byte {s : State} {byte : Byte} {j : Nat} (hrem : s.brRem = 0)
    (hbyte : s.src[s.srcPos.toNat]? = some byte) (hj : j < 8) :
    (readerBits s)[j]? = some (byte.getLsbD (7 - j)) := by
  obtain ⟨hlt, hget⟩ := List.getElem?_eq_some_iff.mp hbyte
  have hbits : readerBits s = bitsDown byte 8 ++ streamBits (s.src.drop (s.srcPos.toNat + 1)) := by
    rw [readerBits, hrem, List.drop_eq_getElem_cons hlt, hget, streamBits_cons]
    rfl
  rw [hbits, List.getElem?_append_left (by simpa using hj), bitsDown_getElem? byte 8 j hj]

/-- Settles O23: the writer's eight bits make one byte, and the reader's next eight bits are one byte's. -/
theorem bytesAreMsbFirst : Obligations.BytesAreMsbFirst := by
  unfold Obligations.BytesAreMsbFirst
  refine ⟨?writer, ?reader⟩
  case writer =>
    intro s bits hlen hcnt _
    obtain ⟨byte, hsink, hzero, hbits⟩ := bwPutAll_byte hlen hcnt
    refine ⟨_, byte, execAll_bwPut s bits, hsink, hzero, fun j hj => ?_⟩
    rw [← hbits, bitsDown_getElem? byte 8 j hj]
  case reader =>
    intro s byte j hrem hsrc hbyte hj
    obtain ⟨hlt, -⟩ := List.getElem?_eq_some_iff.mp hbyte
    exact brGet_after_brGets ⟨hlt.le, hsrc⟩ (readerBits_getElem?_of_byte hrem hbyte hj)

/-! ### Little-endian fields (20_memory.md R63) -/

@[simp] theorem leBytes_length (k n : Nat) : (leBytes k n).length = k := by
  induction k generalizing n with
  | zero => rfl
  | succ k ih => rw [leBytes, List.length_cons, ih]

/-- A field of `k` bytes holds its number modulo `256 ^ k`. -/
theorem leNumber_leBytes (k n : Nat) : leNumber (leBytes k n) = n % 256 ^ k := by
  induction k generalizing n with
  | zero => simp [leBytes, leNumber, Nat.mod_one]
  | succ k ih =>
    rw [leBytes, leNumber, ih, BitVec.toNat_ofNat, pow_succ' 256 k, Nat.mod_mul]

/-- A bit vector of `k` bytes comes back from its field. -/
theorem leNumber_leBytes_toNat {w : Nat} (k : Nat) (hw : w = 8 * k) (v : BitVec w) :
    leNumber (leBytes k v.toNat) = v.toNat := by
  have hlt : v.toNat < 256 ^ k := by
    calc v.toNat < 2 ^ w := v.isLt
      _ = 256 ^ k := by rw [hw, pow_mul]; rfl
  rw [leNumber_leBytes, Nat.mod_eq_of_lt hlt]

/-- The number 0 has only zero bytes. -/
theorem leBytes_zero (k : Nat) : leBytes k 0 = List.replicate k 0#8 := by
  induction k with
  | zero => rfl
  | succ k ih =>
    rw [leBytes, Nat.zero_div, ih]
    rfl

/-! ### The container from each field on (20_memory.md R74) -/

/-- The file, field by field. -/
theorem containerBytes_eq (c : Container) :
    containerBytes c = Config.magic.toList ++ (leBytes 8 c.originalSize.toNat ++ (c.codeLengths.toList ++
      (BitVec.ofNat 8 c.padBits.val :: (leBytes 4 c.crc.toNat ++ c.payload)))) := by
  simp [containerBytes, headerBytes]

theorem containerBytes_drop_4 (c : Container) :
    (containerBytes c).drop 4 = leBytes 8 c.originalSize.toNat ++ (c.codeLengths.toList ++
      (BitVec.ofNat 8 c.padBits.val :: (leBytes 4 c.crc.toNat ++ c.payload))) := by
  rw [containerBytes_eq, List.drop_left' Vector.length_toList]

theorem containerBytes_drop_12 (c : Container) :
    (containerBytes c).drop 12 = c.codeLengths.toList ++
      (BitVec.ofNat 8 c.padBits.val :: (leBytes 4 c.crc.toNat ++ c.payload)) := by
  rw [← List.drop_drop (i := 8) (j := 4), containerBytes_drop_4, List.drop_left' (leBytes_length 8 _)]

theorem containerBytes_drop_268 (c : Container) :
    (containerBytes c).drop 268 = BitVec.ofNat 8 c.padBits.val :: (leBytes 4 c.crc.toNat ++ c.payload) := by
  rw [← List.drop_drop (i := 256) (j := 12), containerBytes_drop_12, List.drop_left' Vector.length_toList]

theorem containerBytes_drop_269 (c : Container) :
    (containerBytes c).drop 269 = leBytes 4 c.crc.toNat ++ c.payload := by
  rw [← List.drop_drop (i := 1) (j := 268), containerBytes_drop_268, List.drop_one, List.tail_cons]

theorem containerBytes_drop_273 (c : Container) : (containerBytes c).drop 273 = c.payload := by
  rw [← List.drop_drop (i := 4) (j := 269), containerBytes_drop_269, List.drop_left' (leBytes_length 4 _)]

theorem containerBytes_length (c : Container) : (containerBytes c).length = 273 + c.payload.length := by
  simp only [containerBytes_eq, List.length_append, List.length_cons, Vector.length_toList, leBytes_length]
  omega

/-- Byte `12 + a` is the code length of symbol `a`. -/
theorem containerBytes_codeLength (c : Container) (a : Symbol) :
    (containerBytes c)[12 + a.toNat]? = some (tblGet c.codeLengths a) := by
  have ha : a.toNat < c.codeLengths.toList.length := by simpa using a.isLt
  rw [← List.getElem?_drop, containerBytes_drop_12, List.getElem?_append_left ha, List.getElem?_eq_getElem ha]
  rfl

/-- Every byte of the empty container after the magic is zero (20_memory.md R76). -/
theorem containerBytes_emptyContainer :
    containerBytes emptyContainer = Config.magic.toList ++ List.replicate 269 0#8 := by
  have hcodes : emptyContainer.codeLengths.toList = List.replicate 256 0#8 := Vector.toList_replicate
  have hsize : leBytes 8 emptyContainer.originalSize.toNat = List.replicate 8 0#8 := leBytes_zero 8
  have hcrc : leBytes 4 emptyContainer.crc.toNat = List.replicate 4 0#8 := leBytes_zero 4
  have hpad : BitVec.ofNat 8 emptyContainer.padBits.val = 0#8 := rfl
  have hpayload : emptyContainer.payload = [] := rfl
  rw [containerBytes_eq, hcodes, hsize, hcrc, hpad, hpayload, List.append_nil, ← List.replicate_succ,
    List.replicate_append_replicate, List.replicate_append_replicate]

/-- Settles O59: each field is what the file holds from its offset on. -/
theorem containerLayout : Obligations.ContainerLayout := by
  unfold Obligations.ContainerLayout
  refine ⟨fun c => ⟨containerBytes_length c, ?magic, ?size, containerBytes_codeLength c, ?pad, ?crc,
    containerBytes_drop_273 c⟩, fun _ _ => rfl, containerBytes_emptyContainer⟩
  case magic => rw [containerBytes_eq, List.take_left' Vector.length_toList]
  case size =>
    rw [containerBytes_drop_4, List.take_left' (leBytes_length 8 _), leNumber_leBytes_toNat 8 rfl]
  case pad => rw [← List.head?_drop, containerBytes_drop_268, List.head?_cons]
  case crc =>
    rw [containerBytes_drop_269, List.take_left' (leBytes_length 4 _), leNumber_leBytes_toNat 4 rfl]

end Sys2Proof.Machine

/-! Which commands use `WDATA`, and which bits of it (spec/30_encoding.md R93). -/

namespace Sys2Proof

open Laws.TableRow

/-! ### The words of the six commands -/

/-- An operand put into the low byte of a word whose low byte is 0 (30_encoding.md R90). -/
theorem wordOf_zero_or_arg (op arg : Byte) : wordOf op 0#8 ||| arg.setWidth 16 = wordOf op arg := by
  ext i hi
  have happend (x : Byte) : (wordOf op x)[i] = if i < 8 then x.getLsbD i else op.getLsbD (i - 8) :=
    BitVec.getLsbD_append
  by_cases h : i < 8
  · simp [happend, h]
  · simp [happend, h, BitVec.getLsbD_of_ge arg i (by omega)]

theorem decode_crcSet (d : Word64) : decode ⟨wordOf 0x13#8 0#8, d⟩ = .ok (.crcSet (d.extractLsb' 0 32)) := by
  simp [decode, argNone]

theorem decode_brSeek (d : Word64) : decode ⟨wordOf 0x33#8 0#8, d⟩ = .ok (.brSeek d) := by
  simp [decode, argNone]

theorem decode_fqSet (sym : Symbol) (d : Word64) : decode ⟨wordOf 0x51#8 sym, d⟩ = .ok (.fqSet sym d) := by
  simp [decode]

theorem decode_clSet (sym : Symbol) (d : Word64) :
    decode ⟨wordOf 0x61#8 sym, d⟩ = .ok (.clSet sym (d.extractLsb' 0 8)) := by
  simp [decode]

theorem decode_tdSetsize (d : Word64) : decode ⟨wordOf 0x71#8 0#8, d⟩ = .ok (.tdSetsize d) := by
  simp [decode, argNone]

theorem decode_tdSetcrc (d : Word64) : decode ⟨wordOf 0x72#8 0#8, d⟩ = .ok (.tdSetcrc (d.extractLsb' 0 32)) := by
  simp [decode, argNone]

/-! ### Every other word -/

/-- The operations of the six commands that use `WDATA`: `CRC.SET`, `BR.SEEK`, `FQ.SET`, `CL.SET`, `TD.SETSIZE` and
`TD.SETCRC` (30_encoding.md R93). -/
def wdataOps : List Byte := [0x13#8, 0x33#8, 0x51#8, 0x61#8, 0x71#8, 0x72#8]

/-- Only the six rows that `wdataOps` lists mention `WDATA`, rows 7, 15, 22, 26, 30 and 31 of the decoder's match; every
other row, the default included, reads the word alone. -/
theorem decode_ignores_wdata {w : Word} (h : opOf w ∉ wdataOps) (d d' : Word64) : decode ⟨w, d⟩ = decode ⟨w, d'⟩ := by
  unfold decode
  generalize opOf w = op at h
  dsimp only
  split
  case h_7 | h_15 | h_22 | h_26 | h_30 | h_31 => exact absurd h (by decide)
  all_goals rfl

/-- Settles O5: the six words are decoded at an arbitrary `WDATA`, and no other operation's row reads it. -/
theorem wdataUsedBySixCommands : Obligations.WdataUsedBySixCommands := by
  unfold Obligations.WdataUsedBySixCommands
  refine ⟨decode_crcSet, decode_brSeek, ?fqSet, ?clSet, decode_tdSetsize, decode_tdSetcrc,
    fun _ d d' h => decode_ignores_wdata h d d'⟩
  case fqSet => exact fun a d => wordOf_zero_or_arg 0x51#8 a ▸ decode_fqSet a d
  case clSet => exact fun a d => wordOf_zero_or_arg 0x61#8 a ▸ decode_clSet a d

end Sys2Proof

/-! The words of the commands that use no `WDATA`, and the Checksum Engine (spec/30_encoding.md R93 to R95,
spec/41_crc.md section 2). -/

namespace Sys2Proof

open Machine Laws.TableRow

/-- A command that uses no `WDATA` has none of the six operations that do (30_encoding.md R93). -/
theorem opOf_encode_not_mem_wdataOps {i : Instr} (h : usesWdata i = false) : opOf (encode i).word ∉ wdataOps := by
  cases i
  case crcSet | brSeek | fqSet | clSet | tdSetsize | tdSetcrc => cases h
  all_goals simp [encode, wdataOps]

/-- The word of a command that uses no `WDATA` decodes to it whatever `WDATA` holds (30_encoding.md R93, R95). -/
theorem hasWord_encode {i : Instr} (hrow : Statement i) (hwf : i.wf = true) (h : usesWdata i = false) :
    HasWord (encode i).word i := by
  intro d
  obtain ⟨-, hdecode, -⟩ := hrow hwf
  exact (decode_ignores_wdata (opOf_encode_not_mem_wdataOps h) d (encode i).wdata).trans hdecode

/-! ### What the commands of the Checksum Engine do (41_crc.md R121, R123, R124) -/

theorem exec_crcInit (s : State) : exec .crcInit s = .next { s with crcState := 0xFFFFFFFF#32, status := .ok } := rfl

theorem exec_crcFin (s : State) :
    exec .crcFin s = .next { s with res := (crcFinal s.crcState).setWidth 64, status := .ok } := rfl

theorem exec_crcSet (v : Word32) (s : State) : exec (.crcSet v) s = .next { s with crcState := v, status := .ok } := rfl

/-- Settles O19: each command has its word, at an arbitrary `WDATA`, and ends ok with one register written. -/
theorem checksumCommands : Obligations.ChecksumCommands := by
  unfold Obligations.ChecksumCommands
  refine ⟨⟨?initWord, exec_crcInit⟩, ⟨?finWord, exec_crcFin⟩, decode_crcSet, exec_crcSet⟩
  case initWord => exact hasWord_encode (i := .crcInit) Laws.TableRow.crcInit rfl rfl
  case finWord => exact hasWord_encode (i := .crcFin) Laws.TableRow.crcFin rfl rfl

end Sys2Proof

/-! The bit writer, the bit reader and the in-memory bit buffer, command by command (spec/42_bitstream.md). -/

namespace Sys2Proof.Machine

open Sys2Proof

/-! ### Words (30_encoding.md R92, R94) -/

theorem decode_brGetn (n : Byte) (d : Word64) : decode ⟨wordOf 0x32#8 n, d⟩ = argCount (wordOf 0x32#8 n) .brGetn := by
  simp [decode]

theorem decode_bwPut (arg : Byte) (d : Word64) :
    decode ⟨wordOf 0x21#8 arg, d⟩ = argBit (wordOf 0x21#8 arg) .bwPut := by
  simp [decode]

theorem decode_mbPut (arg : Byte) (d : Word64) :
    decode ⟨wordOf 0x41#8 arg, d⟩ = argBit (wordOf 0x41#8 arg) .mbPut := by
  simp [decode]

/-- A bit operand as the low byte of its word. -/
theorem wordOf_or_ofBool (op : Byte) (b : Bool) :
    wordOf op 0#8 ||| (BitVec.ofBool b).setWidth 16 = wordOf op (bitArg b) := by
  have harg : (BitVec.ofBool b).setWidth 16 = (bitArg b).setWidth 16 := by
    cases b
    · rfl
    · rfl
  rw [harg, wordOf_zero_or_arg]

/-- An operand with `arg[7:1]` not 0 is no bit operand. -/
theorem argBit_ne_ok {op arg : Byte} (h : arg &&& 0xFE#8 ≠ 0#8) (f : Bool → Instr) (i : Instr) :
    argBit (wordOf op arg) f ≠ .ok i := by
  have h0 : arg ≠ 0#8 := by
    rintro rfl
    exact h rfl
  have h1 : arg ≠ 1#8 := by
    rintro rfl
    exact h rfl
  simp [argBit, h0, h1]

/-- The counts of `BR.GETN` are 1 to 64. -/
theorem countOk_iff (n : Byte) : countOk n = true ↔ 1 ≤ n.toNat ∧ n.toNat ≤ 64 := by
  rw [countOk, Bool.and_eq_true, decide_eq_true_eq, decide_eq_true_eq]
  rfl

/-! ### Reader -/

/-- At the end of the data there is no bit (42_bitstream.md R145). -/
theorem brGet_at_end {s : State} (hrem : s.brRem = 0) (hend : s.srcPos.toNat = s.src.length) : brGet s = .noData := by
  simp [brGet, hrem, hend]

/-- With no bit left of the current byte the next one is fetched, and its bit 7 delivered (42_bitstream.md R145). -/
theorem brGet_fetch {s : State} {byte : Byte} (hrem : s.brRem = 0) (hbyte : s.src[s.srcPos.toNat]? = some byte) :
    brGet s = .bit (byte.getLsbD 7) { s with brCur := byte, srcPos := s.srcPos + 1#64, brRem := 7 } := by
  obtain ⟨hlt, -⟩ := List.getElem?_eq_some_iff.mp hbyte
  rw [brGet, if_pos hrem, if_neg hlt.ne, hbyte]
  rfl

/-- A bit left of the current byte is delivered, and nothing fetched (42_bitstream.md R145). -/
theorem brGet_unread {s : State} (hrem : s.brRem ≠ 0) :
    brGet s = .bit (s.brCur.getLsbD (s.brRem.val - 1)) { s with brRem := s.brRem - 1 } := if_neg hrem

theorem exec_brGet_of_bit {s t : State} {b : Bool} (h : brGet s = .bit b t) :
    exec .brGet s = .next { t with res := if b then 1#64 else 0#64, status := .ok } := by
  simp only [exec, execBrGet, h]
  rfl

theorem exec_brGet_of_noData {s : State} (h : brGet s = .noData) :
    exec .brGet s = .next { s with status := .noData } := by
  simp only [exec, execBrGet, h]
  rfl

/-- The reader neither reads nor writes `RES` and `STATUS` (42_bitstream.md R145). -/
theorem brGet_res_status {s t : State} {b : Bool} (h : brGet s = .bit b t) (r : Word64) (c : Code) :
    brGet { s with res := r, status := c } = .bit b { t with res := r, status := c } := by
  by_cases hrem : s.brRem = 0
  · cases hbyte : s.src[s.srcPos.toNat]? with
    | none =>
      rw [brGet, if_pos hrem, hbyte] at h
      split at h
      · cases h
      · cases h
    | some byte =>
      rw [brGet_fetch hrem hbyte] at h
      cases h
      exact brGet_fetch hrem hbyte
  · rw [brGet_unread hrem] at h
    cases h
    exact brGet_unread hrem

/-- The loop of `BR.GETN` leaves the reader where as many `BR.GET` do, whatever they leave in `RES` and `STATUS`
(42_bitstream.md R148). -/
theorem execAll_brGet_of_brGetMany {n v k v' k' : Nat} {s t : State} (h : brGetMany n v k s = .got v' k' t)
    (r : Word64) (c : Code) : ∃ m r' c', k' = k + m ∧
      execAll (List.replicate m .brGet) { s with res := r, status := c } = .next { t with res := r', status := c' } := by
  induction n generalizing v k s r c with
  | zero =>
    cases h
    exact ⟨0, r, c, rfl, rfl⟩
  | succ n ih =>
    unfold brGetMany at h
    split at h
    next b u hget =>
      obtain ⟨m, r', c', hk, hexec⟩ := ih h (if b then 1#64 else 0#64) .ok
      refine ⟨m + 1, r', c', by omega, ?_⟩
      rw [List.replicate_succ, execAll, exec_brGet_of_bit (brGet_res_status hget r c)]
      exact hexec
    next =>
      cases h
      exact ⟨0, r, c, rfl, rfl⟩
    next => cases h

/-- `BR.GETN` inside the data: the value, the count and the status, and a reader that stands where as many `BR.GET`
leave it (42_bitstream.md R148). -/
theorem exec_brGetn {n : Byte} (hn : countOk n = true) {s : State} (h : ReaderOk s) : ∃ u,
    execAll (List.replicate (min n.toNat (readerBits s).length) .brGet) s = .next u ∧
    exec (.brGetn n) s = .next { s with
      brCur := u.brCur, brRem := u.brRem, srcPos := u.srcPos
      res := BitVec.ofNat 64 (bitsValue ((readerBits s).take n.toNat))
      resCnt := Fin.ofNat 65 (min n.toNat (readerBits s).length)
      status := if min n.toNat (readerBits s).length < n.toNat then .noData else .ok } := by
  obtain ⟨t, hmany, -, -, hmoved⟩ := brGetMany_spec n.toNat 0 0 s h
  obtain ⟨m, r, c, hm, hgets⟩ := execAll_brGet_of_brGetMany hmany s.res s.status
  rw [Nat.zero_add, Nat.zero_add] at hm
  refine ⟨_, hm ▸ hgets, ?_⟩
  simp only [exec, execBrGetn, if_pos hn, hmany, Nat.zero_add]
  rw [hmoved]
  split
  · rfl
  · rfl

/-- At most 64 bits fit `RES`. -/
theorem bitsValue_take_lt (bits : List Bool) {n : Nat} (hn : n ≤ 64) : bitsValue (bits.take n) < 2 ^ 64 :=
  (bitsValue_lt _).trans_le (Nat.pow_le_pow_right (by omega) ((List.length_take_le n bits).trans hn))

/-- Settles O29: the loop of `BR.GETN` is as many `BR.GET`, whose bits it collects. -/
theorem readerGetsManyBits : Obligations.ReaderGetsManyBits := by
  unfold Obligations.ReaderGetsManyBits
  refine ⟨?illegal, ?legal⟩
  case illegal =>
    intro n hn d i
    have hbad : ¬ countOk n = true := by
      rw [countOk_iff]
      rintro ⟨h1, h64⟩
      obtain rfl | h := hn
      · exact absurd h1 (by decide)
      · omega
    have hdecode : decode ⟨wordOf 0x32#8 n, d⟩ ≠ .ok i := by
      simp [decode_brGetn, argCount, hbad]
    exact wordOf_zero_or_arg 0x32#8 n ▸ hdecode
  case legal =>
    intro n s h1 h64 hpos hsrc
    have hn : countOk n = true := (countOk_iff n).mpr ⟨h1, h64⟩
    have hword : HasWord (wordOf 0x32#8 n) (.brGetn n) := hasWord_encode (i := .brGetn n) (Laws.TableRow.brGetn n) hn rfl
    refine ⟨wordOf_zero_or_arg 0x32#8 n ▸ hword, ?_⟩
    obtain ⟨u, hgets, hexec⟩ := exec_brGetn hn ⟨hpos, hsrc⟩
    have hcnt : (Fin.ofNat 65 (min n.toNat (readerBits s).length)).val = min n.toNat (readerBits s).length :=
      Nat.mod_eq_of_lt (by omega)
    refine ⟨_, u, hexec, hcnt, Nat.mod_eq_of_lt (bitsValue_take_lt _ h64), ?status, ?gets, rfl⟩
    case status => rw [hcnt]
    case gets => rw [hcnt, hgets]

theorem exec_brRst (s : State) :
    exec .brRst s = .next { s with brCur := 0#8, brRem := 0, srcPos := 0#64, status := .ok } := rfl

theorem exec_brSeek_beyond {p : Word64} {s : State} (h : s.src.length < p.toNat) :
    exec (.brSeek p) s = .next { s with status := .range } := by
  simp only [exec, execBrSeek, if_pos h]
  rfl

theorem exec_brSeek_inside {p : Word64} {s : State} (h : p.toNat ≤ s.src.length) :
    exec (.brSeek p) s = .next { s with brCur := 0#8, brRem := 0, srcPos := p, status := .ok } := by
  simp only [exec, execBrSeek, if_neg h.not_gt]
  rfl

/-- Settles O27: `BR.RST` by its equation, `BR.SEEK` by the two sides of its check. -/
theorem readerPositioning : Obligations.ReaderPositioning := by
  unfold Obligations.ReaderPositioning
  refine ⟨⟨?rstWord, exec_brRst⟩, decode_brSeek, fun _ _ => ⟨exec_brSeek_beyond, exec_brSeek_inside⟩⟩
  case rstWord => exact hasWord_encode (i := .brRst) Laws.TableRow.brRst rfl rfl

/-- Settles O28, from the three cases of `br_get()`. -/
theorem readerGetsABit : Obligations.ReaderGetsABit := by
  unfold Obligations.ReaderGetsABit
  refine ⟨?word, fun s => ⟨?atEnd, ?fetch, ?unread⟩⟩
  case word => exact hasWord_encode (i := .brGet) Laws.TableRow.brGet rfl rfl
  case atEnd => exact fun hrem hend => exec_brGet_of_noData (brGet_at_end hrem hend)
  case fetch => exact fun byte hrem hbyte => exec_brGet_of_bit (brGet_fetch hrem hbyte)
  case unread => exact fun hrem => exec_brGet_of_bit (brGet_unread hrem)

/-! ### The accumulator as a number (42_bitstream.md R139, R142) -/

/-- `(acc << 1) | b` is `2 * acc + b`, as a byte. -/
theorem shiftIn_eq_ofNat (acc : Byte) (b : Bool) : shiftIn acc b = BitVec.ofNat 8 (2 * acc.toNat + b.toNat) := by
  rw [← Nat.bit_val]
  apply BitVec.eq_of_getLsbD_eq
  intro j hj
  rw [BitVec.getLsbD_ofNat, decide_eq_true hj, Bool.true_and]
  cases j with
  | zero => rw [shiftIn_getLsbD_zero, Nat.testBit_bit_zero]
  | succ k => rw [shiftIn_getLsbD_succ acc b k (by omega), Nat.testBit_bit_succ, BitVec.testBit_toNat]

/-- `acc << (8 - cnt)` is `acc * 2 ^ (8 - cnt)`, as a byte. -/
theorem leftJustify_eq_ofNat (acc : Byte) (cnt : Nat) :
    leftJustify acc cnt = BitVec.ofNat 8 (acc.toNat * 2 ^ (8 - cnt)) := by
  apply BitVec.eq_of_toNat_eq
  rw [leftJustify, BitVec.toNat_shiftLeft, Nat.shiftLeft_eq, BitVec.toNat_ofNat]

/-! ### Writer -/

theorem exec_bwRst (s : State) :
    exec .bwRst s = .next { s with bwAcc := 0#8, bwCnt := 0, bwPad := 0, status := .ok } := rfl

/-- The eighth bit since a byte boundary appends a byte (42_bitstream.md R139). -/
theorem exec_bwPut_eighth (b : Bool) {s : State} (h : s.bwCnt.val = 7) :
    exec (.bwPut b) s = .next { s with
      sink := s.sink ++ [BitVec.ofNat 8 (2 * s.bwAcc.toNat + b.toNat)], bwAcc := 0#8, bwCnt := 0, status := .ok } := by
  have h7 : s.bwCnt = 7 := Fin.ext h
  simp only [exec, execBwPut, bwPut, if_pos h7, shiftIn_eq_ofNat]
  rfl

/-- Any other bit enters the accumulator (42_bitstream.md R139). -/
theorem exec_bwPut_pending (b : Bool) {s : State} (h : s.bwCnt.val ≠ 7) :
    exec (.bwPut b) s = .next { s with
      bwAcc := BitVec.ofNat 8 (2 * s.bwAcc.toNat + b.toNat), bwCnt := s.bwCnt + 1, status := .ok } := by
  have h7 : s.bwCnt ≠ 7 := fun h7 => h (congrArg Fin.val h7)
  simp only [exec, execBwPut, bwPut, if_neg h7, shiftIn_eq_ofNat]
  rfl

/-- Pending bits are flushed as one byte, filled up with zeros (42_bitstream.md R142). -/
theorem exec_bwFlush_pending {s : State} (h : 0 < s.bwCnt.val) :
    exec .bwFlush s = .next { s with
      sink := s.sink ++ [BitVec.ofNat 8 (s.bwAcc.toNat * 2 ^ (8 - s.bwCnt.val))],
      bwPad := Fin.ofNat 8 (8 - s.bwCnt.val), bwAcc := 0#8, bwCnt := 0, status := .ok } := by
  have h0 : s.bwCnt ≠ 0 := Fin.pos_iff_ne_zero.mp h
  simp only [exec, execBwFlush, if_neg h0, leftJustify_eq_ofNat]
  rfl

/-- At a byte boundary a flush writes `BW_PAD` alone (42_bitstream.md R142). -/
theorem exec_bwFlush_boundary {s : State} (h : s.bwCnt.val = 0) :
    exec .bwFlush s = .next { s with bwPad := 0, status := .ok } := by
  have h0 : s.bwCnt = 0 := Fin.ext h
  simp only [exec, execBwFlush, if_pos h0]
  rfl

/-- Settles O22: each command's word, and its equation on either side of its condition on `BW_CNT`. -/
theorem writerCommands : Obligations.WriterCommands := by
  unfold Obligations.WriterCommands
  refine ⟨⟨?rstWord, exec_bwRst⟩,
    ⟨fun b => ?putWord, fun arg harg d i => ?putIllegal, fun b _ => ⟨exec_bwPut_eighth b, exec_bwPut_pending b⟩⟩,
    ?flushWord, fun _ => ⟨exec_bwFlush_pending, exec_bwFlush_boundary⟩⟩
  case rstWord => exact hasWord_encode (i := .bwRst) Laws.TableRow.bwRst rfl rfl
  case putWord =>
    have hword : HasWord (wordOf 0x21#8 (bitArg b)) (.bwPut b) :=
      hasWord_encode (i := .bwPut b) (Laws.TableRow.bwPut b) rfl rfl
    exact wordOf_or_ofBool 0x21#8 b ▸ hword
  case putIllegal =>
    exact wordOf_zero_or_arg 0x21#8 arg ▸ decode_bwPut arg d ▸ argBit_ne_ok harg .bwPut i
  case flushWord => exact hasWord_encode (i := .bwFlush) Laws.TableRow.bwFlush rfl rfl

/-! ### In-memory buffer -/

/-- The buffer is full exactly where its capacity is used up (42_bitstream.md R154). -/
theorem mbRoom_eq_zero_iff (s : State) : mbRoom s = 0 ↔ 8 * (s.mbCap - s.mbBytes.length) ≤ s.mbCnt.val :=
  Nat.sub_eq_zero_iff_le

theorem exec_mbRst (s : State) : exec .mbRst s = .next { s with
    mbBytes := [], mbAcc := 0#8, mbCnt := 0, mbLvb := 0, mbFlushed := false, status := .ok } := rfl

theorem exec_mbPut_flushed (b : Bool) {s : State} (h : s.mbFlushed = true) :
    exec (.mbPut b) s = .next { s with status := .seq } := by
  simp only [exec, execMbPut, if_pos h]
  rfl

theorem exec_mbPut_full (b : Bool) {s : State} (h : s.mbFlushed = false)
    (hfull : 8 * (s.mbCap - s.mbBytes.length) ≤ s.mbCnt.val) :
    exec (.mbPut b) s = .next { s with status := .capacity } := by
  simp only [exec, execMbPut, if_neg (Bool.eq_false_iff.mp h), if_pos ((mbRoom_eq_zero_iff s).mpr hfull)]
  rfl

/-- With room, `MB.PUT` is `mb_put` (42_bitstream.md R156). -/
theorem exec_mbPut_room (b : Bool) {s : State} (h : s.mbFlushed = false)
    (hroom : s.mbCnt.val < 8 * (s.mbCap - s.mbBytes.length)) :
    exec (.mbPut b) s = .next (endOk (mbPut s b)) := by
  have h0 : mbRoom s ≠ 0 := fun h0 => hroom.not_ge ((mbRoom_eq_zero_iff s).mp h0)
  simp only [exec, execMbPut, if_neg (Bool.eq_false_iff.mp h), if_neg h0]

/-- The eighth bit since a byte boundary appends a byte (42_bitstream.md R154). -/
theorem mbPut_eighth (b : Bool) {s : State} (h : s.mbCnt.val = 7) :
    mbPut s b = { s with
      mbBytes := s.mbBytes ++ [BitVec.ofNat 8 (2 * s.mbAcc.toNat + b.toNat)], mbAcc := 0#8, mbCnt := 0 } := by
  have h7 : s.mbCnt = 7 := Fin.ext h
  rw [mbPut, if_pos h7, shiftIn_eq_ofNat]

/-- Any other bit enters the accumulator (42_bitstream.md R154). -/
theorem mbPut_pending (b : Bool) {s : State} (h : s.mbCnt.val ≠ 7) :
    mbPut s b = { s with mbAcc := BitVec.ofNat 8 (2 * s.mbAcc.toNat + b.toNat), mbCnt := s.mbCnt + 1 } := by
  have h7 : s.mbCnt ≠ 7 := fun h7 => h (congrArg Fin.val h7)
  rw [mbPut, if_neg h7, shiftIn_eq_ofNat]

theorem exec_mbFlush_flushed {s : State} (h : s.mbFlushed = true) :
    exec .mbFlush s = .next { s with status := .seq } := by
  simp only [exec, execMbFlush, if_pos h]
  rfl

/-- Pending bits become the last byte, filled up with zeros, and `MB_LVB` counts them (42_bitstream.md R157). -/
theorem exec_mbFlush_pending {s : State} (h : s.mbFlushed = false) (hcnt : 0 < s.mbCnt.val) :
    exec .mbFlush s = .next { s with
      mbBytes := s.mbBytes ++ [BitVec.ofNat 8 (s.mbAcc.toNat * 2 ^ (8 - s.mbCnt.val))],
      mbLvb := s.mbCnt.castSucc, mbAcc := 0#8, mbCnt := 0, mbFlushed := true, status := .ok } := by
  have h0 : s.mbCnt ≠ 0 := Fin.pos_iff_ne_zero.mp hcnt
  simp only [exec, execMbFlush, if_neg (Bool.eq_false_iff.mp h), if_pos h0, leftJustify_eq_ofNat]
  rfl

/-- At a byte boundary no byte is appended, and `MB_LVB` is 8 or, in an empty buffer, 0 (42_bitstream.md R157). -/
theorem exec_mbFlush_boundary {s : State} (h : s.mbFlushed = false) (hcnt : s.mbCnt.val = 0) :
    exec .mbFlush s = .next { s with mbLvb := if s.mbBytes ≠ [] then 8 else 0, mbFlushed := true, status := .ok } := by
  have h0 : ¬ s.mbCnt ≠ 0 := not_not.mpr (Fin.ext hcnt)
  simp only [exec, execMbFlush, if_neg (Bool.eq_false_iff.mp h), if_neg h0]
  split
  · rfl
  · rfl

/-- Settles O30: each command's word, and its equation in each case of its checks. -/
theorem bufferCommands : Obligations.BufferCommands := by
  unfold Obligations.BufferCommands
  refine ⟨⟨?rstWord, exec_mbRst⟩,
    ⟨fun b => ?putWord, fun arg harg d i => ?putIllegal, fun b _ =>
      ⟨exec_mbPut_flushed b, exec_mbPut_full b, fun h hroom h7 => ?putEighth, fun h hroom h7 => ?putPending⟩⟩,
    ?flushWord, fun _ =>
      ⟨exec_mbFlush_flushed, exec_mbFlush_pending, fun h hcnt hbytes => ?flushFull, fun h hcnt hbytes => ?flushEmpty⟩⟩
  case rstWord => exact hasWord_encode (i := .mbRst) Laws.TableRow.mbRst rfl rfl
  case putWord =>
    have hword : HasWord (wordOf 0x41#8 (bitArg b)) (.mbPut b) :=
      hasWord_encode (i := .mbPut b) (Laws.TableRow.mbPut b) rfl rfl
    exact wordOf_or_ofBool 0x41#8 b ▸ hword
  case putIllegal =>
    exact wordOf_zero_or_arg 0x41#8 arg ▸ decode_mbPut arg d ▸ argBit_ne_ok harg .mbPut i
  case putEighth => rw [exec_mbPut_room b h hroom, mbPut_eighth b h7]; rfl
  case putPending => rw [exec_mbPut_room b h hroom, mbPut_pending b h7]; rfl
  case flushWord => exact hasWord_encode (i := .mbFlush) Laws.TableRow.mbFlush rfl rfl
  case flushFull => rw [exec_mbFlush_boundary h hcnt, if_pos hbytes]
  case flushEmpty => rw [exec_mbFlush_boundary h hcnt, if_neg (not_not.mpr hbytes)]

theorem exec_mbReplay_unflushed {s : State} (h : s.mbFlushed = false) :
    exec .mbReplay s = .next { s with status := .seq } := by
  simp only [exec, execMbReplay, if_pos h]
  rfl

/-- A replay puts the bits that the buffer stands for (42_bitstream.md R158). -/
theorem exec_mbReplay_flushed {s : State} (h : s.mbFlushed = true) :
    exec .mbReplay s = .next { bwPutAll s (replayBits s) with status := .ok } := by
  rw [replayBits_eq_heldBits]
  simp only [exec, execMbReplay, if_neg (Bool.ne_false_iff.mpr h)]
  rfl

/-- The writer's count and the length of the sink after a sequence of puts: a byte for every eight bits
(42_bitstream.md R139). -/
theorem bwPutAll_cnt_length (s : State) (bits : List Bool) :
    (bwPutAll s bits).bwCnt.val = (s.bwCnt.val + bits.length) % 8 ∧
      (bwPutAll s bits).sink.length = s.sink.length + (s.bwCnt.val + bits.length) / 8 := by
  obtain ⟨hbits, -, -, -⟩ := bwPutAll_spec s bits
  have hlen : (writerBits (bwPutAll s bits)).length = 8 * s.sink.length + s.bwCnt.val + bits.length := by
    rw [hbits, List.length_append, writerBits, List.length_append, streamBits_length, bitsDown_length]
  obtain ⟨hcnt, hsink⟩ := writer_of_bits (bwPutAll s bits)
  omega

/-- Settles O32: a replay is the sequence of puts of the buffer's bits. -/
theorem replaySendsTheValidBits : Obligations.ReplaySendsTheValidBits := by
  unfold Obligations.ReplaySendsTheValidBits
  refine ⟨?word, fun s => ⟨exec_mbReplay_unflushed, fun h => ?flushed⟩⟩
  case word => exact hasWord_encode (i := .mbReplay) Laws.TableRow.mbReplay rfl rfl
  case flushed =>
    obtain ⟨-, hframe, -, -⟩ := bwPutAll_spec s (replayBits s)
    obtain ⟨hcnt, hsink⟩ := bwPutAll_cnt_length s (replayBits s)
    refine ⟨_, _, exec_mbReplay_flushed h, execAll_bwPut s (replayBits s), rfl, ?frame, hcnt, hsink,
      fun _ hbytes => ?length⟩
    case frame => rw [hframe]
    case length => rw [replayBits_length, if_neg (mt List.eq_nil_of_length_eq_zero hbytes)]

end Sys2Proof.Machine

/-! The frequency table's commands, the counting pass and the outcomes of `HT.BUILD` (spec/43_tree_builder.md). -/

namespace Sys2Proof.Machine

open Sys2Proof

/-! ### The frequency table (43_tree_builder.md R180 to R182) -/

theorem exec_fqClr (s : State) :
    exec .fqClr s = .next { s with freq := tblFill 0#64, htBuilt := false, status := .ok } := rfl

theorem exec_fqSet (sym : Symbol) (n : Word64) (s : State) :
    exec (.fqSet sym n) s = .next { s with freq := tblSet s.freq sym n, htBuilt := false, status := .ok } := rfl

/-- The largest count cannot grow (43_tree_builder.md R182). -/
theorem exec_fqInc_full {sym : Symbol} {s : State} (h : (freqOf s sym).toNat = 2 ^ 64 - 1) :
    exec (.fqInc sym) s = .next { s with status := .overflow } := by
  simp only [exec, execFqInc, if_pos h]
  rfl

/-- Below the largest count, the increment does not wrap. -/
theorem toNat_tblGet_increment {freq : Table Word64} {a : Symbol} (h : (tblGet freq a).toNat < 2 ^ 64 - 1)
    (c : Symbol) : (tblGet (tblSet freq a (tblGet freq a + 1#64)) c).toNat =
      (tblGet freq c).toNat + if c = a then 1 else 0 := by
  by_cases hca : c = a
  · subst hca
    rw [tblGet_tblSet_self, if_pos rfl, BitVec.toNat_add]
    exact Nat.mod_eq_of_lt (by simp; omega)
  · rw [tblGet_tblSet_ne freq _ hca, if_neg hca, Nat.add_zero]

/-- Every other count grows by one (43_tree_builder.md R182). -/
theorem exec_fqInc_room {a : Symbol} {s : State} (h : (freqOf s a).toNat < 2 ^ 64 - 1) :
    ∃ t, exec (.fqInc a) s = .next t ∧
      (∀ c, (freqOf t c).toNat = (freqOf s c).toNat + if c = a then 1 else 0) ∧
      t = { s with freq := t.freq, htBuilt := false, status := .ok } := by
  refine ⟨{ s with freq := tblSet s.freq a (freqOf s a + 1#64), htBuilt := false, status := .ok }, ?_,
    toNat_tblGet_increment h, rfl⟩
  simp only [exec, execFqInc, if_neg h.ne]
  rfl

/-- Settles O36: each command by its equation, the element read back after the write. -/
theorem frequencyTableCommands : Obligations.FrequencyTableCommands := by
  unfold Obligations.FrequencyTableCommands
  refine ⟨⟨?clrWord, fun s => ⟨_, exec_fqClr s, fun a => tblGet_tblFill 0#64 a, rfl⟩⟩,
    fun a n => ⟨?setWord, fun s => ⟨_, exec_fqSet a n s, fun c => tblGet_tblSet s.freq a c n, rfl⟩⟩⟩
  case clrWord => exact hasWord_encode (i := .fqClr) Laws.TableRow.fqClr rfl rfl
  case setWord => exact wordOf_zero_or_arg 0x51#8 a ▸ decode_fqSet a n

/-! ### The counting pass (43_tree_builder.md R182) -/

/-- One `FQ.INC` for each byte adds the byte's occurrences to its count, as long as no count outgrows 64 bits. -/
theorem execAll_fqInc (input : List Byte) {s : State} (hok : s.status = .ok)
    (hfit : ∀ a, (freqOf s a).toNat + input.count a < 2 ^ 64) :
    ∃ t, execAll (input.map .fqInc) s = .next t ∧ t.status = .ok ∧
      ∀ a, (freqOf t a).toNat = (freqOf s a).toNat + input.count a := by
  induction input generalizing s with
  | nil => exact ⟨s, rfl, hok, fun a => rfl⟩
  | cons b bs ih =>
    have hroom : (freqOf s b).toNat < 2 ^ 64 - 1 := by
      have hb := hfit b
      rw [List.count_cons_self] at hb
      omega
    obtain ⟨u, hstep, hinc, hframe⟩ := exec_fqInc_room hroom
    have hcount (a : Symbol) :
        (freqOf u a).toNat + bs.count a = (freqOf s a).toNat + (b :: bs).count a := by
      simp only [hinc, List.count_cons, beq_iff_eq, eq_comm (a := b)]
      omega
    obtain ⟨t, hexec, hstatus, hfreq⟩ := ih (congrArg State.status hframe) (fun a => hcount a ▸ hfit a)
    refine ⟨t, ?_, hstatus, fun a => (hfreq a).trans (hcount a)⟩
    simp only [List.map_cons, execAll, hstep, hexec]

/-- Counts that are the occurrences of each byte of an input add up to its length. -/
theorem totalFreq_eq_length {freq : Table Word64} {input : List Byte}
    (h : ∀ a, (tblGet freq a).toNat = input.count a) : totalFreq freq = input.length := by
  have hmem (a : Symbol) : a ∈ presentByFreq freq ↔ a ∈ input.dedup := by
    rw [mem_presentByFreq, List.mem_dedup, ← List.count_pos_iff, ← h, Nat.pos_iff_ne_zero]
    exact not_congr BitVec.toNat_inj.symm
  have hperm : (presentByFreq freq).Perm input.dedup :=
    (List.perm_ext_iff_of_nodup (presentByFreq_nodup freq) input.nodup_dedup).mpr hmem
  calc totalFreq freq
      = ((presentByFreq freq).map (fun a => input.count a)).sum := by simp only [totalFreq, h]
    _ = (input.dedup.map (fun a => input.count a)).sum := (hperm.map _).sum_eq
    _ = input.length := List.sum_map_count_dedup_eq_length input

/-- Settles O37, the counts by induction on the input from the cleared table. -/
theorem countingPass : Obligations.CountingPass := by
  unfold Obligations.CountingPass
  refine ⟨fun a => ⟨?word, fun s => ⟨exec_fqInc_full, exec_fqInc_room⟩⟩, fun s input hlen => ?pass⟩
  case word =>
    have hword : HasWord (wordOf 0x52#8 a) (.fqInc a) :=
      hasWord_encode (i := .fqInc a) (Laws.TableRow.fqInc a) rfl rfl
    exact wordOf_zero_or_arg 0x52#8 a ▸ hword
  case pass =>
    have hzero (a : Symbol) : (tblGet (tblFill 0#64) a).toNat = 0 := by simp
    obtain ⟨t, hexec, hstatus, hfreq⟩ := execAll_fqInc input
      (s := { s with freq := tblFill 0#64, htBuilt := false, status := .ok }) rfl
      (fun a => by
        have ha : input.count a ≤ input.length := List.count_le_length
        simp only [freqOf, hzero]
        omega)
    simp only [freqOf, hzero, Nat.zero_add] at hfreq
    refine ⟨t, ?_, hstatus, hfreq, totalFreq_eq_length hfreq⟩
    simp only [execAll, exec_fqClr, hexec]

/-! ### The builder (43_tree_builder.md R188 to R194) -/

theorem exec_htBuild_overflow {s : State} (h : 2 ^ 64 ≤ totalFreq s.freq) :
    exec .htBuild s = .next { s with status := .overflow } := by
  simp only [exec, execHtBuild, if_pos h]
  rfl

theorem exec_htBuild_fits {s : State} (h : totalFreq s.freq < 2 ^ 64) :
    exec .htBuild s = .next { s with
      htNodes := (buildTree s.freq).1, htRoot := (buildTree s.freq).2
      htNSym := (presentByFreq s.freq).length, htBuilt := true, status := .ok } := by
  simp only [exec, execHtBuild, if_neg h.not_ge]
  rfl

/-- A tree that matches `FREQ` gives its lengths, and neither the codes nor the trie match them (44_canonical.md
R212). -/
theorem exec_clExtract_built {s : State} {lens : Table Byte} (hbuilt : s.htBuilt = true)
    (h : extractLengths s.htNodes s.htRoot = .ok lens) :
    exec .clExtract s = .next { s with len := lens, ccValid := false, trValid := false, status := .ok } := by
  simp only [exec, execClExtract, hbuilt, h, Bool.true_eq_false, if_false]
  rfl

/-- No tree: 256 zero lengths (43_tree_builder.md R192). -/
theorem extractLengths_buildTree_none {freq : Table Word64} (h : presentByFreq freq = []) :
    extractLengths (buildTree freq).1 (buildTree freq).2 = .ok (tblFill 0#8) := by
  rw [buildTree_none h]
  rfl

/-- The synthetic tree: its leaf is one below the root (43_tree_builder.md R191). -/
theorem extractLengths_buildTree_one {freq : Table Word64} {p : Symbol} (h : presentByFreq freq = [p]) :
    extractLengths (buildTree freq).1 (buildTree freq).2 = .ok (tblSet (tblFill 0#8) p 1#8) := by
  rw [buildTree_one h]
  rfl

/-- The loop of `HT.BUILD` only appends to the arena (43_tree_builder.md R188). -/
theorem prefix_joinLoop (turns : Nat) (arena : List HtNode) (q : List QEntry) : arena <+: joinLoop turns arena q := by
  induction turns, arena, q using joinLoop.induct with
  | case1 | case2 => simp [joinLoop]
  | case3 turns arena x q a hpop => simp [joinLoop, hpop]
  | case4 turns arena x q a y r hpop node ih =>
    simp only [joinLoop, hpop]
    exact (List.prefix_append _ _).trans ih

/-- The leaves, in ascending order of their symbols, stand at the front of the arena (43_tree_builder.md R188). -/
theorem leaves_prefix_buildTree {freq : Table Word64} (h : 2 ≤ (presentByFreq freq).length) :
    (presentByFreq freq).map (leafNode freq) <+: (buildTree freq).1 := by
  unfold buildTree
  split
  next hnone => simp [hnone] at h
  next hone => simp [hone] at h
  next hmany =>
    rw [hmany]
    exact prefix_joinLoop _ _ _

/-- Settles O38, by the number of present symbols. -/
theorem buildOutcome : Obligations.BuildOutcome := by
  unfold Obligations.BuildOutcome
  refine ⟨?word, fun s => ⟨exec_htBuild_overflow, fun hfit =>
    ⟨_, exec_htBuild_fits hfit, rfl, fun hnone => ?none, fun a hone => ?one, fun hmany => ?many⟩⟩⟩
  case word => exact hasWord_encode (i := .htBuild) Laws.TableRow.htBuild rfl rfl
  case none =>
    exact ⟨congrArg Prod.fst (buildTree_none hnone), congrArg Prod.snd (buildTree_none hnone), _,
      exec_clExtract_built rfl (extractLengths_buildTree_none hnone), fun a => by simp [lenOf]⟩
  case one =>
    exact ⟨congrArg Prod.snd (buildTree_one hone), congrArg Prod.fst (buildTree_one hone), _,
      exec_clExtract_built rfl (extractLengths_buildTree_one hone), by simp [lenOf]⟩
  case many =>
    obtain ⟨arena, -, -, hbuild, hlen, -⟩ := buildTree_spec hfit hmany
    have htake := List.prefix_iff_eq_take.mp (leaves_prefix_buildTree hmany)
    simp only [hbuild, List.length_map] at htake ⊢
    exact ⟨by omega, congrArg some (by omega), htake.symm⟩

end Sys2Proof.Machine

/-! The length table's commands and `CL.EXTRACT` (spec/44_canonical.md section 1). -/

namespace Sys2Proof.Machine

open Sys2Proof

/-! ### Writing the length table (44_canonical.md R210, R211) -/

theorem exec_clClr (s : State) :
    exec .clClr s = .next { s with len := tblFill 0#8, ccValid := false, trValid := false, status := .ok } := rfl

theorem exec_clSet (sym : Symbol) (l : Byte) (s : State) : exec (.clSet sym l) s =
    .next { s with len := tblSet s.len sym l, ccValid := false, trValid := false, status := .ok } := rfl

/-- Settles O41: each command by its equation, the element read back after the write. -/
theorem lengthTableCommands : Obligations.LengthTableCommands := by
  unfold Obligations.LengthTableCommands
  refine ⟨⟨?clrWord, fun s => ⟨_, exec_clClr s, fun a => ?zero, rfl⟩⟩, fun a d => ?setWord,
    fun a l s => ⟨_, exec_clSet a l s, fun c => ?element, rfl⟩⟩
  case clrWord => exact hasWord_encode (i := .clClr) Laws.TableRow.clClr rfl rfl
  case zero => simp [lenOf]
  case setWord => exact wordOf_zero_or_arg 0x61#8 a ▸ decode_clSet a d
  case element =>
    simp only [lenOf, tblGet_tblSet]
    split
    · rfl
    · rfl

/-! ### The leaves of a built tree (43_tree_builder.md R191, R196) -/

/-- The synthetic tree has one leaf, one below the root (43_tree_builder.md R191). -/
theorem leafBelow_buildTree_one {freq : Table Word64} {p : Symbol} (hone : presentByFreq freq = [p])
    (a : Symbol) (d : Nat) : LeafBelow (buildTree freq).1 1 a d ↔ (a, d) ∈ [(p, 1)] := by
  rw [buildTree_one hone]
  have hleaf : LeavesBelow [leafNode freq p, { freq := tblGet freq p, sym := .internal, c0 := some 0, c1 := none }]
      0 [(p, 0)] := .leaf rfl rfl
  constructor
  · intro h
    cases h with
    | here hnd hsym =>
      obtain rfl := Option.some.inj hnd
      cases hsym
    | child0 hnd _ hchild hbelow =>
      obtain rfl := Option.some.inj hnd
      obtain rfl := Option.some.inj hchild
      simpa using (hleaf.leafBelow_iff _ _).mp hbelow
    | child1 hnd _ hchild _ =>
      obtain rfl := Option.some.inj hnd
      cases hchild
  · intro h
    obtain ⟨rfl, rfl⟩ := Prod.mk.inj (List.mem_singleton.mp h)
    exact .child0 rfl rfl rfl ((hleaf.leafBelow_iff _ _).mpr (List.mem_singleton.mpr rfl))

/-- Below the root of a built tree stands one leaf for each present symbol, and no other. -/
theorem leafBelow_buildTree {freq : Table Word64} (hfit : totalFreq freq < 2 ^ 64) {r : Nat}
    (hroot : (buildTree freq).2 = some r) : ∃ leaves : List (Symbol × Nat),
      (leaves.map Prod.fst).Perm (presentByFreq freq) ∧
      ∀ a d, LeafBelow (buildTree freq).1 r a d ↔ (a, d) ∈ leaves := by
  match hp : presentByFreq freq with
  | [] =>
    rw [buildTree_none hp] at hroot
    cases hroot
  | [p] =>
    rw [buildTree_one hp] at hroot
    cases hroot
    exact ⟨[(p, 1)], .refl _, leafBelow_buildTree_one hp⟩
  | p :: q :: ps =>
    obtain ⟨arena, -, leaves, hbuild, -, hleaves, hperm, -⟩ := buildTree_spec hfit (by simp [hp])
    rw [hbuild] at hroot ⊢
    cases hroot
    exact ⟨leaves, hp ▸ hperm, hleaves.leafBelow_iff⟩

/-- A symbol that has a leaf in a built tree is present. -/
theorem present_of_leafBelow {freq : Table Word64} (hfit : totalFreq freq < 2 ^ 64) {r : Nat}
    (hroot : (buildTree freq).2 = some r) {a : Symbol} {d : Nat} (h : LeafBelow (buildTree freq).1 r a d) :
    tblGet freq a ≠ 0#64 := by
  obtain ⟨leaves, hperm, hiff⟩ := leafBelow_buildTree hfit hroot
  exact mem_presentByFreq.mp (hperm.mem_iff.mp (List.mem_map_of_mem ((hiff a d).mp h)))

/-- A symbol has at most one leaf in a built tree. -/
theorem leafBelow_depth_unique {freq : Table Word64} (hfit : totalFreq freq < 2 ^ 64) {r : Nat}
    (hroot : (buildTree freq).2 = some r) {a : Symbol} {d d' : Nat} (h : LeafBelow (buildTree freq).1 r a d)
    (h' : LeafBelow (buildTree freq).1 r a d') : d = d' := by
  obtain ⟨leaves, hperm, hiff⟩ := leafBelow_buildTree hfit hroot
  have hnodup : (leaves.map Prod.fst).Nodup := hperm.nodup_iff.mpr (presentByFreq_nodup freq)
  exact congrArg Prod.snd (List.inj_on_of_nodup_map hnodup ((hiff a d).mp h) ((hiff a d').mp h') rfl)

/-! ### `CL.EXTRACT` (44_canonical.md R212) -/

/-- A tree that no longer matches `FREQ` gives no lengths (44_canonical.md R212). -/
theorem exec_clExtract_unbuilt {s : State} (h : s.htBuilt = false) :
    exec .clExtract s = .next { s with status := .seq } := by
  simp only [exec, execClExtract, if_pos h]
  rfl

/-- The extracted lengths by the leaves of the tree: the leaf's depth, which is 1 or more, for a symbol that has a leaf,
0 for every other; and the symbols with a leaf are the present ones (44_canonical.md R212). -/
theorem extractLengths_leaves {freq : Table Word64} (hfit : totalFreq freq < 2 ^ 64) :
    ∃ lens, extractLengths (buildTree freq).1 (buildTree freq).2 = .ok lens ∧
      (∀ a, (tblGet lens a).toNat = 0 ↔ tblGet freq a = 0#64) ∧
      ((buildTree freq).2 = none → ∀ a, tblGet freq a = 0#64) ∧
      ∀ r, (buildTree freq).2 = some r →
        (∀ a d, LeafBelow (buildTree freq).1 r a d → (tblGet lens a).toNat = d ∧ 1 ≤ d) ∧
        ∀ a, (∀ d, ¬ LeafBelow (buildTree freq).1 r a d) → tblGet freq a = 0#64 := by
  obtain ⟨lens, hlens, habsent, hpresent, -, -⟩ := extractLengths_spec hfit
  refine ⟨lens, hlens, fun a => ⟨fun hzero => ?_, fun ha => by rw [habsent a ha]; rfl⟩, fun hnone a => ?_,
    fun r hroot => ⟨fun a d hleaf => ?_, fun a hno => ?_⟩⟩
  · by_contra ha
    obtain ⟨hpos, -⟩ := hpresent a ha
    omega
  · by_contra ha
    obtain ⟨-, r, hroot, -⟩ := hpresent a ha
    rw [hnone] at hroot
    cases hroot
  · obtain ⟨hpos, r', hroot', hleaf'⟩ := hpresent a (present_of_leafBelow hfit hroot hleaf)
    obtain rfl : r = r' := Option.some.inj (hroot.symm.trans hroot')
    have hdepth := leafBelow_depth_unique hfit hroot hleaf' hleaf
    exact ⟨hdepth, hdepth ▸ hpos⟩
  · by_contra ha
    obtain ⟨-, r', hroot', hleaf'⟩ := hpresent a ha
    obtain rfl : r = r' := Option.some.inj (hroot.symm.trans hroot')
    exact hno _ hleaf'

/-- Settles O42: in a legal state the tree that the flag speaks of is the one built from `FREQ`, whose leaves give the
lengths. -/
theorem extractWritesTheDepths : Obligations.ExtractWritesTheDepths := by
  unfold Obligations.ExtractWritesTheDepths
  refine ⟨?word, fun s => exec_clExtract_unbuilt, fun s hs hbuilt => ?built⟩
  case word => exact hasWord_encode (i := .clExtract) Laws.TableRow.clExtract rfl rfl
  case built =>
    obtain ⟨hfit, htree, -⟩ := hs.tables.tree hbuilt
    obtain ⟨lens, hlens, hzero, hnone, hleaves⟩ := extractLengths_leaves hfit
    rw [htree] at hlens hnone hleaves
    refine ⟨_, exec_clExtract_built hbuilt hlens, rfl, fun hroot a => (hzero a).mpr (hnone hroot a),
      fun r hroot => ?depths, hzero⟩
    obtain ⟨hdepth, hno⟩ := hleaves r hroot
    refine ⟨fun a d hleaf => ?_, fun a h => (hzero a).mpr (hno a h)⟩
    obtain ⟨hlen, hpos⟩ := hdepth a d hleaf
    rw [if_neg (by omega)]
    exact hlen

end Sys2Proof.Machine

/-! The decoder's commands: `TD.SETSIZE`, `TD.SETCRC`, `TD.START`, `TD.STEP` and `TD.RUN`
(spec/45_decoder.md R250 to R260). -/

namespace Sys2Proof.Machine

open Sys2Proof

/-! ### Setting up a decode (45_decoder.md R250, R251) -/

theorem decodeActive_eq_false_iff (s : State) :
    decodeActive s = false ↔ s.tdState ≠ .atRoot ∧ s.tdState ≠ .descending := by
  rw [Bool.eq_false_iff, ne_eq, decodeActive_iff, not_or]

/-- The size may be set only while the decoder rests (45_decoder.md R250). -/
theorem exec_tdSetsize (n : Word64) (s : State) : exec (.tdSetsize n) s =
    .next (if decodeActive s then { s with status := .seq } else { s with tdSize := n, status := .ok }) := rfl

/-- The expected checksum may be set only while the decoder rests (45_decoder.md R251). -/
theorem exec_tdSetcrc (v : Word32) (s : State) : exec (.tdSetcrc v) s =
    .next (if decodeActive s then { s with status := .seq } else { s with tdXcrc := v, status := .ok }) := rfl

/-- Settles O49: the two words at an arbitrary `WDATA`, and the two cases of the one check. -/
theorem decoderSetup : Obligations.DecoderSetup := by
  unfold Obligations.DecoderSetup
  refine ⟨⟨decode_tdSetsize, fun n s => ⟨fun h => ?_, fun hroot hdesc => ?_⟩⟩,
    decode_tdSetcrc, fun v s => ⟨fun h => ?_, fun hroot hdesc => ?_⟩⟩
  · rw [exec_tdSetsize, if_pos ((decodeActive_iff s).mpr h)]
  · rw [exec_tdSetsize, (decodeActive_eq_false_iff s).mpr ⟨hroot, hdesc⟩]
    rfl
  · rw [exec_tdSetcrc, if_pos ((decodeActive_iff s).mpr h)]
  · rw [exec_tdSetcrc, (decodeActive_eq_false_iff s).mpr ⟨hroot, hdesc⟩]
    rfl

/-! ### `RES` of a decoder command (30_encoding.md R102) -/

/-- The fields of `RES` as one number. -/
theorem tdResult_toNat (last : Option Byte) (done : Bool) (cause : Cause) :
    (tdResult last done cause).toNat =
      (last.getD 0#8).toNat + 256 * (last.isSome.toNat + 2 * (done.toNat + 128 * (causeNumber cause).toNat)) := by
  have hhigh : (0#46 ++ causeNumber cause ++ 0#6 ++ BitVec.ofBool done ++ BitVec.ofBool last.isSome).toNat =
      last.isSome.toNat + 2 * (done.toNat + 128 * (causeNumber cause).toNat) := by
    cases last.isSome <;> cases done <;> cases cause <;> rfl
  have happend : (tdResult last done cause).toNat =
      (0#46 ++ causeNumber cause ++ 0#6 ++ BitVec.ofBool done ++ BitVec.ofBool last.isSome).toNat <<< 8 |||
        (last.getD 0#8).toNat := BitVec.toNat_append _ _
  rw [happend, hhigh, ← Nat.shiftLeft_add_eq_or_of_lt (last.getD 0#8).isLt, Nat.shiftLeft_eq]
  omega

theorem tdResult_byte (last : Option Byte) (done : Bool) (cause : Cause) :
    (tdResult last done cause).extractLsb' 0 8 = last.getD 0#8 := by
  apply BitVec.eq_of_toNat_eq
  rw [BitVec.extractLsb'_toNat, tdResult_toNat]
  have := (last.getD 0#8).isLt
  omega

theorem tdResult_emitted (last : Option Byte) (done : Bool) (cause : Cause) :
    (tdResult last done cause).getLsbD 8 = last.isSome := by
  rw [← BitVec.testBit_toNat, tdResult_toNat, Nat.testBit_eq_decide_div_mod_eq]
  have := (last.getD 0#8).isLt
  cases last.isSome
  · simp
    omega
  · simp
    omega

/-- Done and cause stand above the two fields that say what was emitted. -/
theorem tdResult_rest (last last' : Option Byte) (done : Bool) (cause : Cause) :
    (tdResult last done cause).extractLsb' 9 55 = (tdResult last' done cause).extractLsb' 9 55 := by
  have hrest (l : Option Byte) :
      (tdResult l done cause).toNat / 512 = done.toNat + 128 * (causeNumber cause).toNat := by
    rw [tdResult_toNat]
    have := (l.getD 0#8).isLt
    have := l.isSome.toNat_lt
    omega
  apply BitVec.eq_of_toNat_eq
  simp only [BitVec.extractLsb'_toNat, Nat.shiftRight_eq_div_pow, Nat.reducePow, hrest]

/-- `RES` of a command that emitted a byte and met no cause. -/
theorem tdResult_some (byte : Byte) (done : Bool) :
    tdResult (some byte) done .none = (bif done then 0x300#64 else 0x100#64) + byte.setWidth 64 := by
  apply BitVec.eq_of_toNat_eq
  rw [tdResult_toNat]
  have := byte.isLt
  cases done
  · simp [causeNumber]
    omega
  · simp [causeNumber]
    omega

/-- `RES` of a command that emitted nothing. -/
theorem tdResult_none (done : Bool) (cause : Cause) :
    tdResult none done cause = BitVec.ofNat 64 (512 * done.toNat + 65536 * (causeNumber cause).toNat) := by
  cases done <;> cases cause <;> decide

/-! ### How a decoder command ends (45_decoder.md R255, R257) -/

theorem tdEnd_of_cause {cause : Cause} {s : State} (hc : cause ≠ .none) (h : s.tdState = .failed)
    (last : Option Byte) : tdEnd last cause s = { s with
      res := tdResult last false cause, status := .corrupt, fault := latched s .corrupt } := by
  rw [tdEnd, if_pos hc, h]
  rfl

theorem tdEnd_of_failed {s : State} (h : s.tdState = .failed) (last : Option Byte) :
    tdEnd last .none s = { s with
      res := tdResult last false .none, status := .integrity, fault := latched s .integrity } := by
  rw [tdEnd, if_neg (not_not.mpr rfl), if_pos h, h]
  rfl

theorem tdEnd_of_done {s : State} (h : s.tdState = .done) (last : Option Byte) :
    tdEnd last .none s = { s with res := tdResult last true .none, status := .ok } := by
  rw [tdEnd, if_neg (not_not.mpr rfl), if_neg (by simp [h]), h]
  rfl

theorem tdEnd_of_active {s : State} (h : s.tdState = .atRoot ∨ s.tdState = .descending) (last : Option Byte) :
    tdEnd last .none s = { s with res := tdResult last false .none, status := .ok } := by
  have hfailed : s.tdState ≠ .failed := by rcases h with h | h <;> simp [h]
  have hdone : (s.tdState == .done) = false := by rcases h with h | h <;> simp [h]
  rw [tdEnd, if_neg (not_not.mpr rfl), if_neg hfailed, hdone]
  rfl

/-! ### `TD.START` (45_decoder.md R252) -/

theorem exec_tdStart_without_trie {s : State} (h : s.trValid = false) :
    exec .tdStart s = .next { s with status := .seq } := by
  simp only [exec, execTdStart, if_pos h]
  rfl

/-- With a byte to decode the walk starts at the root. -/
theorem exec_tdStart_walk {s : State} (h : s.trValid = true) (hsize : s.tdSize ≠ 0#64) :
    exec .tdStart s = .next { s with
      crcState := 0xFFFFFFFF#32, tdCount := 0#64, tdCur := 0, tdState := .atRoot, res := 0#64, status := .ok } := by
  simp only [exec, execTdStart, if_neg (Bool.ne_false_iff.mpr h), if_neg hsize]
  rw [tdEnd_of_active (.inl rfl), tdResult_none]
  rfl

/-- With nothing to decode the decode ends at once, by the comparison with the checksum of no bytes, which is 0. -/
theorem exec_tdStart_finish {s : State} (h : s.trValid = true) (hsize : s.tdSize = 0#64) :
    exec .tdStart s = .next (tdEnd none .none { s with
      crcState := 0xFFFFFFFF#32, tdCount := 0#64, tdCur := 0,
      tdState := if 0#32 = s.tdXcrc then .done else .failed }) := by
  have hempty : crcFinal 0xFFFFFFFF#32 = 0#32 := by decide
  simp only [exec, execTdStart, if_neg (Bool.ne_false_iff.mpr h), if_pos hsize, tdFinish, hempty]

/-- Settles O50: the refusal, the walk, and the two outcomes of the comparison at size 0. -/
theorem decoderStart : Obligations.DecoderStart := by
  unfold Obligations.DecoderStart
  refine ⟨?word, fun s =>
    ⟨exec_tdStart_without_trie, exec_tdStart_walk, fun h hsize hcrc => ?agrees, fun h hsize hcrc => ?differs⟩⟩
  case word => exact hasWord_encode (i := .tdStart) Laws.TableRow.tdStart rfl rfl
  case agrees =>
    rw [exec_tdStart_finish h hsize, if_pos hcrc.symm, tdEnd_of_done rfl, tdResult_none]
    rfl
  case differs =>
    rw [exec_tdStart_finish h hsize, if_neg (Ne.symm hcrc), tdEnd_of_failed rfl, tdResult_none]
    rfl

/-! ### One transition (45_decoder.md R255) -/

/-- `nextBit` is what the reader delivers (42_bitstream.md R145). -/
theorem brGet_of_nextBit {s : State} {b : Bool} {cur : Byte} {rem : Fin 9} {pos : Word64}
    (h : nextBit s = some (b, cur, rem, pos)) :
    brGet s = .bit b { s with brCur := cur, brRem := rem, srcPos := pos } := by
  unfold nextBit at h
  split at h
  next hrem =>
    split at h
    next => cases h
    next byte hbyte =>
      cases h
      exact brGet_fetch hrem hbyte
  next hrem =>
    cases h
    exact brGet_unread hrem

theorem tdWalk_exhausted {s : State} (h : brGet s = .noData) :
    tdWalk s = .corrupt .exhausted { s with tdState := .failed } := by
  simp only [tdWalk, h]

section
variable {s t : State} {b : Bool} {nd : TrNode} (hget : brGet s = .bit b t) (hnd : t.trNodes[t.tdCur]? = some nd)
include hget hnd

theorem tdWalk_absentChild (hch : childOf nd b = none) :
    tdWalk s = .corrupt .absentChild { t with tdState := .failed } := by
  simp only [tdWalk, hget, hnd, hch]

theorem tdWalk_inner {ch : Nat} {cn : TrNode} (hch : childOf nd b = some ch) (hcn : t.trNodes[ch]? = some cn)
    (hleaf : cn.leaf = none) : tdWalk s = .moved { t with tdCur := ch, tdState := .descending } := by
  simp only [tdWalk, hget, hnd, hch, hcn, hleaf]

theorem tdWalk_leaf {ch : Nat} {cn : TrNode} (hch : childOf nd b = some ch) (hcn : t.trNodes[ch]? = some cn)
    {byte : Byte} (hleaf : cn.leaf = some byte) : tdWalk s = .emitted byte (tdLeaf byte t) := by
  simp only [tdWalk, hget, hnd, hch, hcn, hleaf]

end

section
variable {b : Byte} {t : State} (hcount : t.tdCount + 1#64 = t.tdSize)
include hcount

/-- The last byte of a decode whose checksum agrees (45_decoder.md R257). -/
theorem tdLeaf_done (hcrc : crcFinal (crcByte t.crcState b) = t.tdXcrc) :
    tdLeaf b t = { t with
      dout := t.dout ++ [b], crcState := crcByte t.crcState b, tdCount := t.tdSize, tdCur := 0, tdState := .done } := by
  rw [tdLeaf_last hcount, if_pos hcrc]

/-- The last byte of a decode whose checksum differs (45_decoder.md R257). -/
theorem tdLeaf_failed (hcrc : crcFinal (crcByte t.crcState b) ≠ t.tdXcrc) :
    tdLeaf b t = { t with
      dout := t.dout ++ [b], crcState := crcByte t.crcState b, tdCount := t.tdSize, tdCur := 0,
      tdState := .failed } := by
  rw [tdLeaf_last hcount, if_neg hcrc]

end

/-! ### `TD.STEP` (45_decoder.md R255, R256) -/

theorem exec_tdStep_refused {s : State}
    (h : s.trValid = false ∨ (s.tdState ≠ .atRoot ∧ s.tdState ≠ .descending)) :
    exec .tdStep s = .next { s with status := .seq } := by
  rw [← decodeActive_eq_false_iff] at h
  simp only [exec, execTdStep, if_pos h]
  rfl

section
variable {s t : State} (htrie : s.trValid = true) (hactive : decodeActive s = true)
include htrie hactive

theorem not_refused_of_active : ¬ (s.trValid = false ∨ decodeActive s = false) := by
  simp [htrie, hactive]

theorem exec_tdStep_of_moved (h : tdWalk s = .moved t) : exec .tdStep s = .next (tdEnd none .none t) := by
  simp only [exec, execTdStep, if_neg (not_refused_of_active htrie hactive), h]

theorem exec_tdStep_of_emitted {byte : Byte} (h : tdWalk s = .emitted byte t) :
    exec .tdStep s = .next (tdEnd (some byte) .none t) := by
  simp only [exec, execTdStep, if_neg (not_refused_of_active htrie hactive), h]

theorem exec_tdStep_of_corrupt {cause : Cause} (h : tdWalk s = .corrupt cause t) :
    exec .tdStep s = .next (tdEnd none cause t) := by
  simp only [exec, execTdStep, if_neg (not_refused_of_active htrie hactive), h]

end

/-- Settles O51: the transition of each case, and how the command ends after it. -/
theorem decoderStep : Obligations.DecoderStep := by
  unfold Obligations.DecoderStep
  refine ⟨?word, fun s => exec_tdStep_refused, fun s htrie hact hrem hend => ?exhausted,
    fun s b cur rem pos nd htrie hact hbit hnd => ?bit⟩
  case word => exact hasWord_encode (i := .tdStep) Laws.TableRow.tdStep rfl rfl
  case exhausted =>
    rw [exec_tdStep_of_corrupt htrie ((decodeActive_iff s).mpr hact) (tdWalk_exhausted (brGet_at_end hrem hend)),
      tdEnd_of_cause (by simp) rfl, tdResult_none]
    rfl
  case bit =>
    have hactive := (decodeActive_iff s).mpr hact
    have hget := brGet_of_nextBit hbit
    refine ⟨fun hch => ?absent, fun ch cn hch hcn => ⟨fun hleaf => ?inner, fun byte hleaf => ?leaf⟩⟩
    case absent =>
      rw [exec_tdStep_of_corrupt htrie hactive (tdWalk_absentChild hget hnd hch), tdEnd_of_cause (by simp) rfl,
        tdResult_none]
      rfl
    case inner =>
      rw [exec_tdStep_of_moved htrie hactive (tdWalk_inner hget hnd hch hcn hleaf), tdEnd_of_active (.inr rfl),
        tdResult_none]
      rfl
    case leaf =>
      rw [exec_tdStep_of_emitted htrie hactive (tdWalk_leaf hget hnd hch hcn hleaf)]
      have hmore := tdLeaf_more (b := byte) (t := { s with brCur := cur, brRem := rem, srcPos := pos })
      have hdone := tdLeaf_done (b := byte) (t := { s with brCur := cur, brRem := rem, srcPos := pos })
      have hfailed := tdLeaf_failed (b := byte) (t := { s with brCur := cur, brRem := rem, srcPos := pos })
      refine ⟨fun hcount => ?more, fun hcount hcrc => ?agrees, fun hcount hcrc => ?differs⟩
      case more =>
        rw [hmore hcount, tdEnd_of_active (.inl rfl), tdResult_some]
        rfl
      case agrees =>
        rw [hdone hcount hcrc, tdEnd_of_done rfl, tdResult_some]
        rfl
      case differs =>
        rw [hfailed hcount hcrc, tdEnd_of_failed rfl, tdResult_some]
        rfl

/-! ### What the decoder does not look at -/

/-- `s` as a command that ended ok with `RES = r` leaves it. -/
def endWith (r : Word64) (s : State) : State := { s with res := r, status := .ok }

/-- What the reader delivers, the state after it changed by `f`. -/
def BitRead.map (f : State → State) : BitRead → BitRead
  | .bit b t => .bit b (f t)
  | .noData => .noData
  | .outside e => .outside e

/-- What a transition leaves, its state changed by `f`. -/
def Walk.map (f : State → State) : Walk → Walk
  | .moved t => .moved (f t)
  | .emitted b t => .emitted b (f t)
  | .corrupt cause t => .corrupt cause (f t)
  | .outside e => .outside e

/-- A position beyond the end of `SRC` names no byte (10_state.md R51). -/
theorem brGet_beyond {s : State} (hrem : s.brRem = 0) (hend : s.srcPos.toNat ≠ s.src.length)
    (hbyte : s.src[s.srcPos.toNat]? = none) : brGet s = .outside (.noSrcByte s.srcPos.toNat) := by
  simp only [brGet, hrem, hend, hbyte, if_true, if_false]

/-- The reader neither reads nor writes `RES` and `STATUS` (42_bitstream.md R145). -/
theorem brGet_endWith (r : Word64) (s : State) : brGet (endWith r s) = (brGet s).map (endWith r) := by
  by_cases hrem : s.brRem = 0
  · by_cases hend : s.srcPos.toNat = s.src.length
    · rw [brGet_at_end hrem hend, brGet_at_end (s := endWith r s) hrem hend]
      rfl
    · cases hbyte : s.src[s.srcPos.toNat]? with
      | none =>
        rw [brGet_beyond hrem hend hbyte, brGet_beyond (s := endWith r s) hrem hend hbyte]
        rfl
      | some byte =>
        rw [brGet_fetch hrem hbyte, brGet_fetch (s := endWith r s) hrem hbyte]
        rfl
  · rw [brGet_unread hrem, brGet_unread (s := endWith r s) hrem]
    rfl

/-- A leaf's byte is emitted whatever `RES` and `STATUS` are (45_decoder.md R256, R257). -/
theorem tdLeaf_endWith (b : Byte) (r : Word64) (s : State) : tdLeaf b (endWith r s) = endWith r (tdLeaf b s) := by
  by_cases hcount : s.tdCount + 1#64 = s.tdSize
  · rw [tdLeaf_last hcount, tdLeaf_last (t := endWith r s) hcount]
    rfl
  · rw [tdLeaf_more hcount, tdLeaf_more (t := endWith r s) hcount]
    rfl

/-- A transition neither reads nor writes `RES` and `STATUS` (45_decoder.md R255). -/
theorem tdWalk_endWith (r : Word64) (s : State) : tdWalk (endWith r s) = (tdWalk s).map (endWith r) := by
  unfold tdWalk
  rw [brGet_endWith]
  cases brGet s with
  | outside e => rfl
  | noData => rfl
  | bit b t =>
    have hnodes : (endWith r t).trNodes = t.trNodes := rfl
    have hcur : (endWith r t).tdCur = t.tdCur := rfl
    simp only [BitRead.map, hnodes, hcur, tdLeaf_endWith]
    split
    · rfl
    · split
      · rfl
      · split
        · rfl
        · split
          · rfl
          · rfl

/-- The loop of `TD.RUN` reads neither, and writes both at its end (45_decoder.md R260). -/
theorem tdRunLoop_endWith (fuel : Nat) (last : Option Byte) (r : Word64) (s : State) :
    tdRunLoop fuel last (endWith r s) = tdRunLoop fuel last s := by
  induction fuel generalizing last s with
  | zero => rfl
  | succ fuel ih =>
    unfold tdRunLoop
    rw [tdWalk_endWith]
    cases tdWalk s with
    | moved t => exact ih last t
    | emitted b t =>
      have hstate : (endWith r t).tdState = t.tdState := rfl
      have hend : tdEnd (some b) .none (endWith r t) = tdEnd (some b) .none t := rfl
      simp only [Walk.map, ih, hstate, hend]
    | corrupt cause t => rfl
    | outside e => rfl

/-! ### What a transition leaves (45_decoder.md R255) -/

/-- A leaf's byte is the one appended, and the decode goes on at the root or ends. -/
theorem tdLeaf_output (b : Byte) (s : State) : (tdLeaf b s).dout = s.dout ++ [b] ∧
    ((tdLeaf b s).tdState = .atRoot ∨ (tdLeaf b s).tdState = .done ∨ (tdLeaf b s).tdState = .failed) := by
  by_cases hcount : s.tdCount + 1#64 = s.tdSize
  · by_cases hcrc : crcFinal (crcByte s.crcState b) = s.tdXcrc
    · rw [tdLeaf_done hcount hcrc]
      exact ⟨rfl, .inr (.inl rfl)⟩
    · rw [tdLeaf_failed hcount hcrc]
      exact ⟨rfl, .inr (.inr rfl)⟩
  · rw [tdLeaf_more hcount]
    exact ⟨rfl, .inl rfl⟩

/-- The output and the decoder's state after each kind of transition. -/
theorem tdWalk_output (s : State) :
    (∀ t, tdWalk s = .moved t → t.dout = s.dout ∧ t.tdState = .descending) ∧
    (∀ b t, tdWalk s = .emitted b t →
      t.dout = s.dout ++ [b] ∧ (t.tdState = .atRoot ∨ t.tdState = .done ∨ t.tdState = .failed)) ∧
    ∀ cause t, tdWalk s = .corrupt cause t → t.dout = s.dout ∧ t.tdState = .failed := by
  unfold tdWalk
  cases hget : brGet s with
  | outside f => exact ⟨fun _ => nofun, fun _ _ => nofun, fun _ _ => nofun⟩
  | noData => exact ⟨fun _ => nofun, fun _ _ => nofun, by rintro _ _ ⟨⟩; exact ⟨rfl, rfl⟩⟩
  | bit b u =>
    have hu : u.dout = s.dout := by rw [brGet_moved hget]
    simp only
    split
    · exact ⟨fun _ => nofun, fun _ _ => nofun, fun _ _ => nofun⟩
    · split
      · exact ⟨fun _ => nofun, fun _ _ => nofun, by rintro _ _ ⟨⟩; exact ⟨hu, rfl⟩⟩
      · split
        · exact ⟨fun _ => nofun, fun _ _ => nofun, fun _ _ => nofun⟩
        · split
          · exact ⟨fun _ => nofun, by rintro _ _ ⟨⟩; exact hu ▸ tdLeaf_output _ u, fun _ _ => nofun⟩
          · exact ⟨by rintro _ ⟨⟩; exact ⟨hu, rfl⟩, fun _ _ => nofun, fun _ _ => nofun⟩

/-! ### `TD.RUN` as repeated `TD.STEP` (45_decoder.md R260) -/

theorem decoding_endWith {s : State} (h : Decoding s) (r : Word64) : Decoding (endWith r s) :=
  ⟨legal_status (legal_result h.legal r s.resCnt) .ok, h.trie, h.active⟩

/-- One transition of a decode under way, by both commands: `TD.STEP` leaves the state from which the loop of `TD.RUN`
goes on, or both end there. -/
theorem decoding_step {s : State} (h : Decoding s) :
    (∃ (e : Option Byte) (v : State), exec .tdStep s = .next v ∧
      (∀ fuel last, tdRunLoop (fuel + 1) last s = tdRunLoop fuel (e.or last) v) ∧
      Decoding v ∧ (readerBits v).length < (readerBits s).length ∧ v.dout = s.dout ++ e.toList) ∨
    ∃ (e : Option Byte) (cause : Cause) (w : State), exec .tdStep s = .next (tdEnd e cause w) ∧
      (∀ fuel last, tdRunLoop (fuel + 1) last s = .next (tdEnd (e.or last) cause w)) ∧
      (w.tdState = .done ∨ w.tdState = .failed) ∧ w.dout = s.dout ++ e.toList := by
  have htrie := h.trie
  have hactive := h.active
  obtain ⟨hinside, hmoved, hemitted, -⟩ := decoding_walk h
  obtain ⟨hmovedBits, hemittedBits⟩ := tdWalk_shorter h.legal.reader
  obtain ⟨hmovedOut, hemittedOut, hcorruptOut⟩ := tdWalk_output s
  cases hw : tdWalk s with
  | outside f => exact absurd hw (hinside f)
  | corrupt cause t =>
    obtain ⟨hout, hfailed⟩ := hcorruptOut cause t hw
    refine .inr ⟨none, cause, t, exec_tdStep_of_corrupt htrie hactive hw, fun fuel last => ?_, .inr hfailed, ?_⟩
    · simp only [tdRunLoop, hw, Option.none_or]
    · rw [hout, Option.toList_none, List.append_nil]
  | moved t =>
    obtain ⟨hout, hinner⟩ := hmovedOut t hw
    obtain ⟨hbits, -⟩ := hmovedBits t hw
    refine .inl ⟨none, endWith (tdResult none false .none) t, ?_, fun fuel last => ?_,
      decoding_endWith (hmoved t hw) _, hbits, ?_⟩
    · rw [exec_tdStep_of_moved htrie hactive hw, tdEnd_of_active (.inr hinner), endWith]
    · simp only [tdRunLoop, hw, Option.none_or, tdRunLoop_endWith]
    · rw [Option.toList_none, List.append_nil, ← hout, endWith]
  | emitted b t =>
    obtain ⟨hout, hstate⟩ := hemittedOut b t hw
    rcases hstate with hroot | hended
    · obtain ⟨hbits, -⟩ := hemittedBits b t hw
      obtain ⟨-, hdecoding⟩ := hemitted b t hw
      refine .inl ⟨some b, endWith (tdResult (some b) false .none) t, ?_, fun fuel last => ?_,
        decoding_endWith (hdecoding hroot) _, hbits, hout⟩
      · rw [exec_tdStep_of_emitted htrie hactive hw, tdEnd_of_active (.inl hroot), endWith]
      · simp only [tdRunLoop, hw, if_pos hroot, Option.some_or, tdRunLoop_endWith]
    · have hroot : t.tdState ≠ .atRoot := by rcases hended with h' | h' <;> simp [h']
      refine .inr ⟨some b, .none, t, exec_tdStep_of_emitted htrie hactive hw, fun fuel last => ?_, hended, hout⟩
      simp only [tdRunLoop, hw, if_neg hroot, Option.some_or]

/-- `k + 1` steps from `s` emit `out` and end the decode, the last one emitting `e` and meeting `cause`, with `w` the
state before it writes `RES`, `STATUS` and `FAULT`; and so does the loop of `TD.RUN` with `fuel` steps to go and `last`
emitted before. -/
structure RunRefinesSteps (fuel : Nat) (last : Option Byte) (s : State) (k : Nat) (out : List Byte) (e : Option Byte)
    (cause : Cause) (w : State) : Prop where
  run : tdRunLoop fuel last s = .next (tdEnd (out.getLast?.or last) cause w)
  steps : execAll (List.replicate (k + 1) .tdStep) s = .next (tdEnd e cause w)
  bound : k < fuel
  before : ∀ m v, m ≤ k → execAll (List.replicate m .tdStep) s = .next v → decodeActive v = true
  ended : w.tdState = .done ∨ w.tdState = .failed
  output : w.dout = s.dout ++ out

theorem getLast?_toList {α : Type} (e : Option α) : e.toList.getLast? = e := by
  cases e
  · rfl
  · rfl

theorem execAll_replicate_succ {i : Instr} {s t : State} (h : exec i s = .next t) (n : Nat) :
    execAll (List.replicate (n + 1) i) s = execAll (List.replicate n i) t := by
  rw [List.replicate_succ, execAll, h]

/-- One more step before a run. -/
theorem RunRefinesSteps.cons {s v w : State} {fuel k : Nat} {last e e' : Option Byte} {out : List Byte}
    {cause : Cause} (hactive : decodeActive s = true) (hstep : exec .tdStep s = .next v)
    (hrun : tdRunLoop (fuel + 1) last s = tdRunLoop fuel (e.or last) v) (hout : v.dout = s.dout ++ e.toList)
    (h : RunRefinesSteps fuel (e.or last) v k out e' cause w) :
    RunRefinesSteps (fuel + 1) last s (k + 1) (e.toList ++ out) e' cause w where
  run := by rw [hrun, h.run, List.getLast?_append, getLast?_toList, Option.or_assoc]
  steps := by rw [execAll_replicate_succ hstep, h.steps]
  bound := Nat.succ_lt_succ h.bound
  before := by
    intro m u hm hu
    cases m with
    | zero =>
      cases hu
      exact hactive
    | succ m =>
      rw [execAll_replicate_succ hstep] at hu
      exact h.before m u (Nat.le_of_succ_le_succ hm) hu
  ended := h.ended
  output := by rw [h.output, hout, List.append_assoc]

/-- With more steps to go than bits to read, the loop of `TD.RUN` refines repeated steps. -/
theorem tdRunLoop_refines {fuel : Nat} {s : State} (h : Decoding s) (hfuel : (readerBits s).length < fuel)
    (last : Option Byte) : ∃ k out e cause w, RunRefinesSteps fuel last s k out e cause w := by
  induction fuel generalizing last s with
  | zero => exact absurd hfuel (Nat.not_lt_zero _)
  | succ fuel ih =>
    rcases decoding_step h with ⟨e, v, hstep, hrun, hv, hfewer, hout⟩ | ⟨e, cause, w, hstep, hrun, hended, hout⟩
    · obtain ⟨k, out, e', cause, w, hk⟩ := ih hv (by omega) (e.or last)
      exact ⟨k + 1, e.toList ++ out, e', cause, w, hk.cons h.active hstep (hrun fuel last) hout⟩
    · refine ⟨0, e.toList, e, cause, w, ?_, ?_, Nat.succ_pos fuel, ?_, hended, hout⟩
      · rw [hrun, getLast?_toList]
      · rw [execAll_replicate_succ hstep]
        rfl
      · intro m v hm hv
        obtain rfl := Nat.le_zero.mp hm
        cases hv
        exact h.active

/-- Two commands that end alike from one state differ in `RES` alone, and there only in what they emitted. -/
theorem tdEnd_emitted (last last' : Option Byte) (cause : Cause) (s : State) :
    tdEnd last cause s = { tdEnd last' cause s with res := tdResult last (s.tdState == .done) cause } := by
  unfold tdEnd
  simp only
  split
  · rfl
  · split
    · rfl
    · rfl

theorem tdEnd_fields (last : Option Byte) (cause : Cause) (s : State) :
    (tdEnd last cause s).res = tdResult last (s.tdState == .done) cause ∧
    (tdEnd last cause s).tdState = s.tdState ∧ (tdEnd last cause s).dout = s.dout := by
  unfold tdEnd
  simp only
  split
  · exact ⟨rfl, rfl, rfl⟩
  · split
    · exact ⟨rfl, rfl, rfl⟩
    · exact ⟨rfl, rfl, rfl⟩

theorem exec_tdRun_refused {s : State}
    (h : s.trValid = false ∨ (s.tdState ≠ .atRoot ∧ s.tdState ≠ .descending)) :
    exec .tdRun s = .next { s with status := .seq } := by
  rw [← decodeActive_eq_false_iff] at h
  simp only [exec, execTdRun, if_pos h]
  rfl

theorem exec_tdRun_of_active {s : State} (htrie : s.trValid = true) (hactive : decodeActive s = true) :
    exec .tdRun s = tdRunLoop (tdBound s) none s := by
  simp only [exec, execTdRun, if_neg (not_refused_of_active htrie hactive)]

/-- Settles O52, by induction on the turns of the loop, each of which is a `TD.STEP`. -/
theorem runIsRepeatedSteps : Obligations.RunIsRepeatedSteps := by
  unfold Obligations.RunIsRepeatedSteps
  refine ⟨?word, fun s => exec_tdRun_refused, fun s hs htrie hact => ?run⟩
  case word => exact hasWord_encode (i := .tdRun) Laws.TableRow.tdRun rfl rfl
  case run =>
    have hactive := (decodeActive_iff s).mpr hact
    have hfuel : (readerBits s).length < tdBound s := by rw [tdBound_eq]; omega
    obtain ⟨k, out, e, cause, w, h⟩ := tdRunLoop_refines ⟨hs, htrie, hactive⟩ hfuel none
    obtain ⟨hres, hstate, hdout⟩ := tdEnd_fields out.getLast? cause w
    obtain ⟨hres', -, -⟩ := tdEnd_fields e cause w
    refine ⟨k + 1, tdEnd out.getLast? cause w, tdEnd e cause w, out, ?last, h.steps, ?alike, Nat.succ_pos k, h.bound,
      hstate ▸ h.ended, fun m v hm hv => (decodeActive_iff v).mp (h.before m v (Nat.le_of_lt_succ hm) hv),
      hdout.trans h.output, ?byte, ?emitted, ?rest⟩
    case last => rw [exec_tdRun_of_active htrie hactive, h.run, Option.or_none]
    case alike => rw [hres, tdEnd_emitted out.getLast? e]
    case byte => rw [hres, tdResult_byte]
    case emitted =>
      rw [hres, tdResult_emitted]
      cases out <;> simp
    case rest => rw [hres, hres', tdResult_rest]

end Sys2Proof.Machine

/-! ### Refusals (60_exceptions.md R304) -/

namespace Sys2Proof.Machine

/-- Of the four outcomes only a refusal has a refusal's code, and it writes `STATUS` alone
(60_exceptions.md R301, R304). -/
theorem Ended.eq_of_refusalCode {s t : State} {P : State → Prop} (h : Ended s P t)
    (hc : isRefusalCode t.status = true) : t = { s with status := t.status } := by
  cases h with
  | ok hu => cases hc
  | signal hu => cases hc
  | refused hcode => rfl
  | @fault c u hfault hu =>
    have hnot : isFaultCode c = false := isFaultCode_of_isRefusalCode hc
    simp [hfault] at hnot

/-- Settles O12: `SYS.CLRF` and `SYS.RST` always end ok, and every other command ends in one of the four outcomes, of
which only a refusal has such a code. -/
theorem refusalChangesOnlyStatus : Obligations.RefusalChangesOnlyStatus := by
  unfold Obligations.RefusalChangesOnlyStatus
  intro i s t h hc
  by_cases hclear : i = .sysClrf ∨ i = .sysRst
  case pos =>
    rcases hclear with rfl | rfl
    · cases h
      cases hc
    · cases h
      cases hc
  case neg =>
    obtain ⟨hclrf, hrst⟩ := not_or.mp hclear
    exact (exec_ends i s hclrf hrst t h).eq_of_refusalCode hc

end Sys2Proof.Machine

/-! ### Reset (70_reset_and_hazards.md R340) -/

namespace Sys2Proof.Machine

/-- Ending ok writes `STATUS` with the value it has after a reset already (46_system.md R281). -/
theorem exec_sysRst (s : State) : exec .sysRst s = .next (resetBlock s) := rfl

/-- Nothing was given at launch that a block reset could keep. -/
theorem resetBlock_reset : resetBlock State.reset = State.reset := rfl

/-- The reset event and `SYS.RST` end alike: each is a block reset of some state. -/
theorem eq_resetBlock {s t : State} (h : t = State.reset ∨ exec .sysRst s = .next t) : ∃ u, t = resetBlock u := by
  rcases h with hreset | hrst
  · exact ⟨State.reset, hreset.trans resetBlock_reset.symm⟩
  · rw [exec_sysRst, Host.Outcome.next.injEq] at hrst
    exact ⟨s, hrst.symm⟩

/-- All flags are clear after a block reset. -/
theorem resetBlock_validWord (s : State) : validWord (resetBlock s) = 0#5 := by
  change validWord State.reset = 0#5
  decide

/-- The three tables hold zeros after a block reset. -/
theorem resetBlock_tables (s : State) (a : Symbol) :
    freqOf (resetBlock s) a = 0#64 ∧ lenOf (resetBlock s) a = 0 ∧ codeOf (resetBlock s) a = 0#255 :=
  ⟨tblGet_tblFill 0#64 a, congrArg BitVec.toNat (tblGet_tblFill 0#8 a), tblGet_tblFill 0#255 a⟩

/-- No slot of an arena holds a value after a block reset (70_reset_and_hazards.md R341). -/
theorem resetBlock_arenas (s : State) (n : Nat) :
    readElement (resetBlock s) .htNode n = none ∧ readElement (resetBlock s) .trNode n = none := by
  simp [readElement, State.reset]

/-- Settles O18: both ends are a block reset, whose registers compute to their values and whose flags, tables and arenas
are read by their own lemmas. -/
theorem resetValues : Obligations.ResetValues := by
  unfold Obligations.ResetValues
  refine ⟨fun s t h => ?values, fun s => ⟨resetBlock s, exec_sysRst s, rfl⟩⟩
  case values =>
    obtain ⟨u, rfl⟩ := eq_resetBlock h
    refine ⟨?results, ⟨resetBlock_validWord u, ?writer⟩, ?reader, ?buffer, resetBlock_tables u, resetBlock_arenas u,
      ?structures, ?decoder⟩
    case results | writer | reader | buffer | structures | decoder => and_intros <;> rfl

end Sys2Proof.Machine

/-! Decoder, encoder and opcode map: each command has its row, and a word that decodes is a command's word
(spec/30_encoding.md sections 2 to 4). -/

namespace Sys2Proof

open Machine Laws.TableRow

/-! ### Every command's word (30_encoding.md R94) -/

/-- Every command has its row and its word. -/
theorem statement_all (i : Instr) : Statement i :=
  match i with
  | .sysNop => sysNop
  | .sysRst => sysRst
  | .sysClrf => sysClrf
  | .crcInit => crcInit
  | .crcUpd b => crcUpd b
  | .crcFin => crcFin
  | .crcSet v => crcSet v
  | .bwRst => bwRst
  | .bwPut b => bwPut b
  | .bwFlush => bwFlush
  | .bwPutsym sym => bwPutsym sym
  | .brRst => brRst
  | .brGet => brGet
  | .brGetn n => brGetn n
  | .brSeek p => brSeek p
  | .mbRst => mbRst
  | .mbPut b => mbPut b
  | .mbFlush => mbFlush
  | .mbPutsym sym => mbPutsym sym
  | .mbReplay => mbReplay
  | .fqClr => fqClr
  | .fqSet sym n => fqSet sym n
  | .fqInc sym => fqInc sym
  | .htBuild => htBuild
  | .clClr => clClr
  | .clSet sym l => clSet sym l
  | .clExtract => clExtract
  | .ccAssign => ccAssign
  | .trBuild => trBuild
  | .tdSetsize n => tdSetsize n
  | .tdSetcrc v => tdSetcrc v
  | .tdStart => tdStart
  | .tdStep => tdStep
  | .tdRun => tdRun

/-- A command's word and operand decode to the command (30_encoding.md R95). -/
theorem decode_encode {i : Instr} (hwf : i.wf = true) : decode (encode i) = .ok i := by
  obtain ⟨-, hdecode, -⟩ := statement_all i hwf
  exact hdecode

/-- Settles O1, command by command. -/
theorem decodeEncodeRoundTrip : Obligations.DecodeEncodeRoundTrip := by
  unfold Obligations.DecodeEncodeRoundTrip
  exact fun i => decode_encode

/-! ### A decoded word (30_encoding.md R92, R93) -/

/-- A word is made of its two fields (30_encoding.md R90). -/
theorem wordOf_fields (w : Word) : wordOf (opOf w) (argOf w) = w := by
  ext i hi
  have happend : (wordOf (opOf w) (argOf w))[i] =
      if i < 8 then (argOf w).getLsbD i else (opOf w).getLsbD (i - 8) := BitVec.getLsbD_append
  rw [happend]
  split
  next h => simp [argOf, h, BitVec.getLsbD_eq_getElem hi]
  next h =>
    have hlt : i - 8 < 8 := by omega
    have hadd : 8 + (i - 8) = i := by omega
    simp [opOf, hlt, hadd, BitVec.getLsbD_eq_getElem hi]

theorem eq_of_argNone_ok {w : Word} {i j : Instr} (h : argNone w i = .ok j) : argOf w = 0#8 ∧ j = i := by
  unfold argNone at h
  split at h
  next harg =>
    cases h
    exact ⟨harg, rfl⟩
  next => cases h

theorem eq_of_argBit_ok {w : Word} {f : Bool → Instr} {j : Instr} (h : argBit w f = .ok j) :
    ∃ b, argOf w = bitArg b ∧ j = f b := by
  unfold argBit at h
  split at h
  next harg =>
    cases h
    exact ⟨false, harg, rfl⟩
  next =>
    split at h
    next harg =>
      cases h
      exact ⟨true, harg, rfl⟩
    next => cases h

theorem eq_of_argCount_ok {w : Word} {f : Byte → Instr} {j : Instr} (h : argCount w f = .ok j) :
    countOk (argOf w) = true ∧ j = f (argOf w) := by
  unfold argCount at h
  split at h
  next harg =>
    cases h
    exact ⟨harg, rfl⟩
  next => cases h

/-- `i` has a word, and that is the word of `c`; so are the bits of `WDATA` that `i` names. -/
def Reencodes (c : Cmd) (i : Instr) : Prop :=
  i.wf = true ∧ (encode i).word = c.word ∧ (encode i).wdata = c.wdata &&& wdataMask i

section
variable {c : Cmd} {op : Byte} (hop : opOf c.word = op)
include hop

/-- The word of a command with the two fields of `c` is that of `c`. -/
theorem reencodes_of_fields {i : Instr} {arg : Byte} (harg : argOf c.word = arg) (hwf : i.wf = true)
    (hword : (encode i).word = wordOf op arg) (hwdata : (encode i).wdata = c.wdata &&& wdataMask i) :
    Reencodes c i :=
  ⟨hwf, by rw [hword, ← hop, ← harg, wordOf_fields], hwdata⟩

theorem reencodes_of_argNone {i j : Instr} (h : argNone c.word i = .ok j) (hwf : i.wf = true)
    (hword : (encode i).word = wordOf op 0#8) (hwdata : (encode i).wdata = c.wdata &&& wdataMask i) :
    Reencodes c j := by
  obtain ⟨harg, rfl⟩ := eq_of_argNone_ok h
  exact reencodes_of_fields hop harg hwf hword hwdata

theorem reencodes_of_argBit {f : Bool → Instr} {j : Instr} (h : argBit c.word f = .ok j)
    (hwf : ∀ b, (f b).wf = true) (henc : ∀ b, encode (f b) = ⟨wordOf op (bitArg b), 0#64⟩)
    (hmask : ∀ b, wdataMask (f b) = 0#64) : Reencodes c j := by
  obtain ⟨b, harg, rfl⟩ := eq_of_argBit_ok h
  exact reencodes_of_fields hop harg (hwf b) (by rw [henc]) (by rw [henc, hmask, BitVec.and_zero])

end

/-- The low 32 bits of `WDATA`, as a word of 64 (30_encoding.md R93). -/
theorem setWidth_extract_32 (d : Word64) : (d.extractLsb' 0 32).setWidth 64 = d &&& 0xFFFFFFFF#64 := by
  apply BitVec.eq_of_toNat_eq
  rw [BitVec.toNat_and, BitVec.toNat_setWidth, BitVec.extractLsb'_toNat, Nat.shiftRight_zero]
  have hmask : (0xFFFFFFFF#64).toNat = 2 ^ 32 - 1 := rfl
  rw [hmask, Nat.and_two_pow_sub_one_eq_mod]
  omega

/-- The low 8 bits of `WDATA`, as a word of 64 (30_encoding.md R93). -/
theorem setWidth_extract_8 (d : Word64) : (d.extractLsb' 0 8).setWidth 64 = d &&& 0xFF#64 := by
  apply BitVec.eq_of_toNat_eq
  rw [BitVec.toNat_and, BitVec.toNat_setWidth, BitVec.extractLsb'_toNat, Nat.shiftRight_zero]
  have hmask : (0xFF#64).toNat = 2 ^ 8 - 1 := rfl
  rw [hmask, Nat.and_two_pow_sub_one_eq_mod]
  omega

theorem and_allOnes_64 (d : Word64) : d = d &&& 0xFFFFFFFFFFFFFFFF#64 := BitVec.and_allOnes.symm

/-- Each row of the decoder answers a command that has the word's two fields, and names no other bits of `WDATA` than
it takes. -/
theorem reencodes_of_decode {c : Cmd} {i : Instr} (h : decode c = .ok i) : Reencodes c i := by
  unfold decode at h
  split at h
  case h_5 hop | h_11 hop | h_19 hop | h_23 hop =>
    cases h
    exact reencodes_of_fields hop rfl rfl rfl BitVec.and_zero.symm
  case h_22 hop =>
    cases h
    exact reencodes_of_fields hop rfl rfl rfl (and_allOnes_64 _)
  case h_26 hop =>
    cases h
    exact reencodes_of_fields hop rfl rfl rfl (setWidth_extract_8 _)
  case h_7 hop | h_31 hop => exact reencodes_of_argNone hop h rfl rfl (setWidth_extract_32 _)
  case h_15 hop | h_30 hop => exact reencodes_of_argNone hop h rfl rfl (and_allOnes_64 _)
  case h_9 hop | h_17 hop => exact reencodes_of_argBit hop h (fun _ => rfl) (fun _ => rfl) (fun _ => rfl)
  case h_14 hop =>
    obtain ⟨hcount, rfl⟩ := eq_of_argCount_ok h
    exact reencodes_of_fields hop rfl hcount rfl BitVec.and_zero.symm
  case h_35 => cases h
  all_goals
    next hop => exact reencodes_of_argNone hop h rfl rfl BitVec.and_zero.symm

/-- Settles O2, row by row of the decoder. -/
theorem decodedWordReencodes : Obligations.DecodedWordReencodes := by
  unfold Obligations.DecodedWordReencodes
  exact fun c i => reencodes_of_decode

/-! ### The rows of the opcode map (30_encoding.md R94, R95) -/

/-- The bits of `arg` that a row of a kind fixes by mask and match (30_encoding.md R92). -/
def fixedArgBits : ArgKind → Byte
  | .none => 0xFF#8
  | .bit => 0xFE#8
  | .byte | .symbol | .count => 0#8

/-- Every row fixes the whole operation byte, and of `arg` the bits of its kind, to 0. -/
theorem row_shape : ∀ r ∈ opcodeTable, r.mask = wordOf 0xFF#8 (fixedArgBits r.kind) ∧
    r.pattern = wordOf (opOf r.pattern) 0#8 := by decide +kernel

/-- The operation bytes that the opcode map names, in its order. -/
def tableOps : List Byte := opcodeTable.map (fun r => opOf r.pattern)

theorem tableOps_eq : tableOps =
    [0x00#8, 0x01#8, 0x02#8, 0x10#8, 0x11#8, 0x12#8, 0x13#8, 0x20#8, 0x21#8, 0x22#8, 0x23#8, 0x30#8, 0x31#8, 0x32#8,
      0x33#8, 0x40#8, 0x41#8, 0x42#8, 0x43#8, 0x44#8, 0x50#8, 0x51#8, 0x52#8, 0x53#8, 0x60#8, 0x61#8, 0x62#8, 0x63#8,
      0x70#8, 0x71#8, 0x72#8, 0x73#8, 0x74#8, 0x75#8] := by decide +kernel

theorem tableOps_nodup : tableOps.Nodup := by decide +kernel

/-- No two rows have one operation byte. -/
theorem rowsOf_length_le (op : Byte) : (rowsOf op).length ≤ 1 := by
  have hcount : (rowsOf op).length = tableOps.count op := by
    rw [rowsOf, tableOps, ← List.countP_eq_length_filter, List.count, List.countP_map]
    rfl
  rw [hcount]
  exact List.nodup_iff_count_le_one.mp tableOps_nodup op

theorem wordOf_and (op arg op' arg' : Byte) :
    wordOf op arg &&& wordOf op' arg' = wordOf (op &&& op') (arg &&& arg') := by
  ext i hi
  have happend (x y : Byte) : (wordOf x y)[i] = if i < 8 then y.getLsbD i else x.getLsbD (i - 8) :=
    BitVec.getLsbD_append
  rw [BitVec.getElem_and, happend, happend, happend]
  split
  · exact BitVec.getLsbD_and.symm
  · exact BitVec.getLsbD_and.symm

/-- The constraint of a kind is at least what its rows fix by mask and match. -/
theorem and_fixedArgBits {k : ArgKind} {arg : Byte} (h : k.admits arg = true) : arg &&& fixedArgBits k = 0#8 := by
  cases k with
  | none =>
    rw [eq_of_beq h]
    rfl
  | bit => exact eq_of_beq h
  | byte | symbol | count => exact BitVec.and_zero

/-- A row holds of a word that has its operation byte and an `arg` its kind admits. -/
theorem holds_iff {r : OpcodeRow} (hr : r ∈ opcodeTable) (w : Word) :
    r.holds w = true ↔ opOf r.pattern = opOf w ∧ r.kind.admits (argOf w) = true := by
  obtain ⟨hmask, hpattern⟩ := row_shape r hr
  have hand : w &&& r.mask = wordOf (opOf w) (argOf w &&& fixedArgBits r.kind) := by
    have hones : opOf w &&& 0xFF#8 = opOf w := BitVec.and_allOnes
    rw [hmask, ← congrArg (· &&& _) (wordOf_fields w), wordOf_and, hones]
  simp only [OpcodeRow.holds, Bool.and_eq_true, beq_iff_eq]
  constructor
  · rintro ⟨hmatch, hadmits⟩
    exact ⟨by rw [← hmatch, hand, opOf_wordOf], hadmits⟩
  · rintro ⟨hop, hadmits⟩
    exact ⟨by rw [hand, and_fixedArgBits hadmits, ← hop, ← hpattern], hadmits⟩

theorem mem_rowsOf {r : OpcodeRow} {op : Byte} : r ∈ rowsOf op ↔ r ∈ opcodeTable ∧ opOf r.pattern = op := by
  simp [rowsOf]

/-- At most one row holds of a word. -/
theorem filter_holds_length_le (w : Word) : (opcodeTable.filter (fun r => r.holds w)).length ≤ 1 := by
  have hrow : opcodeTable.filter (fun r => r.holds w) =
      (rowsOf (opOf w)).filter (fun r => r.holds w) := by
    rw [rowsOf, List.filter_filter]
    refine List.filter_congr fun r hr => ?_
    cases hholds : r.holds w with
    | false => rfl
    | true => simp [((holds_iff hr w).mp hholds).1]
  rw [hrow]
  exact (List.length_filter_le _ _).trans (rowsOf_length_le _)

/-- A row holds of a command's own word. -/
theorem exists_row_of_decode {c : Cmd} {i : Instr} (h : decode c = .ok i) :
    ∃ r ∈ opcodeTable, r.holds c.word = true := by
  obtain ⟨hwf, hword, -⟩ := reencodes_of_decode h
  obtain ⟨⟨r, hrows, -, hholds⟩, -, -⟩ := statement_all i hwf
  have hr : r ∈ rowsOf (opOf (encode i).word) := by simp [hrows]
  exact ⟨r, (mem_rowsOf.mp hr).1, hword ▸ hholds⟩

theorem argNone_ok {w : Word} (h : ArgKind.none.admits (argOf w) = true) (i : Instr) : ∃ j, argNone w i = .ok j :=
  ⟨i, if_pos (eq_of_beq h)⟩

/-- `arg[7:1]` being 0 leaves two values of `arg`. -/
theorem eq_bitArg_of_admits {arg : Byte} (h : ArgKind.bit.admits arg = true) : arg = 0#8 ∨ arg = 1#8 := by
  revert arg
  decide +kernel

theorem argBit_ok {w : Word} (h : ArgKind.bit.admits (argOf w) = true) (f : Bool → Instr) :
    ∃ j, argBit w f = .ok j := by
  rcases eq_bitArg_of_admits h with harg | harg
  · exact ⟨f false, if_pos harg⟩
  · refine ⟨f true, ?_⟩
    rw [argBit, harg]
    rfl

theorem argCount_ok {w : Word} (h : ArgKind.count.admits (argOf w) = true) (f : Byte → Instr) :
    ∃ j, argCount w f = .ok j :=
  ⟨f (argOf w), if_pos h⟩

/-- The kind of `arg` under an operation byte, by the opcode map. -/
def kindOf (op : Byte) : Option ArgKind := (rowsOf op).head?.map OpcodeRow.kind

/-- The decoder takes every word whose operation the map names and whose `arg` the kind admits. -/
theorem decode_ok_of_kind {c : Cmd} {k : ArgKind} (hkind : kindOf (opOf c.word) = some k)
    (hadmits : k.admits (argOf c.word) = true) : ∃ i, decode c = .ok i := by
  unfold decode
  split
  case h_5 | h_11 | h_19 | h_22 | h_23 | h_26 => exact ⟨_, rfl⟩
  case h_9 hop | h_17 hop =>
    rw [hop] at hkind
    obtain rfl := Option.some.inj hkind
    exact argBit_ok hadmits _
  case h_14 hop =>
    rw [hop] at hkind
    obtain rfl := Option.some.inj hkind
    exact argCount_ok hadmits _
  case h_35 =>
    have hnone : rowsOf (opOf c.word) = [] := by
      rw [rowsOf, List.filter_eq_nil_iff]
      intro r hr hop
      have hmem : opOf c.word ∈ tableOps := List.mem_map.mpr ⟨r, hr, eq_of_beq hop⟩
      rw [tableOps_eq] at hmem
      clear hkind hadmits hr hop
      simp_all
    rw [kindOf, hnone] at hkind
    cases hkind
  all_goals
    next hop =>
      rw [hop] at hkind
      obtain rfl := Option.some.inj hkind
      exact argNone_ok hadmits _

/-- A word decodes exactly when a row of the opcode map holds of it. -/
theorem decode_ok_iff (c : Cmd) : (∃ i, decode c = .ok i) ↔ ∃ r ∈ opcodeTable, r.holds c.word = true := by
  constructor
  · rintro ⟨i, h⟩
    exact exists_row_of_decode h
  · rintro ⟨r, hr, hholds⟩
    obtain ⟨hop, hadmits⟩ := (holds_iff hr c.word).mp hholds
    have hrows : rowsOf (opOf c.word) = [r] := by
      have hlen := rowsOf_length_le (opOf c.word)
      have hmem : r ∈ rowsOf (opOf c.word) := mem_rowsOf.mpr ⟨hr, hop⟩
      match hl : rowsOf (opOf c.word) with
      | [] => simp [hl] at hmem
      | [r'] => simpa [hl, eq_comm] using hmem
      | _ :: _ :: _ => simp [hl] at hlen
    exact decode_ok_of_kind (k := r.kind) (by rw [kindOf, hrows]; rfl) hadmits

/-- Settles O3: one row for each operation byte, which the decoder follows. -/
theorem legalWordsAreTheTableRows : Obligations.LegalWordsAreTheTableRows := by
  unfold Obligations.LegalWordsAreTheTableRows
  refine ⟨rfl, fun w wdata => ⟨?rows, filter_holds_length_le w⟩⟩
  case rows =>
    rw [decode_ok_iff]
    simp only [OpcodeRow.holds, Bool.and_eq_true, beq_iff_eq]

/-- A word of which no row holds is no command. -/
theorem decode_ne_ok {c : Cmd} (h : ∀ r ∈ opcodeTable, r.holds c.word = false) (i : Instr) : decode c ≠ .ok i := by
  intro hi
  obtain ⟨r, hr, hholds⟩ := exists_row_of_decode hi
  rw [h r hr] at hholds
  cases hholds

/-- The word of a command that uses no `WDATA` is its word at every `WDATA`. -/
theorem hasWord_of_no_wdata {i : Instr} (hwf : i.wf = true) (h : usesWdata i = false) : HasWord (encode i).word i :=
  hasWord_encode (statement_all i) hwf h

/-- Words just outside the opcode map. -/
def sampleIllegalWords : List Word :=
  [0x0001#16, 0x0300#16, 0x2102#16, 0x3200#16, 0x3241#16, 0x4500#16, 0x7600#16, 0x8000#16, 0xFFFF#16]

theorem no_row_of_sample {w : Word} (hw : w ∈ sampleIllegalWords) : ∀ r ∈ opcodeTable, r.holds w = false := by
  have hall : sampleIllegalWords.all (fun w => opcodeTable.all (fun r => !r.holds w)) = true := by decide +kernel
  intro r hr
  simpa using List.all_eq_true.mp (List.all_eq_true.mp hall w hw) r hr

/-- Settles O4: the legal words are encodings, and no row holds of the others. -/
theorem sampleWords : Obligations.SampleWords := by
  unfold Obligations.SampleWords
  refine ⟨hasWord_of_no_wdata (i := .sysNop) rfl rfl, hasWord_of_no_wdata (i := .crcUpd 0x41#8) rfl rfl,
    hasWord_of_no_wdata (i := .bwPut true) rfl rfl, hasWord_of_no_wdata (i := .bwFlush) rfl rfl,
    hasWord_of_no_wdata (i := .brGetn 64#8) rfl rfl, hasWord_of_no_wdata (i := .mbPut false) rfl rfl,
    hasWord_of_no_wdata (i := .mbPutsym 255#8) rfl rfl, hasWord_of_no_wdata (i := .htBuild) rfl rfl,
    hasWord_of_no_wdata (i := .ccAssign) rfl rfl, hasWord_of_no_wdata (i := .tdRun) rfl rfl,
    decode_fqSet 0x41#8 3#64, decode_clSet 0x41#8 0x101#64, decode_brSeek 273#64, ?illegal⟩
  case illegal => exact fun w hw d i => decode_ne_ok (c := ⟨w, d⟩) (no_row_of_sample hw) i

/-! ### The step (20_memory.md section 7) -/

theorem step_of_decode {s : State} {c : Cmd} {rest : List Cmd} {i : Instr} (hcmds : s.cmds = c :: rest)
    (hi : decode c = .ok i) : step s = exec i { s with cmds := rest } := by
  simp only [step, takeCmd, hcmds, hi]

theorem step_of_no_command {s : State} (hcmds : s.cmds = []) : step s = .next s := by
  simp only [step, takeCmd, hcmds]

/-- A word that is no command is answered with `ST_ILLEGAL` (30_encoding.md R97). -/
theorem step_of_illegal {s : State} {c : Cmd} {rest : List Cmd} (hcmds : s.cmds = c :: rest)
    (hc : ∀ i, decode c ≠ .ok i) : step s = .next { s with cmds := rest, status := .illegal } := by
  cases hd : decode c with
  | ok i => exact absurd hd (hc i)
  | error e =>
    simp only [step, takeCmd, hcmds, hd]
    rfl

theorem exec_sysNop (s : State) : exec .sysNop s = .next { s with status := .ok } := rfl

/-- Settles O6, by the two cases of the command list. -/
theorem stepRunsDecodedCommand : Obligations.StepRunsDecodedCommand := by
  unfold Obligations.StepRunsDecodedCommand
  exact ⟨fun s c rest i => step_of_decode, fun s => step_of_no_command⟩

/-- Settles O7: a word of which no row holds does not decode. -/
theorem illegalWordOnlySetsStatus : Obligations.IllegalWordOnlySetsStatus := by
  unfold Obligations.IllegalWordOnlySetsStatus
  exact ⟨fun s c rest hcmds hrows => step_of_illegal hcmds (decode_ne_ok hrows), rfl,
    hasWord_of_no_wdata (i := .sysNop) rfl rfl, exec_sysNop⟩

end Sys2Proof

/-! The commands the host has yet to issue: no command reads or writes them, so that a list of commands runs in order
(spec/20_memory.md section 7). -/

namespace Sys2Proof.Machine

open Sys2Proof

/-! ### No command looks at the list (notes/assumptions/1.md) -/

/-- `s` with `cs` as the commands that the host has yet to issue. -/
def withCmds (cs : List Cmd) (s : State) : State := { s with cmds := cs }

/-- What the loop of `BR.GETN` leaves, its state changed by `f`. -/
def ManyRead.map (f : State → State) : ManyRead → ManyRead
  | .got v k t => .got v k (f t)
  | .outside e => .outside e

/-- What a command answers, its next state changed by `f`. -/
def mapNext (f : State → State) : Result → Result
  | .next t => .next (f t)
  | .fault e => .fault e
  | .refused r => .refused r

/-- A choice between two values of `f` is `f` of the choice. -/
theorem ite_eq_apply {α β : Type} {f : α → β} {c : Prop} [Decidable c] {a b : β} {a' b' : α} (ha : a = f a')
    (hb : b = f b') : (if c then a else b) = f (if c then a' else b') := by
  rw [ha, hb, apply_ite f]

theorem bwPut_withCmds (cs : List Cmd) (s : State) (b : Bool) :
    bwPut (withCmds cs s) b = withCmds cs (bwPut s b) := by
  unfold bwPut
  exact ite_eq_apply rfl rfl

theorem bwPutAll_withCmds (cs : List Cmd) (s : State) (bits : List Bool) :
    bwPutAll (withCmds cs s) bits = withCmds cs (bwPutAll s bits) := by
  induction bits generalizing s with
  | nil => rfl
  | cons b bits ih =>
    calc bwPutAll (withCmds cs s) (b :: bits)
        = bwPutAll (bwPut (withCmds cs s) b) bits := rfl
      _ = withCmds cs (bwPutAll (bwPut s b) bits) := by rw [bwPut_withCmds, ih]

theorem mbPut_withCmds (cs : List Cmd) (s : State) (b : Bool) :
    mbPut (withCmds cs s) b = withCmds cs (mbPut s b) := by
  unfold mbPut
  exact ite_eq_apply rfl rfl

theorem mbPutAll_withCmds (cs : List Cmd) (s : State) (bits : List Bool) :
    mbPutAll (withCmds cs s) bits = withCmds cs (mbPutAll s bits) := by
  induction bits generalizing s with
  | nil => rfl
  | cons b bits ih =>
    calc mbPutAll (withCmds cs s) (b :: bits)
        = mbPutAll (mbPut (withCmds cs s) b) bits := rfl
      _ = withCmds cs (mbPutAll (mbPut s b) bits) := by rw [mbPut_withCmds, ih]

theorem brGet_withCmds (cs : List Cmd) (s : State) : brGet (withCmds cs s) = (brGet s).map (withCmds cs) := by
  by_cases hrem : s.brRem = 0
  · by_cases hend : s.srcPos.toNat = s.src.length
    · rw [brGet_at_end hrem hend, brGet_at_end (s := withCmds cs s) hrem hend]
      rfl
    · cases hbyte : s.src[s.srcPos.toNat]? with
      | none =>
        rw [brGet_beyond hrem hend hbyte, brGet_beyond (s := withCmds cs s) hrem hend hbyte]
        rfl
      | some byte =>
        rw [brGet_fetch hrem hbyte, brGet_fetch (s := withCmds cs s) hrem hbyte]
        rfl
  · rw [brGet_unread hrem, brGet_unread (s := withCmds cs s) hrem]
    rfl

theorem brGetMany_withCmds (cs : List Cmd) (n v k : Nat) (s : State) :
    brGetMany n v k (withCmds cs s) = (brGetMany n v k s).map (withCmds cs) := by
  induction n generalizing v k s with
  | zero => rfl
  | succ n ih =>
    unfold brGetMany
    rw [brGet_withCmds]
    cases brGet s with
    | bit b t => exact ih _ _ t
    | noData => rfl
    | outside e => rfl

theorem tdLeaf_withCmds (b : Byte) (cs : List Cmd) (s : State) :
    tdLeaf b (withCmds cs s) = withCmds cs (tdLeaf b s) := by
  by_cases hcount : s.tdCount + 1#64 = s.tdSize
  · rw [tdLeaf_last hcount, tdLeaf_last (t := withCmds cs s) hcount]
    rfl
  · rw [tdLeaf_more hcount, tdLeaf_more (t := withCmds cs s) hcount]
    rfl

theorem tdWalk_withCmds (cs : List Cmd) (s : State) : tdWalk (withCmds cs s) = (tdWalk s).map (withCmds cs) := by
  unfold tdWalk
  rw [brGet_withCmds]
  cases brGet s with
  | outside e => rfl
  | noData => rfl
  | bit b t =>
    have hnodes : (withCmds cs t).trNodes = t.trNodes := rfl
    have hcur : (withCmds cs t).tdCur = t.tdCur := rfl
    simp only [BitRead.map, hnodes, hcur, tdLeaf_withCmds]
    split
    · rfl
    · split
      · rfl
      · split
        · rfl
        · split
          · rfl
          · rfl

theorem tdEnd_withCmds (last : Option Byte) (cause : Cause) (cs : List Cmd) (s : State) :
    tdEnd last cause (withCmds cs s) = withCmds cs (tdEnd last cause s) := by
  unfold tdEnd
  exact ite_eq_apply rfl (ite_eq_apply rfl rfl)

/-- A command whose meaning is one next state commutes with a change that its next state does. -/
theorem next_withCmds {cs : List Cmd} {t u : State} (h : t = withCmds cs u) :
    (.next t : Result) = mapNext (withCmds cs) (.next u) := congrArg Host.Outcome.next h

theorem tdRunLoop_withCmds (fuel : Nat) (last : Option Byte) (cs : List Cmd) (s : State) :
    tdRunLoop fuel last (withCmds cs s) = mapNext (withCmds cs) (tdRunLoop fuel last s) := by
  induction fuel generalizing last s with
  | zero => rfl
  | succ fuel ih =>
    unfold tdRunLoop
    rw [tdWalk_withCmds]
    cases tdWalk s with
    | moved t => exact ih last t
    | emitted b t =>
      have hstate : (withCmds cs t).tdState = t.tdState := rfl
      simp only [Walk.map, hstate]
      exact ite_eq_apply (ih (some b) t) (next_withCmds (tdEnd_withCmds (some b) .none cs t))
    | corrupt cause t => exact congrArg Host.Outcome.next (tdEnd_withCmds last cause cs t)
    | outside e => rfl

theorem exec_bwFlush_withCmds (cs : List Cmd) (s : State) :
    exec .bwFlush (withCmds cs s) = mapNext (withCmds cs) (exec .bwFlush s) := by
  by_cases h : 0 < s.bwCnt.val
  · rw [exec_bwFlush_pending h, exec_bwFlush_pending (s := withCmds cs s) h]
    rfl
  · have h0 : s.bwCnt.val = 0 := Nat.eq_zero_of_not_pos h
    rw [exec_bwFlush_boundary h0, exec_bwFlush_boundary (s := withCmds cs s) h0]
    rfl

theorem execBrGet_withCmds (cs : List Cmd) (s : State) :
    execBrGet (withCmds cs s) = mapNext (withCmds cs) (execBrGet s) := by
  unfold execBrGet
  rw [brGet_withCmds]
  cases brGet s with
  | bit b t => rfl
  | noData => rfl
  | outside e => rfl

theorem execBrGetn_withCmds (n : Byte) (cs : List Cmd) (s : State) :
    execBrGetn n (withCmds cs s) = mapNext (withCmds cs) (execBrGetn n s) := by
  unfold execBrGetn
  rw [brGetMany_withCmds]
  split
  · cases brGetMany n.toNat 0 0 s with
    | got v k t => exact next_withCmds (ite_eq_apply rfl rfl)
    | outside e => rfl
  · rfl

theorem execClExtract_withCmds (cs : List Cmd) (s : State) :
    execClExtract (withCmds cs s) = mapNext (withCmds cs) (execClExtract s) := by
  have hlens : extractLengths (withCmds cs s).htNodes (withCmds cs s).htRoot = extractLengths s.htNodes s.htRoot := rfl
  have hbuilt : (withCmds cs s).htBuilt = s.htBuilt := rfl
  unfold execClExtract
  rw [hlens, hbuilt]
  split
  · rfl
  · cases extractLengths s.htNodes s.htRoot with
    | error e => rfl
    | ok t => rfl

theorem execCcAssign_withCmds (cs : List Cmd) (s : State) :
    execCcAssign (withCmds cs s) = mapNext (withCmds cs) (execCcAssign s) := by
  have hcodes : assignCodes (withCmds cs s).len = assignCodes s.len := rfl
  unfold execCcAssign
  rw [hcodes]
  cases assignCodes s.len with
  | none => rfl
  | some c => rfl

theorem execTrBuild_withCmds (cs : List Cmd) (s : State) :
    execTrBuild (withCmds cs s) = mapNext (withCmds cs) (execTrBuild s) := by
  have htrie : buildTrie (withCmds cs s).len (withCmds cs s).code = buildTrie s.len s.code := rfl
  have hvalid : (withCmds cs s).ccValid = s.ccValid := rfl
  unfold execTrBuild
  rw [htrie, hvalid]
  split
  · rfl
  · cases buildTrie s.len s.code with
    | error e => rfl
    | ok arena => rfl

theorem execTdStart_withCmds (cs : List Cmd) (s : State) :
    execTdStart (withCmds cs s) = mapNext (withCmds cs) (execTdStart s) := by
  refine next_withCmds (ite_eq_apply rfl ?_)
  rw [← tdEnd_withCmds, apply_ite (withCmds cs)]
  rfl

theorem execTdStep_withCmds (cs : List Cmd) (s : State) :
    execTdStep (withCmds cs s) = mapNext (withCmds cs) (execTdStep s) := by
  have hrest : (withCmds cs s).trValid = s.trValid ∧ decodeActive (withCmds cs s) = decodeActive s := ⟨rfl, rfl⟩
  unfold execTdStep
  rw [hrest.1, hrest.2, tdWalk_withCmds]
  split
  · rfl
  · cases tdWalk s with
    | moved t => exact next_withCmds (tdEnd_withCmds _ _ cs t)
    | emitted b t => exact next_withCmds (tdEnd_withCmds _ _ cs t)
    | corrupt cause t => exact next_withCmds (tdEnd_withCmds _ _ cs t)
    | outside e => rfl

theorem execTdRun_withCmds (cs : List Cmd) (s : State) :
    execTdRun (withCmds cs s) = mapNext (withCmds cs) (execTdRun s) := by
  have hrest : (withCmds cs s).trValid = s.trValid ∧ decodeActive (withCmds cs s) = decodeActive s := ⟨rfl, rfl⟩
  unfold execTdRun
  rw [hrest.1, hrest.2]
  exact ite_eq_apply rfl (tdRunLoop_withCmds (tdBound s) none cs s)

/-- No command reads or writes the commands that the host has yet to issue. -/
theorem exec_withCmds (i : Instr) (cs : List Cmd) (s : State) :
    exec i (withCmds cs s) = mapNext (withCmds cs) (exec i s) :=
  match i with
  | .sysNop | .sysRst | .sysClrf | .crcInit | .crcUpd _ | .crcFin | .crcSet _ | .bwRst | .brRst | .mbRst | .fqClr | .fqSet _ _
  | .clClr | .clSet _ _ => rfl
  | .bwPut b => next_withCmds (congrArg endOk (bwPut_withCmds cs s b))
  | .bwFlush => exec_bwFlush_withCmds cs s
  | .bwPutsym sym => next_withCmds (ite_eq_apply rfl
      (ite_eq_apply rfl (congrArg endOk (bwPutAll_withCmds cs s (codeword s sym)))))
  | .brGet => execBrGet_withCmds cs s
  | .brGetn n => execBrGetn_withCmds n cs s
  | .brSeek _ => next_withCmds (ite_eq_apply rfl rfl)
  | .mbPut b => next_withCmds (ite_eq_apply rfl (ite_eq_apply rfl (congrArg endOk (mbPut_withCmds cs s b))))
  | .mbFlush => next_withCmds (ite_eq_apply rfl (ite_eq_apply rfl (ite_eq_apply rfl rfl)))
  | .mbPutsym sym => next_withCmds (ite_eq_apply rfl (ite_eq_apply rfl
      (ite_eq_apply rfl (congrArg endOk (mbPutAll_withCmds cs s (codeword s sym))))))
  | .mbReplay => next_withCmds (ite_eq_apply rfl
      (congrArg endOk (bwPutAll_withCmds cs s (validBits s.mbBytes s.mbLvb.val))))
  | .fqInc _ => next_withCmds (ite_eq_apply rfl rfl)
  | .htBuild => next_withCmds (ite_eq_apply rfl rfl)
  | .clExtract => execClExtract_withCmds cs s
  | .ccAssign => execCcAssign_withCmds cs s
  | .trBuild => execTrBuild_withCmds cs s
  | .tdSetsize _ => next_withCmds (ite_eq_apply rfl rfl)
  | .tdSetcrc _ => next_withCmds (ite_eq_apply rfl rfl)
  | .tdStart => execTdStart_withCmds cs s
  | .tdStep => execTdStep_withCmds cs s
  | .tdRun => execTdRun_withCmds cs s

/-! ### A list of commands (20_memory.md section 7) -/

/-- A step of a state that has a command of its own first issues that command. -/
theorem step_encode {i : Instr} (hwf : i.wf = true) (cs : List Cmd) (s : State) :
    step (withCmds (encode i :: cs) s) = mapNext (withCmds cs) (exec i s) := by
  rw [step_of_decode (rest := cs) rfl (decode_encode hwf)]
  exact exec_withCmds i cs s

/-- A list of encoded commands runs as its commands, whatever stands behind it. -/
theorem run_encoded (is : List Instr) (hwf : ∀ i ∈ is, i.wf = true) (rest : List Cmd) (s : State) :
    Host.Core.run core is.length (withCmds (is.map encode ++ rest) s) =
      mapNext (withCmds rest) (execAll is s) := by
  induction is generalizing s with
  | nil => rfl
  | cons i is ih =>
    have hstep : core.step (withCmds ((i :: is).map encode ++ rest) s) =
        mapNext (withCmds (is.map encode ++ rest)) (exec i s) := step_encode (hwf i (List.mem_cons_self ..)) _ s
    simp only [List.length_cons, Host.Core.run, hstep, execAll]
    cases exec i s with
    | next t => exact ih (fun j hj => hwf j (List.mem_cons_of_mem i hj)) t
    | fault e => rfl
    | refused r => rfl

/-- A list of commands neither reads nor writes the commands that the host has yet to issue. -/
theorem execAll_withCmds (is : List Instr) (cs : List Cmd) (s : State) :
    execAll is (withCmds cs s) = mapNext (withCmds cs) (execAll is s) := by
  induction is generalizing s with
  | nil => rfl
  | cons i is ih =>
    simp only [execAll, exec_withCmds]
    cases exec i s with
    | next t => exact ih t
    | fault e => rfl
    | refused r => rfl

/-- Settles O8, by induction on the list: each step takes one command and leaves the rest of the list. -/
theorem commandListRunsInOrder : Obligations.CommandListRunsInOrder := by
  unfold Obligations.CommandListRunsInOrder
  intro is rest s hwf
  exact (run_encoded is hwf rest s).trans (execAll_withCmds is rest s).symm

end Sys2Proof.Machine

/-! Legal states: the reset states are legal, and from a legal state every command ends in a legal state
(spec/10_state.md, spec/60_exceptions.md R338). -/

namespace Sys2Proof.Machine

open Sys2Proof

/-! ### System commands and reset (46_system.md, 70_reset_and_hazards.md R340) -/

theorem exec_sysClrf (s : State) : exec .sysClrf s = .next { s with fault := .ok, status := .ok } := rfl

/-- Settles O17: each command's word and its equation. -/
theorem systemCommands : Obligations.SystemCommands := by
  unfold Obligations.SystemCommands
  exact ⟨⟨hasWord_of_no_wdata (i := .sysNop) rfl rfl, exec_sysNop⟩,
    ⟨hasWord_of_no_wdata (i := .sysClrf) rfl rfl, exec_sysClrf⟩,
    hasWord_of_no_wdata (i := .sysRst) rfl rfl, fun s => exec_sysRst s⟩

theorem bufferOk_resetBlock (s : State) : BufferOk (resetBlock s) := by
  constructor <;> simp [State.reset]

theorem tablesOk_resetBlock (s : State) : TablesOk (resetBlock s) := by
  constructor <;> simp [State.reset]

/-- A block reset leaves a legal state where the launch gave a buffer and an input that the length register can hold. -/
theorem legal_resetBlock {s : State} (hcap : 1 ≤ s.mbCap) (hsrc : s.src.length < 2 ^ 64) : Legal (resetBlock s) where
  capacity := hcap
  faultCode := .inl rfl
  writer := by simp [WriterOk, State.reset]
  reader := ⟨Nat.zero_le _, hsrc⟩
  buffer := bufferOk_resetBlock s
  tables := tablesOk_resetBlock s
  decoder := decoderOk_resting rfl (.inl rfl)

/-- Settles O9: the reset state is the block reset of itself, and `MB_CAP` is at least 1. -/
theorem resetIsLegal : Obligations.ResetIsLegal := by
  unfold Obligations.ResetIsLegal
  rw [← resetBlock_reset]
  refine legal_resetBlock ?_ (by simp [State.reset])
  exact Nat.le_add_left 1 Config.mbCapLessOne

/-! ### Commands that change one unit's part of the state -/

section
variable {s : State} (h : Legal s)
include h

/-- The results and the running checksum take any value (10_state.md R26, R28). -/
theorem legal_results (c : Code) (r : Word64) (n : Fin 65) (crc : Word32) :
    Legal { s with status := c, res := r, resCnt := n, crcState := crc } :=
  legal_congr h rfl h.faultCode ⟨rfl, rfl⟩ ⟨rfl, rfl⟩ ⟨rfl, rfl, rfl, rfl, rfl⟩ ⟨rfl, rfl, rfl, rfl, rfl⟩
    ⟨rfl, rfl, rfl, rfl, rfl, rfl⟩ ⟨rfl, rfl, rfl, .inl rfl⟩

theorem legal_clearFault (c : Code) : Legal { s with fault := .ok, status := c } :=
  legal_congr h rfl (.inl rfl) ⟨rfl, rfl⟩ ⟨rfl, rfl⟩ ⟨rfl, rfl, rfl, rfl, rfl⟩ ⟨rfl, rfl, rfl, rfl, rfl⟩
    ⟨rfl, rfl, rfl, rfl, rfl, rfl⟩ ⟨rfl, rfl, rfl, .inl rfl⟩

/-- The size and the expected checksum take any value while no decode is under way (45_decoder.md R250, R251). -/
theorem legal_setup (hrest : decodeActive s = false) (c : Code) (n : Word64) (v : Word32) :
    Legal { s with status := c, tdSize := n, tdXcrc := v } :=
  legal_congr h rfl h.faultCode ⟨rfl, rfl⟩ ⟨rfl, rfl⟩ ⟨rfl, rfl, rfl, rfl, rfl⟩ ⟨rfl, rfl, rfl, rfl, rfl⟩
    ⟨rfl, rfl, rfl, rfl, rfl, rfl⟩ ⟨rfl, rfl, rfl, .inr hrest⟩

/-- A sequence of puts leaves the writer legal (42_bitstream.md R139). -/
theorem legal_bwPutAll (bits : List Bool) (c : Code) : Legal { bwPutAll s bits with status := c } := by
  obtain ⟨-, hframe, -, hok⟩ := bwPutAll_spec s bits
  exact legal_writer h (hok h.writer) hframe _ c

/-- A sequence of puts that fits leaves the buffer legal (42_bitstream.md R154). -/
theorem legal_mbPutAll (hf : s.mbFlushed = false) {bits : List Bool} (hroom : bits.length ≤ mbRoom s) (c : Code) :
    Legal { mbPutAll s bits with status := c } := by
  obtain ⟨-, hframe, hok⟩ := mbPutAll_spec bits s
  exact legal_buffer h (hok h.buffer hf hroom) (by rw [hframe]) c

/-- The reader may stand at any byte of `SRC` and at its end (42_bitstream.md R146, R149). -/
theorem legal_brMoveTo {p : Word64} (hp : p.toNat ≤ s.src.length) (c : Code) :
    Legal { brMoveTo p s with status := c } :=
  legal_reader (t := brMoveTo p s) h ⟨hp, h.reader.2⟩ rfl s.res s.resCnt c

/-- The tables' part, the trie's arena being as before (10_state.md R27). -/
theorem legal_tables {t : State} (ht : TablesOk t) (hframe : t = { s with
      freq := t.freq, htNodes := t.htNodes, htRoot := t.htRoot, htNSym := t.htNSym, htBuilt := t.htBuilt,
      len := t.len, code := t.code, ccNSym := t.ccNSym, ccValid := t.ccValid, trValid := t.trValid,
      status := t.status }) : Legal t := by
  rw [hframe] at ht ⊢
  obtain ⟨h1, h2, h3, h4, h5, -, h7⟩ := h
  exact ⟨h1, h2, h3, h4, ⟨h5.1, h5.2, h5.3, h5.4, h5.5, h5.6, h5.7⟩, ht, ⟨h7.1, h7.2, h7.3, h7.4, h7.5⟩⟩

/-- A change of the counts leaves no tree that claims to match them (10_state.md R27). -/
theorem legal_counts (f : Table Word64) (c : Code) : Legal { s with freq := f, htBuilt := false, status := c } :=
  legal_tables h ⟨nofun, h.tables.treeSize, h.tables.treeRoot, h.tables.treeSyms, h.tables.codes, h.tables.codeSyms,
    h.tables.trie, h.tables.trieSize⟩ rfl

/-- A change of the lengths leaves no codes and no trie that claim to match them (10_state.md R27). -/
theorem legal_lengths (l : Table Byte) (c : Code) :
    Legal { s with len := l, ccValid := false, trValid := false, status := c } :=
  legal_tables h ⟨h.tables.tree, h.tables.treeSize, h.tables.treeRoot, h.tables.treeSyms, nofun, h.tables.codeSyms,
    nofun, h.tables.trieSize⟩ rfl

end

/-! ### Every command from a legal state (60_exceptions.md R338) -/

/-- With a code table the trie is built, within its capacity, and the decoder rests (45_decoder.md R240, R246). -/
theorem exec_trBuild_built {s : State} {arena : List TrNode} (hvalid : s.ccValid = true)
    (harena : buildTrie s.len s.code = .ok arena) : exec .trBuild s =
      .next { s with trNodes := arena, trValid := true, tdState := .idle, tdCur := 0, status := .ok } := by
  simp only [exec, execTrBuild, if_neg (Bool.ne_false_iff.mpr hvalid), harena]
  rfl

/-- The command ends, in a legal state. -/
def EndsLegal (r : Result) : Prop := ∃ t, r = .next t ∧ Legal t

theorem EndsLegal.of_eq {r : Result} {t : State} (hr : r = .next t) (ht : Legal t) : EndsLegal r := ⟨t, hr, ht⟩

section
variable {s : State} (h : Legal s)
include h

theorem execBwFlush_legal : EndsLegal (exec .bwFlush s) := by
  by_cases hcnt : 0 < s.bwCnt.val
  · refine .of_eq (exec_bwFlush_pending hcnt) (legal_writer (t := { s with
      bwAcc := 0#8, bwCnt := 0
      sink := s.sink ++ [BitVec.ofNat 8 (s.bwAcc.toNat * 2 ^ (8 - s.bwCnt.val))] }) h ?_ rfl _ _)
    simp [WriterOk]
  · exact .of_eq (exec_bwFlush_boundary (Nat.eq_zero_of_not_pos hcnt)) (legal_writer (t := s) h h.writer rfl _ _)

theorem execBwPutsym_legal (sym : Symbol) : EndsLegal (exec (.bwPutsym sym) s) := by
  refine .of_eq rfl ?_
  split
  · exact legal_status h _
  · split
    · exact legal_status h _
    · exact legal_bwPutAll h _ _

theorem execMbReplay_legal : EndsLegal (exec .mbReplay s) := by
  cases hf : s.mbFlushed with
  | false => exact .of_eq (exec_mbReplay_unflushed hf) (legal_status h _)
  | true => exact .of_eq (exec_mbReplay_flushed hf) (legal_bwPutAll h _ _)

theorem execBrGet_legal : EndsLegal (exec .brGet s) := by
  rcases brGet_spec h.reader with ⟨-, hget⟩ | ⟨b, t, hget, -, hok, hmoved, -⟩
  · exact .of_eq (exec_brGet_of_noData hget) (legal_status h _)
  · exact .of_eq (exec_brGet_of_bit hget) (legal_reader h hok hmoved _ t.resCnt _)

theorem execBrGetn_legal (n : Byte) : EndsLegal (exec (.brGetn n) s) := by
  by_cases hn : countOk n = true
  · obtain ⟨t, hmany, -, hok, hmoved⟩ := brGetMany_spec n.toNat 0 0 s h.reader
    refine .of_eq (by simp only [exec, execBrGetn, if_pos hn, hmany]; rfl) ?_
    split
    · exact legal_reader h hok hmoved _ _ _
    · exact legal_reader h hok hmoved _ _ _
  · exact .of_eq (if_neg hn) (legal_status h _)

theorem execBrSeek_legal (p : Word64) : EndsLegal (exec (.brSeek p) s) := by
  by_cases hp : p.toNat ≤ s.src.length
  · exact .of_eq (exec_brSeek_inside hp) (legal_brMoveTo h hp _)
  · exact .of_eq (exec_brSeek_beyond (by omega)) (legal_status h _)

theorem execMbRst_legal : EndsLegal (exec .mbRst s) := by
  refine .of_eq (exec_mbRst s) (legal_buffer (t := { s with
    mbBytes := [], mbAcc := 0#8, mbCnt := 0, mbLvb := 0, mbFlushed := false }) h ?_ rfl _)
  constructor <;> simp

theorem execMbPut_legal (b : Bool) : EndsLegal (exec (.mbPut b) s) := by
  refine .of_eq rfl ?_
  split
  · exact legal_status h _
  next hf =>
    split
    · exact legal_status h _
    next hroom => exact legal_mbPutAll h (bits := [b]) (Bool.eq_false_iff.mpr hf) (Nat.one_le_iff_ne_zero.mpr hroom) _

theorem execMbPutsym_legal (sym : Symbol) : EndsLegal (exec (.mbPutsym sym) s) := by
  refine .of_eq rfl ?_
  split
  · exact legal_status h _
  next hf =>
    obtain ⟨-, hf⟩ := not_or.mp hf
    split
    · exact legal_status h _
    · split
      · exact legal_status h _
      next hroom =>
        refine legal_mbPutAll h (Bool.eq_false_iff.mpr hf) ?_ _
        rw [codeword, codewordIn_length]
        exact Nat.le_of_not_lt hroom

theorem execMbFlush_legal : EndsLegal (exec .mbFlush s) := by
  obtain ⟨hacc, hbytes, hslot, hunf, -, -, -⟩ := h.buffer
  cases hf : s.mbFlushed with
  | true => exact .of_eq (exec_mbFlush_flushed hf) (legal_status h _)
  | false =>
    by_cases hcnt : 0 < s.mbCnt.val
    · have hne : s.mbCnt ≠ 0 := Fin.pos_iff_ne_zero.mp hcnt
      have hfill := leftJustify_filler s.mbAcc s.mbCnt
      rw [leftJustify_eq_ofNat] at hfill
      refine .of_eq (exec_mbFlush_pending hf hcnt) (legal_buffer (t := { s with
        mbBytes := s.mbBytes ++ [BitVec.ofNat 8 (s.mbAcc.toNat * 2 ^ (8 - s.mbCnt.val))]
        mbLvb := s.mbCnt.castSucc, mbAcc := 0#8, mbCnt := 0, mbFlushed := true }) h ?_ rfl _)
      refine ⟨by simp, ?_, nofun, nofun, fun _ => rfl, fun _ => ?_, ?_⟩
      · simpa using hslot hne
      · simpa using hne
      · rintro - b hb
        simp only [List.getLast?_concat, Option.some.injEq] at hb
        subst hb
        exact hfill
    · have h0 : s.mbCnt = 0 := Fin.ext (Nat.eq_zero_of_not_pos hcnt)
      refine .of_eq (exec_mbFlush_boundary hf (Nat.eq_zero_of_not_pos hcnt)) (legal_buffer (t := { s with
        mbLvb := if s.mbBytes ≠ [] then 8 else 0, mbFlushed := true }) h ?_ rfl _)
      refine ⟨hacc, hbytes, fun hne => absurd h0 hne, nofun, fun _ => h0, fun _ => ?_, fun _ b hb => ?_⟩
      · by_cases hempty : s.mbBytes = []
        · simp [hempty]
        · simp [hempty]
      · have hempty : s.mbBytes ≠ [] := by
          rintro hnil
          rw [hnil] at hb
          cases hb
        simp [hempty, Nat.mod_one]

theorem execFqInc_legal (sym : Symbol) : EndsLegal (exec (.fqInc sym) s) := by
  refine .of_eq rfl ?_
  split
  · exact legal_status h _
  · exact legal_counts h _ _

/-- The tree that a build claims is the one it made (43_tree_builder.md R188, R195). -/
theorem execHtBuild_legal : EndsLegal (exec .htBuild s) := by
  by_cases hfit : totalFreq s.freq < 2 ^ 64
  · obtain ⟨hsize, hroot⟩ := buildTree_size hfit
    exact .of_eq (exec_htBuild_fits hfit) (legal_tables h ⟨fun _ => ⟨hfit, rfl, rfl⟩, hsize, hroot,
      presentByFreq_length_le s.freq, h.tables.codes, h.tables.codeSyms, h.tables.trie, h.tables.trieSize⟩ rfl)
  · exact .of_eq (exec_htBuild_overflow (by omega)) (legal_status h _)

theorem execClExtract_legal : EndsLegal (exec .clExtract s) := by
  cases hbuilt : s.htBuilt with
  | false => exact .of_eq (exec_clExtract_unbuilt hbuilt) (legal_status h _)
  | true =>
    obtain ⟨hfit, htree, -⟩ := h.tables.tree hbuilt
    obtain ⟨lens, hlens, -⟩ := extractLengths_spec hfit
    rw [htree] at hlens
    exact .of_eq (exec_clExtract_built hbuilt hlens) (legal_lengths h _ _)

/-- The codes that the assigner claims are the ones it made; its fault leaves none (44_canonical.md R220). -/
theorem execCcAssign_legal : EndsLegal (exec .ccAssign s) := by
  have hperm : (canonOrder s.len).length = (presentByLen s.len).length := (canonOrder_perm s.len).length_eq
  have hsyms : (canonOrder s.len).length ≤ 256 := hperm ▸ presentByLen_length_le s.len
  refine .of_eq rfl ?_
  cases hc : assignCodes s.len with
  | none =>
    refine legal_endFault (c := .badLen) (s := { s with
      ccNSym := (canonOrder s.len).length, ccValid := false, trValid := false, code := tblFill 0#255 }) ?_ rfl
    exact legal_tables h ⟨h.tables.tree, h.tables.treeSize, h.tables.treeRoot, h.tables.treeSyms, nofun, hsyms, nofun,
      h.tables.trieSize⟩ rfl
  | some c =>
    exact legal_tables h ⟨h.tables.tree, h.tables.treeSize, h.tables.treeRoot, h.tables.treeSyms,
      fun _ => ⟨hc, hperm⟩, hsyms, nofun, h.tables.trieSize⟩ rfl

theorem execTrBuild_legal : EndsLegal (exec .trBuild s) := by
  cases hvalid : s.ccValid with
  | false => exact .of_eq (if_pos hvalid) (legal_status h _)
  | true =>
    obtain ⟨arena, -, harena, -, -, hsize, -⟩ := buildTrie_spec s.len s.code
    refine .of_eq (exec_trBuild_built hvalid harena) ?_
    obtain ⟨h1, h2, h3, h4, h5, h6, -⟩ := h
    exact ⟨h1, h2, h3, h4, ⟨h5.1, h5.2, h5.3, h5.4, h5.5, h5.6, h5.7⟩,
      ⟨h6.1, h6.2, h6.3, h6.4, h6.5, h6.6, fun _ => ⟨hvalid, harena⟩, hsize⟩, decoderOk_resting rfl (.inl rfl)⟩

theorem execTdSetsize_legal (n : Word64) : EndsLegal (exec (.tdSetsize n) s) := by
  refine .of_eq (exec_tdSetsize n s) ?_
  cases hrest : decodeActive s with
  | true => exact legal_status h _
  | false => exact legal_setup h hrest _ _ _

theorem execTdSetcrc_legal (v : Word32) : EndsLegal (exec (.tdSetcrc v) s) := by
  refine .of_eq (exec_tdSetcrc v s) ?_
  cases hrest : decodeActive s with
  | true => exact legal_status h _
  | false => exact legal_setup h hrest _ _ _

/-- A decode starts at the root of a trie that is there, or ends at once (45_decoder.md R252). -/
theorem execTdStart_legal : EndsLegal (exec .tdStart s) := by
  cases htrie : s.trValid with
  | false => exact .of_eq (exec_tdStart_without_trie htrie) (legal_status h _)
  | true =>
    by_cases hsize : s.tdSize = 0#64
    · have hended : Legal { s with
          crcState := 0xFFFFFFFF#32, tdCount := 0#64, tdCur := 0
          tdState := if 0#32 = s.tdXcrc then .done else .failed } := by
        refine legal_decoder h rfl h.reader (decoderOk_resting ?_ (.inl rfl))
        by_cases hcrc : 0#32 = s.tdXcrc
        · simp [decodeActive, hcrc]
        · simp [decodeActive, hcrc]
      exact .of_eq (exec_tdStart_finish htrie hsize) (legal_tdEnd hended _ _)
    · obtain ⟨-, hne, -⟩ := legal_labels h htrie
      have hpos : 0 < s.tdSize.toNat := Nat.pos_of_ne_zero fun h0 => hsize (BitVec.eq_of_toNat_eq h0)
      have hwalk : Legal { s with crcState := 0xFFFFFFFF#32, tdCount := 0#64, tdCur := 0, tdState := .atRoot } :=
        legal_decoder h rfl h.reader ⟨fun _ => rfl, nofun, fun _ => hpos, fun _ => hne, .inl rfl⟩
      exact .of_eq (exec_tdStart_walk htrie hsize) (legal_results hwalk .ok 0#64 s.resCnt _)

theorem execTdStep_legal : EndsLegal (exec .tdStep s) := by
  by_cases hrefused : s.trValid = false ∨ decodeActive s = false
  · exact .of_eq (if_pos hrefused) (legal_status h _)
  · obtain ⟨htrie, hactive⟩ := not_or.mp hrefused
    rw [Bool.not_eq_false] at htrie hactive
    obtain ⟨hinside, hmoved, hemitted, hcorrupt⟩ := decoding_walk ⟨h, htrie, hactive⟩
    cases hw : tdWalk s with
    | moved t => exact .of_eq (exec_tdStep_of_moved htrie hactive hw) (legal_tdEnd (hmoved t hw).legal _ _)
    | emitted b t => exact .of_eq (exec_tdStep_of_emitted htrie hactive hw) (legal_tdEnd (hemitted b t hw).1 _ _)
    | corrupt cause t => exact .of_eq (exec_tdStep_of_corrupt htrie hactive hw) (legal_tdEnd (hcorrupt cause t hw) _ _)
    | outside f => exact absurd hw (hinside f)

theorem execTdRun_legal : EndsLegal (exec .tdRun s) := by
  by_cases hrefused : s.trValid = false ∨ decodeActive s = false
  · exact .of_eq (if_pos hrefused) (legal_status h _)
  · obtain ⟨htrie, hactive⟩ := not_or.mp hrefused
    rw [Bool.not_eq_false] at htrie hactive
    rw [exec_tdRun_of_active htrie hactive]
    refine tdRunLoop_induct (P := Decoding) (Q := Legal) (fun u hu => hu.legal.reader)
      (fun u f hu => (decoding_walk hu).1 f) (fun u t hu => (decoding_walk hu).2.1 t) ?_ ?_ ?_ _ none s
      ⟨h, htrie, hactive⟩ (by rw [tdBound_eq]; omega)
    · intro u b t hu hw hroot
      obtain ⟨-, -, hemitted, -⟩ := decoding_walk hu
      exact (hemitted b t hw).2 hroot
    · intro u b t hu hw _
      obtain ⟨-, -, hemitted, -⟩ := decoding_walk hu
      exact legal_tdEnd (hemitted b t hw).1 _ _
    · intro u last cause t hu hw
      obtain ⟨-, -, -, hcorrupt⟩ := decoding_walk hu
      exact legal_tdEnd (hcorrupt cause t hw) _ _

/-- Every command issued in a legal state ends, in a legal state. -/
theorem exec_legal (i : Instr) : EndsLegal (exec i s) :=
  match i with
  | .sysNop => .of_eq (exec_sysNop s) (legal_status h _)
  | .sysRst => .of_eq (exec_sysRst s) (legal_resetBlock h.capacity h.reader.2)
  | .sysClrf => .of_eq (exec_sysClrf s) (legal_clearFault h _)
  | .crcInit => .of_eq (exec_crcInit s) (legal_results h _ _ _ _)
  | .crcUpd _ => .of_eq rfl (legal_results h .ok s.res s.resCnt _)
  | .crcFin => .of_eq (exec_crcFin s) (legal_results h _ _ _ _)
  | .crcSet v => .of_eq (exec_crcSet v s) (legal_results h _ _ _ _)
  | .bwRst => .of_eq (exec_bwRst s) (legal_writer (t := { s with bwAcc := 0#8, bwCnt := 0 }) h (by simp [WriterOk]) rfl _ _)
  | .bwPut b => .of_eq rfl (legal_bwPutAll h [b] .ok)
  | .bwFlush => execBwFlush_legal h
  | .bwPutsym sym => execBwPutsym_legal h sym
  | .brRst => .of_eq (exec_brRst s) (legal_brMoveTo h (Nat.zero_le _) _)
  | .brGet => execBrGet_legal h
  | .brGetn n => execBrGetn_legal h n
  | .brSeek p => execBrSeek_legal h p
  | .mbRst => execMbRst_legal h
  | .mbPut b => execMbPut_legal h b
  | .mbFlush => execMbFlush_legal h
  | .mbPutsym sym => execMbPutsym_legal h sym
  | .mbReplay => execMbReplay_legal h
  | .fqClr => .of_eq (exec_fqClr s) (legal_counts h _ _)
  | .fqSet sym n => .of_eq (exec_fqSet sym n s) (legal_counts h _ _)
  | .fqInc sym => execFqInc_legal h sym
  | .htBuild => execHtBuild_legal h
  | .clClr => .of_eq (exec_clClr s) (legal_lengths h _ _)
  | .clSet sym l => .of_eq (exec_clSet sym l s) (legal_lengths h _ _)
  | .clExtract => execClExtract_legal h
  | .ccAssign => execCcAssign_legal h
  | .trBuild => execTrBuild_legal h
  | .tdSetsize n => execTdSetsize_legal h n
  | .tdSetcrc v => execTdSetcrc_legal h v
  | .tdStart => execTdStart_legal h
  | .tdStep => execTdStep_legal h
  | .tdRun => execTdRun_legal h

/-- Every step from a legal state ends, in a legal state. -/
theorem step_legal : EndsLegal (step s) := by
  cases hcmds : s.cmds with
  | nil => exact .of_eq (step_of_no_command hcmds) h
  | cons c rest =>
    cases hd : decode c with
    | ok i =>
      rw [step_of_decode hcmds hd]
      exact exec_legal (legal_cmds h rest) i
    | error e =>
      refine .of_eq (step_of_illegal hcmds fun i hi => ?_) (legal_status (legal_cmds h rest) _)
      rw [hd] at hi
      cases hi

end

/-- Settles O10: the next state of a step from a legal state is the legal one in which it ends. -/
theorem stepKeepsLegal : Obligations.StepKeepsLegal := by
  unfold Obligations.StepKeepsLegal
  intro s t hs ht
  obtain ⟨u, hu, hlegal⟩ := step_legal hs
  obtain rfl := Host.Outcome.next.inj (hu.symm.trans ht)
  exact hlegal

/-- Settles O11: a command, and a step, ends from every legal state. -/
theorem legalStepsComplete : Obligations.LegalStepsComplete := by
  unfold Obligations.LegalStepsComplete
  refine ⟨fun i s hs => ?_, fun s hs => ?_⟩
  · obtain ⟨t, ht, -⟩ := exec_legal hs i
    exact ⟨t, ht⟩
  · obtain ⟨t, ht, -⟩ := step_legal hs
    exact ⟨t, ht⟩

end Sys2Proof.Machine

/-! What each command may write, and the status codes with which it may end (spec/10_state.md sections 3 to 10,
spec/60_exceptions.md R306). -/

namespace Sys2Proof.Machine

open Sys2Proof

/-! ### What each command writes (10_state.md) -/

/-- `t` differs from `s` only in what the command `i` may write, and what a command appends to a stream stands behind
what was there. Of `SYS.RST` nothing is said. -/
def Frame (i : Instr) (s t : State) : Prop :=
  match i with
  | .sysRst => True
  | .sysNop => t = { s with status := t.status }
  | .sysClrf => t = { s with status := t.status, fault := t.fault }
  | .crcInit | .crcUpd _ | .crcSet _ => t = { s with status := t.status, crcState := t.crcState }
  | .crcFin => t = { s with status := t.status, res := t.res }
  | .bwRst => t = { s with status := t.status, bwAcc := t.bwAcc, bwCnt := t.bwCnt, bwPad := t.bwPad }
  | .bwPut _ | .bwPutsym _ | .mbReplay => s.sink <+: t.sink ∧
      t = { s with status := t.status, bwAcc := t.bwAcc, bwCnt := t.bwCnt, sink := t.sink }
  | .bwFlush => s.sink <+: t.sink ∧
      t = { s with status := t.status, bwAcc := t.bwAcc, bwCnt := t.bwCnt, sink := t.sink, bwPad := t.bwPad }
  | .brRst | .brSeek _ => t = { s with status := t.status, brCur := t.brCur, brRem := t.brRem, srcPos := t.srcPos }
  | .brGet => t = { s with
      status := t.status, brCur := t.brCur, brRem := t.brRem, srcPos := t.srcPos, res := t.res }
  | .brGetn _ => t = { s with
      status := t.status, brCur := t.brCur, brRem := t.brRem, srcPos := t.srcPos, res := t.res, resCnt := t.resCnt }
  | .mbRst | .mbPut _ | .mbFlush | .mbPutsym _ => t = { s with
      status := t.status, mbBytes := t.mbBytes, mbAcc := t.mbAcc, mbCnt := t.mbCnt, mbLvb := t.mbLvb,
      mbFlushed := t.mbFlushed }
  | .fqClr | .fqSet _ _ | .fqInc _ => t = { s with status := t.status, freq := t.freq, htBuilt := t.htBuilt }
  | .htBuild => t = { s with
      status := t.status, htNodes := t.htNodes, htRoot := t.htRoot, htNSym := t.htNSym, htBuilt := t.htBuilt }
  | .clClr | .clSet _ _ | .clExtract => t = { s with
      status := t.status, len := t.len, ccValid := t.ccValid, trValid := t.trValid }
  | .ccAssign => t = { s with
      status := t.status, fault := t.fault, code := t.code, ccNSym := t.ccNSym, ccValid := t.ccValid,
      trValid := t.trValid }
  | .trBuild => t = { s with
      status := t.status, trNodes := t.trNodes, trValid := t.trValid, tdState := t.tdState, tdCur := t.tdCur }
  | .tdSetsize _ => t = { s with status := t.status, tdSize := t.tdSize }
  | .tdSetcrc _ => t = { s with status := t.status, tdXcrc := t.tdXcrc }
  | .tdStart => t = { s with
      status := t.status, fault := t.fault, res := t.res, crcState := t.crcState, tdState := t.tdState,
      tdCur := t.tdCur, tdCount := t.tdCount }
  | .tdStep | .tdRun => s.dout <+: t.dout ∧ t = { s with
      status := t.status, fault := t.fault, res := t.res, brCur := t.brCur, brRem := t.brRem, srcPos := t.srcPos,
      crcState := t.crcState, tdState := t.tdState, tdCur := t.tdCur, tdCount := t.tdCount, dout := t.dout }

/-- Where the command's meaning answers a next state, it has written only what `i` may write. -/
def FramesIn (i : Instr) (s : State) (r : Result) : Prop := ∀ t, r = .next t → Frame i s t

theorem FramesIn.next {i : Instr} {s t : State} (h : Frame i s t) : FramesIn i s (.next t) := by
  rintro _ ⟨⟩
  exact h

theorem FramesIn.stopped {i : Instr} {s : State} (f : Fault) : FramesIn i s (.fault f) := by
  rintro _ ⟨⟩

theorem Frame.ite {i : Instr} {s a b : State} {c : Prop} [Decidable c] (ha : Frame i s a) (hb : Frame i s b) :
    Frame i s (if c then a else b) := by
  split
  · exact ha
  · exact hb

/-- A refusal writes `STATUS`, which every command may write (60_exceptions.md R304). -/
theorem frame_endRefused (i : Instr) (c : Code) (s : State) : Frame i s (endRefused c s) := by
  cases i
  case sysRst => trivial
  case bwPut | bwPutsym | mbReplay | bwFlush | tdStep | tdRun => exact ⟨List.prefix_rfl, rfl⟩
  all_goals exact (rfl : endRefused c s = { s with status := c })

/-- A sequence of puts writes the accumulator, the count and, behind what it held, the sink (42_bitstream.md R139). -/
theorem bwPutAll_written (s : State) (bits : List Bool) : s.sink <+: (endOk (bwPutAll s bits)).sink ∧
    endOk (bwPutAll s bits) = { s with
      status := .ok, bwAcc := (bwPutAll s bits).bwAcc, bwCnt := (bwPutAll s bits).bwCnt
      sink := (bwPutAll s bits).sink } := by
  obtain ⟨-, hframe, hsink, -⟩ := bwPutAll_spec s bits
  exact ⟨hsink, congrArg endOk hframe⟩

theorem mbPutAll_written (s : State) (bits : List Bool) : endOk (mbPutAll s bits) = { s with
    status := .ok, mbAcc := (mbPutAll s bits).mbAcc, mbCnt := (mbPutAll s bits).mbCnt
    mbBytes := (mbPutAll s bits).mbBytes } := by
  obtain ⟨-, hframe, -⟩ := mbPutAll_spec bits s
  exact congrArg endOk hframe

theorem mbPutAll_frame (s : State) (bits : List Bool) : endOk (mbPutAll s bits) = { s with
    status := (endOk (mbPutAll s bits)).status, mbBytes := (endOk (mbPutAll s bits)).mbBytes
    mbAcc := (endOk (mbPutAll s bits)).mbAcc, mbCnt := (endOk (mbPutAll s bits)).mbCnt
    mbLvb := (endOk (mbPutAll s bits)).mbLvb, mbFlushed := (endOk (mbPutAll s bits)).mbFlushed } := by
  rw [mbPutAll_written]

theorem execBwFlush_frame (s : State) : FramesIn .bwFlush s (exec .bwFlush s) := by
  by_cases hcnt : 0 < s.bwCnt.val
  · rw [exec_bwFlush_pending hcnt]
    exact .next ⟨List.prefix_append _ _, rfl⟩
  · rw [exec_bwFlush_boundary (Nat.eq_zero_of_not_pos hcnt)]
    exact .next ⟨List.prefix_rfl, rfl⟩

theorem execBrGet_frame (s : State) : FramesIn .brGet s (exec .brGet s) := by
  cases hget : brGet s with
  | bit b t =>
    rw [exec_brGet_of_bit hget]
    have hmoved : t = { s with brCur := t.brCur, brRem := t.brRem, srcPos := t.srcPos } := brGet_moved hget
    refine .next ?_
    rw [hmoved]
    exact rfl
  | noData =>
    rw [exec_brGet_of_noData hget]
    exact .next rfl
  | outside f =>
    simp only [exec, execBrGet, hget]
    exact .stopped f

theorem execBrGetn_frame (n : Byte) (s : State) : FramesIn (.brGetn n) s (execBrGetn n s) := by
  unfold execBrGetn
  split
  · cases hgot : brGetMany n.toNat 0 0 s with
    | got v k t =>
      have hmoved : t = { s with brCur := t.brCur, brRem := t.brRem, srcPos := t.srcPos } := brGetMany_moved hgot
      refine .next ?_
      rw [hmoved]
      exact .ite rfl rfl
    | outside f => exact .stopped f
  · exact .next (frame_endRefused _ _ s)

theorem execClExtract_frame (s : State) : FramesIn .clExtract s (execClExtract s) := by
  unfold execClExtract
  split
  · exact .next (frame_endRefused _ _ s)
  · cases extractLengths s.htNodes s.htRoot with
    | error f => exact .stopped f
    | ok t => exact .next rfl

theorem execCcAssign_frame (s : State) : FramesIn .ccAssign s (execCcAssign s) := by
  unfold execCcAssign
  cases assignCodes s.len with
  | none => exact .next rfl
  | some c => exact .next rfl

theorem execTrBuild_frame (s : State) : FramesIn .trBuild s (execTrBuild s) := by
  unfold execTrBuild
  split
  · exact .next (frame_endRefused _ _ s)
  · cases buildTrie s.len s.code with
    | error f => exact .stopped f
    | ok arena => exact .next rfl

/-- The end of a decoder command writes `RES`, `STATUS` and `FAULT` (45_decoder.md R255, R257). -/
theorem tdEnd_written (last : Option Byte) (cause : Cause) (s : State) : tdEnd last cause s = { s with
    status := (tdEnd last cause s).status, fault := (tdEnd last cause s).fault, res := (tdEnd last cause s).res } := by
  unfold tdEnd
  simp only
  split
  · rfl
  · split
    · rfl
    · rfl

theorem execTdStart_frame (s : State) : FramesIn .tdStart s (exec .tdStart s) := by
  cases htrie : s.trValid with
  | false =>
    rw [exec_tdStart_without_trie htrie]
    exact .next rfl
  | true =>
    by_cases hsize : s.tdSize = 0#64
    · rw [exec_tdStart_finish htrie hsize, tdEnd_written]
      exact .next rfl
    · rw [exec_tdStart_walk htrie hsize]
      exact .next rfl

/-- A transition appends at most one byte to the output. -/
theorem tdWalk_dout (s t : State) : (tdWalk s = .moved t → s.dout <+: t.dout) ∧
    (∀ b, tdWalk s = .emitted b t → s.dout <+: t.dout) ∧ ∀ cause, tdWalk s = .corrupt cause t → s.dout <+: t.dout := by
  obtain ⟨hmoved, hemitted, hcorrupt⟩ := tdWalk_output s
  refine ⟨fun h => ?_, fun b h => ?_, fun cause h => ?_⟩
  · rw [(hmoved t h).1]
  · rw [(hemitted b t h).1]
    exact List.prefix_append _ _
  · rw [(hcorrupt cause t h).1]

/-- What a decoder command leaves after transitions that moved the decoder and appended to the output. -/
theorem frame_tdEnd {i : Instr} (hi : i = .tdStep ∨ i = .tdRun) {s u : State} (hmoved : DecoderMoved s u)
    (hdout : s.dout <+: u.dout) (last : Option Byte) (cause : Cause) : Frame i s (tdEnd last cause u) := by
  have hframe : Frame .tdStep s (tdEnd last cause u) := by
    unfold DecoderMoved at hmoved
    rw [tdEnd_written]
    refine ⟨hdout, ?_⟩
    rw [hmoved]
  rcases hi with rfl | rfl
  · exact hframe
  · exact hframe

theorem execTdStep_frame (s : State) : FramesIn .tdStep s (execTdStep s) := by
  unfold execTdStep
  split
  · exact .next (frame_endRefused _ _ s)
  · cases hw : tdWalk s with
    | moved t => exact .next (frame_tdEnd (.inl rfl) ((tdWalk_moved s t).1 hw) ((tdWalk_dout s t).1 hw) _ _)
    | emitted b t =>
      exact .next (frame_tdEnd (.inl rfl) ((tdWalk_moved s t).2.1 b hw) ((tdWalk_dout s t).2.1 b hw) _ _)
    | corrupt cause t =>
      exact .next (frame_tdEnd (.inl rfl) ((tdWalk_moved s t).2.2 cause hw) ((tdWalk_dout s t).2.2 cause hw) _ _)
    | outside f => exact .stopped f

/-- A run appends to the output (45_decoder.md R260). -/
theorem tdRunLoop_dout {fuel : Nat} {last : Option Byte} {s t : State} (h : tdRunLoop fuel last s = .next t) :
    s.dout <+: t.dout := by
  induction fuel generalizing last s with
  | zero => cases h
  | succ fuel ih =>
    unfold tdRunLoop at h
    cases hw : tdWalk s with
    | outside f => simp [hw] at h
    | corrupt cause u =>
      simp only [hw, Host.Outcome.next.injEq] at h
      rw [← h, (tdEnd_fields _ _ u).2.2]
      exact (tdWalk_dout s u).2.2 cause hw
    | moved u =>
      simp only [hw] at h
      exact ((tdWalk_dout s u).1 hw).trans (ih h)
    | emitted b u =>
      simp only [hw] at h
      split at h
      · exact ((tdWalk_dout s u).2.1 b hw).trans (ih h)
      · cases h
        rw [(tdEnd_fields _ _ u).2.2]
        exact (tdWalk_dout s u).2.1 b hw

theorem execTdRun_frame (s : State) : FramesIn .tdRun s (execTdRun s) := by
  unfold execTdRun
  split
  · exact .next (frame_endRefused _ _ s)
  · intro t h
    have hdout := tdRunLoop_dout h
    obtain ⟨last, cause, u, rfl, hmoved⟩ := tdRunLoop_ends h
    rw [(tdEnd_fields _ _ u).2.2] at hdout
    exact frame_tdEnd (.inr rfl) hmoved hdout last cause

/-- Every command writes only what it may write. -/
theorem exec_frame (i : Instr) (s : State) : FramesIn i s (exec i s) :=
  match i with
  | .sysRst => fun _ _ => trivial
  | .sysNop | .sysClrf | .crcInit | .crcUpd _ | .crcFin | .crcSet _ | .bwRst | .brRst | .mbRst | .fqClr | .fqSet _ _
  | .clClr | .clSet _ _ => .next rfl
  | .bwPut b => .next (bwPutAll_written s [b])
  | .bwFlush => execBwFlush_frame s
  | .bwPutsym sym => .next (.ite (frame_endRefused _ _ s)
      (.ite (frame_endRefused _ _ s) (bwPutAll_written s (codeword s sym))))
  | .brGet => execBrGet_frame s
  | .brGetn n => execBrGetn_frame n s
  | .brSeek _ => .next (.ite (frame_endRefused _ _ s) rfl)
  | .mbPut b => .next (.ite (frame_endRefused _ _ s) (.ite (frame_endRefused _ _ s) (mbPutAll_frame s [b])))
  | .mbFlush => .next (.ite (frame_endRefused _ _ s) (.ite rfl (.ite rfl rfl)))
  | .mbPutsym sym => .next (.ite (frame_endRefused _ _ s)
      (.ite (frame_endRefused _ _ s) (.ite (frame_endRefused _ _ s) (mbPutAll_frame s (codeword s sym)))))
  | .mbReplay => .next (.ite (frame_endRefused _ _ s) (bwPutAll_written s (validBits s.mbBytes s.mbLvb.val)))
  | .fqInc _ => .next (.ite (frame_endRefused _ _ s) rfl)
  | .htBuild => .next (.ite (frame_endRefused _ _ s) rfl)
  | .clExtract => execClExtract_frame s
  | .ccAssign => execCcAssign_frame s
  | .trBuild => execTrBuild_frame s
  | .tdSetsize _ => .next (.ite (frame_endRefused _ _ s) rfl)
  | .tdSetcrc _ => .next (.ite (frame_endRefused _ _ s) rfl)
  | .tdStart => execTdStart_frame s
  | .tdStep => execTdStep_frame s
  | .tdRun => execTdRun_frame s

/-- Settles O16: the frame of each command leaves every field whose writers do not name it. -/
theorem eachStateHasItsWriters : Obligations.EachStateHasItsWriters := by
  unfold Obligations.EachStateHasItsWriters
  intro i s t hrst h
  have hframe : Frame i s t := exec_frame i s t h
  cases i
  case sysRst => exact absurd rfl hrst
  case bwPut | bwPutsym | mbReplay | bwFlush =>
    obtain ⟨hsink, hframe⟩ := hframe
    refine ⟨?_, ?_, ?_, ?_, ?_, ?_, ⟨hsink, ?_⟩, ?_⟩ <;> rw [hframe] <;> simp
  case tdStep | tdRun =>
    obtain ⟨hdout, hframe⟩ := hframe
    refine ⟨?_, ?_, ?_, ?_, ?_, ?_, ⟨?_, hdout⟩, ?_⟩ <;> rw [hframe] <;> simp
  all_goals
    unfold Frame at hframe
    rw [hframe]
    simp

/-! ### Status codes (60_exceptions.md R306) -/

/-- Where the command's meaning answers a next state, its status is one of `cs`. -/
def StatusIn (cs : List Code) (r : Result) : Prop := ∀ t, r = .next t → t.status ∈ cs

theorem StatusIn.next {cs : List Code} {t : State} (h : t.status ∈ cs) : StatusIn cs (.next t) := by
  rintro _ ⟨⟩
  exact h

theorem StatusIn.stopped {cs : List Code} (f : Fault) : StatusIn cs (.fault f) := by
  rintro _ ⟨⟩

theorem status_ite {cs : List Code} {c : Prop} [Decidable c] {a b : State} (ha : a.status ∈ cs) (hb : b.status ∈ cs) :
    (if c then a else b).status ∈ cs := by
  split
  · exact ha
  · exact hb

/-- The three ends of a decoder command. -/
theorem tdEnd_status (last : Option Byte) (cause : Cause) (s : State) :
    (tdEnd last cause s).status = .ok ∨ (tdEnd last cause s).status = .integrity ∨
      cause ≠ .none ∧ (tdEnd last cause s).status = .corrupt := by
  unfold tdEnd
  simp only
  split
  next hcause => exact .inr (.inr ⟨hcause, rfl⟩)
  · split
    · exact .inr (.inl rfl)
    · exact .inl rfl

theorem tdEnd_status_mem (last : Option Byte) (cause : Cause) (s : State) :
    (tdEnd last cause s).status ∈ [Code.ok, .seq, .corrupt, .integrity] := by
  obtain h | h | ⟨-, h⟩ := tdEnd_status last cause s <;> simp [h]

theorem execBrGet_status (s : State) : StatusIn [.ok, .noData] (execBrGet s) := by
  unfold execBrGet
  cases brGet s with
  | bit b t => exact .next (.head _)
  | noData => exact .next (.tail _ (.head _))
  | outside f => exact .stopped f

theorem execBrGetn_status {n : Byte} (hn : countOk n = true) (s : State) : StatusIn [.ok, .noData] (execBrGetn n s) := by
  unfold execBrGetn
  rw [if_pos hn]
  cases brGetMany n.toNat 0 0 s with
  | got v k t => exact .next (status_ite (.tail _ (.head _)) (.head _))
  | outside f => exact .stopped f

theorem execClExtract_status (s : State) : StatusIn [.ok, .seq] (execClExtract s) := by
  unfold execClExtract
  split
  · exact .next (.tail _ (.head _))
  · cases extractLengths s.htNodes s.htRoot with
    | error f => exact .stopped f
    | ok t => exact .next (.head _)

theorem execCcAssign_status (s : State) : StatusIn [.ok, .badLen] (execCcAssign s) := by
  unfold execCcAssign
  cases assignCodes s.len with
  | none => exact .next (.tail _ (.head _))
  | some c => exact .next (.head _)

theorem execTrBuild_status (s : State) : StatusIn [.ok, .seq] (execTrBuild s) := by
  unfold execTrBuild
  split
  · exact .next (.tail _ (.head _))
  · cases buildTrie s.len s.code with
    | error f => exact .stopped f
    | ok arena => exact .next (.head _)

theorem execTdStart_status (s : State) : StatusIn [.ok, .seq, .integrity] (execTdStart s) := by
  unfold execTdStart
  refine .next (status_ite (.tail _ (.head _)) ?_)
  extract_lets u
  obtain h | h | ⟨hcause, -⟩ := tdEnd_status none .none (if s.tdSize = 0#64 then tdFinish u else { u with tdState := .atRoot })
  · simp [h]
  · simp [h]
  · exact absurd rfl hcause

theorem execTdStep_status (s : State) : StatusIn [.ok, .seq, .corrupt, .integrity] (execTdStep s) := by
  unfold execTdStep
  split
  · exact .next (.tail _ (.head _))
  · cases tdWalk s with
    | moved t => exact .next (tdEnd_status_mem _ _ t)
    | emitted b t => exact .next (tdEnd_status_mem _ _ t)
    | corrupt cause t => exact .next (tdEnd_status_mem _ _ t)
    | outside f => exact .stopped f

theorem execTdRun_status (s : State) : StatusIn [.ok, .seq, .corrupt, .integrity] (execTdRun s) := by
  unfold execTdRun
  split
  · exact .next (.tail _ (.head _))
  · intro t h
    obtain ⟨last, cause, u, rfl, -⟩ := tdRunLoop_ends h
    exact tdEnd_status_mem last cause u

/-- The status of every command that has a word is in its row of outcomes. -/
theorem exec_status {i : Instr} (hwf : i.wf = true) (s : State) : StatusIn (outcomesOf i) (exec i s) :=
  match i with
  | .sysNop | .sysRst | .sysClrf | .crcInit | .crcUpd _ | .crcFin | .crcSet _ | .bwRst | .bwPut _ | .bwFlush | .brRst
  | .mbRst | .fqClr | .fqSet _ _ | .clClr | .clSet _ _ => .next (.head _)
  | .bwPutsym _ => .next (status_ite (.tail _ (.head _)) (status_ite (.tail _ (.tail _ (.head _))) (.head _)))
  | .brGet => execBrGet_status s
  | .brGetn _ => execBrGetn_status hwf s
  | .brSeek _ => .next (status_ite (.tail _ (.head _)) (.head _))
  | .mbPut _ => .next (status_ite (.tail _ (.head _)) (status_ite (.tail _ (.tail _ (.head _))) (.head _)))
  | .mbFlush => .next (status_ite (.tail _ (.head _)) (status_ite (.head _) (status_ite (.head _) (.head _))))
  | .mbPutsym _ => .next (status_ite (.tail _ (.head _)) (status_ite (.tail _ (.tail _ (.head _)))
      (status_ite (.tail _ (.tail _ (.tail _ (.head _)))) (.head _))))
  | .mbReplay => .next (status_ite (.tail _ (.head _)) (.head _))
  | .fqInc _ => .next (status_ite (.tail _ (.head _)) (.head _))
  | .htBuild => .next (status_ite (.tail _ (.head _)) (.head _))
  | .clExtract => execClExtract_status s
  | .ccAssign => execCcAssign_status s
  | .trBuild => execTrBuild_status s
  | .tdSetsize _ => .next (status_ite (.tail _ (.head _)) (.head _))
  | .tdSetcrc _ => .next (status_ite (.tail _ (.head _)) (.head _))
  | .tdStart => execTdStart_status s
  | .tdStep => execTdStep_status s
  | .tdRun => execTdRun_status s

/-- Settles O14, command by command. -/
theorem statusPerCommand : Obligations.StatusPerCommand := by
  unfold Obligations.StatusPerCommand
  exact fun i s t hwf h => exec_status hwf s t h

end Sys2Proof.Machine

/-! The Checksum Engine over a sequence, the packing law of the writer, and its reading back (spec/41_crc.md,
spec/42_bitstream.md, spec/20_memory.md section 2). -/

namespace Sys2Proof.Machine

open Sys2Proof

/-! ### Sequences of commands -/

/-- A sequence after another goes on from the state that the first leaves. -/
theorem execAll_append {is js : List Instr} {s t : State} (h : execAll is s = .next t) :
    execAll (is ++ js) s = execAll js t := by
  induction is generalizing s with
  | nil =>
    cases h
    rfl
  | cons i is ih =>
    rw [List.cons_append, execAll]
    rw [execAll] at h
    cases hi : exec i s with
    | next u =>
      rw [hi] at h
      exact ih h
    | fault f =>
      rw [hi] at h
      cases h
    | refused r =>
      rw [hi] at h
      cases h

/-- A command before a sequence. -/
theorem execAll_cons {i : Instr} {is : List Instr} {s t : State} (h : exec i s = .next t) :
    execAll (i :: is) s = execAll is t := by
  rw [execAll, h]

theorem execAll_singleton {i : Instr} {s t : State} (h : exec i s = .next t) : execAll [i] s = .next t :=
  execAll_cons h

/-! ### Checksum (41_crc.md) -/

/-- One of the eight steps, in arithmetic. -/
theorem crcShift_eq (x : Word32) : crcShift x =
    if x.toNat % 2 = 1 then BitVec.ofNat 32 (x.toNat / 2) ^^^ 0xEDB88320#32 else BitVec.ofNat 32 (x.toNat / 2) := by
  have hbit : (x.getLsbD 0 = true) = (x.toNat % 2 = 1) := by simp [BitVec.getLsbD]
  have hhalf : x >>> 1 = BitVec.ofNat 32 (x.toNat / 2) := by
    apply BitVec.eq_of_toNat_eq
    rw [BitVec.toNat_ushiftRight, Nat.shiftRight_one, BitVec.toNat_ofNat]
    omega
  simp only [crcShift, hbit, hhalf]

/-- The eight steps of a byte, one after another. -/
theorem crcByte_eq (c : Word32) (b : Byte) : crcByte c b =
    (List.range 8).foldl (fun x _ => if x.toNat % 2 = 1 then BitVec.ofNat 32 (x.toNat / 2) ^^^ 0xEDB88320#32
      else BitVec.ofNat 32 (x.toNat / 2)) (c ^^^ b.setWidth 32) := by
  simp only [← crcShift_eq, List.foldl_const, List.length_range, crcByte]

theorem exec_crcUpd (b : Byte) (s : State) :
    exec (.crcUpd b) s = .next { s with crcState := crcByte s.crcState b, status := .ok } := rfl

/-- The check values (41_crc.md R130). -/
theorem crc_check_values : crc32 [] = 0#32 ∧ crcByte 0xFFFFFFFF#32 0x41#8 = 0x2C266174#32 ∧
    crc32 [0x31#8, 0x32#8, 0x33#8, 0x34#8, 0x35#8, 0x36#8, 0x37#8, 0x38#8, 0x39#8] = 0xCBF43926#32 := by
  decide +kernel

/-- A command whose `arg` is a byte or a symbol has its word at every operand. -/
theorem hasWord_arg {op arg : Byte} {i : Instr} (henc : encode i = ⟨wordOf op arg, 0#64⟩) (hwf : i.wf = true)
    (hno : usesWdata i = false) : HasWord (wordOf op 0#8 ||| arg.setWidth 16) i := by
  have hword := hasWord_of_no_wdata hwf hno
  rwa [henc, ← wordOf_zero_or_arg] at hword

/-- Settles O20: the word, the command's equation, the eight steps in arithmetic and the check values. -/
theorem checksumUpdate : Obligations.ChecksumUpdate := by
  unfold Obligations.ChecksumUpdate
  exact ⟨fun b => hasWord_arg (op := 0x11#8) rfl rfl rfl, exec_crcUpd, crcByte_eq, crc_check_values⟩

/-- One `CRC.UPD` for each byte leaves the running checksum of the bytes (41_crc.md R127). -/
theorem execAll_crcUpd (bs : List Byte) (s : State) :
    ∃ t, execAll (bs.map .crcUpd) s = .next t ∧ t.crcState = crcBytes s.crcState bs := by
  induction bs generalizing s with
  | nil => exact ⟨s, rfl, rfl⟩
  | cons b bs ih =>
    obtain ⟨t, ht, hcrc⟩ := ih { s with crcState := crcByte s.crcState b, status := .ok }
    exact ⟨t, (execAll_cons (exec_crcUpd b s)).trans ht, hcrc⟩

/-- From a running checksum that the host sets, the bytes that follow and the final complement (41_crc.md R123, R124). -/
theorem execAll_crcSet (c : Word32) (bs : List Byte) (s : State) :
    ∃ t, execAll (.crcSet c :: bs.map .crcUpd ++ [.crcFin]) s = .next t ∧
      t.res = (crcFinal (crcBytes c bs)).setWidth 64 := by
  obtain ⟨t, ht, hcrc⟩ := execAll_crcUpd bs { s with crcState := c, status := .ok }
  refine ⟨_, (execAll_append ((execAll_cons (exec_crcSet c s)).trans ht)).trans
    (execAll_singleton (exec_crcFin t)), ?_⟩
  rw [hcrc]

theorem crcBytes_append (c : Word32) (a b : List Byte) : crcBytes c (a ++ b) = crcBytes (crcBytes c a) b :=
  List.foldl_append

/-- Settles O21: the running checksum of the first part, set again, goes on as that of the whole. -/
theorem checksumOfASequence : Obligations.ChecksumOfASequence := by
  unfold Obligations.ChecksumOfASequence
  intro a b s
  obtain ⟨t, ht, hres⟩ := execAll_crcSet 0xFFFFFFFF#32 (a ++ b) s
  obtain ⟨u, hu, hcrc⟩ := execAll_crcUpd a { s with crcState := 0xFFFFFFFF#32, status := .ok }
  refine ⟨t, u, ht, hres, hu, fun v => ?_⟩
  obtain ⟨x, hx, hxres⟩ := execAll_crcSet u.crcState b v
  refine ⟨x, hx, ?_⟩
  rw [hxres, hres, hcrc, crcBytes_append]

/-! ### The packing law (20_memory.md section 2) -/

/-- Bit `8 * k + j` of a stream is bit `7 - j` of byte `k` (20_memory.md R62). -/
theorem streamBits_getElem? (bytes : List Byte) (k : Nat) {j : Nat} (hj : j < 8) :
    (streamBits bytes)[8 * k + j]? = bytes[k]?.map (fun byte => byte.getLsbD (7 - j)) := by
  induction bytes generalizing k with
  | nil => rfl
  | cons b bs ih =>
    rw [streamBits_cons]
    cases k with
    | zero =>
      rw [Nat.mul_zero, Nat.zero_add, List.getElem?_append_left (by simpa using hj), bitsDown_getElem? b 8 j hj]
      rfl
    | succ k =>
      have hidx : 8 * (k + 1) + j - 8 = 8 * k + j := by omega
      rw [List.getElem?_append_right (by rw [bitsDown_length]; omega), bitsDown_length, hidx, ih]
      rfl

/-- A flush completes the bits written with as many zeros as `BW_PAD` then says (42_bitstream.md R142). -/
theorem exec_bwFlush_spec (s : State) : ∃ t, exec .bwFlush s = .next t ∧ s.sink <+: t.sink ∧
    streamBits t.sink = writerBits s ++ List.replicate t.bwPad.val false ∧
    t.bwPad.val = (8 - (writerBits s).length % 8) % 8 ∧ t.bwCnt = 0 ∧
    t = { s with sink := t.sink, bwPad := t.bwPad, bwAcc := t.bwAcc, bwCnt := 0, status := .ok } := by
  obtain ⟨hcnt, -⟩ := writer_of_bits s
  have h8 := s.bwCnt.isLt
  by_cases hpos : 0 < s.bwCnt.val
  · have hpad : (Fin.ofNat 8 (8 - s.bwCnt.val)).val = 8 - s.bwCnt.val := Nat.mod_eq_of_lt (by omega)
    refine ⟨_, exec_bwFlush_pending hpos, List.prefix_append _ _, ?_, ?_, rfl, rfl⟩
    · simp only [hpad]
      rw [← leftJustify_eq_ofNat, streamBits_append, streamBits_cons, bitsDown_leftJustify, streamBits_nil,
        List.append_nil, writerBits, List.append_assoc]
    · simp only [hpad]
      omega
  · have h0 : s.bwCnt.val = 0 := Nat.eq_zero_of_not_pos hpos
    refine ⟨_, exec_bwFlush_boundary h0, List.prefix_rfl, ?_, ?_, Fin.ext h0, ?_⟩
    · simp [writerBits, h0]
    · simp only [Fin.val_zero]
      omega
    · have hzero : s.bwCnt = 0 := Fin.ext h0
      rw [← hzero]

/-- The bits written into a reset writer and flushed, with the bytes before them (20_memory.md R62). -/
theorem execAll_packed (s : State) (bits : List Bool) : ∃ t,
    execAll (.bwRst :: bits.map .bwPut ++ [.bwFlush]) s = .next t ∧ s.sink <+: t.sink ∧
    streamBits t.sink = streamBits s.sink ++ bits ++ List.replicate t.bwPad.val false ∧
    t.bwPad.val = (8 - bits.length % 8) % 8 ∧ t.bwCnt = 0 := by
  have hputs := (execAll_cons (exec_bwRst s)).trans (execAll_bwPut _ bits)
  obtain ⟨hbits, -, hsink, -⟩ := bwPutAll_spec { s with bwAcc := 0#8, bwCnt := 0, bwPad := 0, status := .ok } bits
  have hstart : writerBits { s with bwAcc := 0#8, bwCnt := 0, bwPad := 0, status := .ok } = streamBits s.sink := by
    simp [writerBits]
  obtain ⟨t, ht, hflushed, hstream, hpad, hcnt, -⟩ := exec_bwFlush_spec { bwPutAll
    { s with bwAcc := 0#8, bwCnt := 0, bwPad := 0, status := .ok } bits with
    status := if bits = [] then Code.ok else .ok }
  have hwritten : writerBits { bwPutAll { s with bwAcc := 0#8, bwCnt := 0, bwPad := 0, status := .ok } bits with
      status := if bits = [] then Code.ok else .ok } = streamBits s.sink ++ bits := hbits.trans (by rw [hstart])
  rw [hwritten] at hstream hpad
  refine ⟨t, (execAll_append hputs).trans (execAll_singleton ht), hsink.trans hflushed, hstream, ?_, hcnt⟩
  rw [hpad, List.length_append, streamBits_length, Nat.mul_add_mod]

/-- Settles O24: the stream's bits are the bits put and the filler, and fill whole bytes. -/
theorem packingLaw : Obligations.PackingLaw := by
  unfold Obligations.PackingLaw
  intro s bits
  obtain ⟨t, ht, ⟨out, hout⟩, hstream, hpad, hcnt⟩ := execAll_packed s bits
  rw [← hout, streamBits_append, List.append_assoc] at hstream
  have hbits : streamBits out = bits ++ List.replicate t.bwPad.val false := List.append_cancel_left hstream
  refine ⟨t, out, ht, hout.symm, ?_, fun k j byte hbyte hj => ?_, hpad, hcnt⟩
  · have hlen := congrArg List.length hbits
    rw [streamBits_length, List.length_append, List.length_replicate] at hlen
    omega
  · have hbit := streamBits_getElem? out k hj
    rw [hbyte, Option.map_some, hbits] at hbit
    rw [List.getD_eq_getElem?_getD]
    rcases Nat.lt_or_ge (8 * k + j) bits.length with hlt | hge
    · rw [List.getElem?_append_left hlt] at hbit
      rw [hbit, Option.getD_some]
    · rw [List.getElem?_append_right hge] at hbit
      rw [List.getElem?_eq_none hge, Option.getD_none]
      exact List.eq_of_mem_replicate (List.mem_of_getElem? hbit)

/-! ### Reading back (20_memory.md R62) -/

/-- After `BR.SEEK p` the unread bits are those of `SRC` from byte `p` on (42_bitstream.md R149). -/
theorem readerBits_seek (s : State) (p : Word64) :
    readerBits { s with brCur := 0#8, brRem := 0, srcPos := p, status := .ok } = streamBits (s.src.drop p.toNat) := by
  simp [readerBits]

/-- At the end of the data `BR.GET` signals (42_bitstream.md R147). -/
theorem exec_brGet_nil {s : State} (h : ReaderOk s) (hb : readerBits s = []) :
    exec .brGet s = .next { s with status := .noData } := exec_brGet_of_noData (brGet_nil h hb)

/-- Settles O25: the reads after a seek deliver the bits of `SRC` from there on, and then signal. -/
theorem readBackLaw : Obligations.ReadBackLaw := by
  unfold Obligations.ReadBackLaw
  refine ⟨fun s p i hsrc hi => ?bit, fun s p hsrc hp => ?atEnd⟩
  case bit =>
    have hp : p.toNat ≤ s.src.length := by omega
    have hok : ReaderOk { s with brCur := 0#8, brRem := 0, srcPos := p, status := .ok } := ⟨hp, hsrc⟩
    have hbit : (readerBits { s with brCur := 0#8, brRem := 0, srcPos := p, status := .ok })[i]? =
        some (s.src[p.toNat + i / 8].getLsbD (7 - i % 8)) := by
      have hstream := streamBits_getElem? (s.src.drop p.toNat) (i / 8) (Nat.mod_lt i (by omega : 0 < 8))
      rw [Nat.div_add_mod, List.getElem?_drop, List.getElem?_eq_getElem hi] at hstream
      rw [readerBits_seek, hstream]
      rfl
    obtain ⟨t, u, ht, hu, hstatus, hres⟩ := brGet_after_brGets hok hbit
    exact ⟨t, u, _, (execAll_cons (exec_brSeek_inside hp)).trans ht, hu, hstatus, List.getElem?_eq_getElem hi, hres⟩
  case atEnd =>
    have hok : ReaderOk { s with brCur := 0#8, brRem := 0, srcPos := p, status := .ok } := ⟨hp, hsrc⟩
    have hlen : (readerBits { s with brCur := 0#8, brRem := 0, srcPos := p, status := .ok }).length =
        8 * (s.src.length - p.toNat) := by
      rw [readerBits_seek, streamBits_length, List.length_drop]
    obtain ⟨t, ht, hbits, htok⟩ := execAll_brGet hok hlen.ge
    rw [← hlen, List.drop_length] at hbits
    exact ⟨t, (execAll_cons (exec_brSeek_inside hp)).trans ht, exec_brGet_nil htok hbits⟩

/-! ### A codeword into the writer (44_canonical.md R225) -/

/-- The low bits of a value, index by index from the highest. -/
theorem map_range_getLsbD {w : Nat} (v : BitVec w) (k : Nat) :
    (List.range k).map (fun j => v.getLsbD (k - 1 - j)) = bitsDown v k := by
  apply List.ext_getElem?
  intro j
  by_cases hj : j < k
  · rw [List.getElem?_map, List.getElem?_range hj, bitsDown_getElem? v k j hj]
    rfl
  · rw [List.getElem?_eq_none (by simpa using hj), List.getElem?_eq_none (by simpa using hj)]

/-- The puts of a symbol's bits, index by index, are the puts of its codeword. -/
theorem map_range_codeword (s : State) (a : Symbol) (f : Bool → Instr) :
    (List.range (lenOf s a)).map (fun j => f ((codeOf s a).getLsbD (lenOf s a - 1 - j))) = (codeword s a).map f := by
  have hbits : (List.range (lenOf s a)).map (fun j => (codeOf s a).getLsbD (lenOf s a - 1 - j)) = codeword s a :=
    map_range_getLsbD _ _
  rw [← hbits, List.map_map]
  rfl

theorem codeword_ne_nil {s : State} {a : Symbol} (h : lenOf s a ≠ 0) : codeword s a ≠ [] := by
  intro hnil
  have hlen : (codeword s a).length = lenOf s a := codewordIn_length s.len s.code a
  rw [hnil] at hlen
  exact h hlen.symm

theorem exec_bwPutsym_unassigned {s : State} (a : Symbol) (h : s.ccValid = false) :
    exec (.bwPutsym a) s = .next { s with status := .seq } := by
  simp only [exec, execBwPutsym, if_pos h]
  rfl

theorem exec_bwPutsym_absent {s : State} {a : Symbol} (h : s.ccValid = true) (hlen : lenOf s a = 0) :
    exec (.bwPutsym a) s = .next { s with status := .noCode } := by
  simp only [exec, execBwPutsym, if_neg (Bool.ne_false_iff.mpr h), if_pos hlen]
  rfl

/-- The codeword of a present symbol enters the writer (44_canonical.md R225). -/
theorem exec_bwPutsym_present {s : State} {a : Symbol} (h : s.ccValid = true) (hlen : lenOf s a ≠ 0) :
    exec (.bwPutsym a) s = .next (endOk (bwPutAll s (codeword s a))) := by
  simp only [exec, execBwPutsym, if_neg (Bool.ne_false_iff.mpr h), if_neg hlen]

/-- Settles O26: a present symbol's command and the puts of its bits leave the same state. -/
theorem writerPutsACodeword : Obligations.WriterPutsACodeword := by
  unfold Obligations.WriterPutsACodeword
  refine fun a s => ⟨hasWord_arg (op := 0x23#8) rfl rfl rfl, exec_bwPutsym_unassigned a, exec_bwPutsym_absent,
    fun h hlen => ⟨_, exec_bwPutsym_present h hlen, ?puts, ?frame⟩⟩
  case puts =>
    rw [map_range_codeword s a .bwPut, execAll_bwPut, if_neg (codeword_ne_nil hlen)]
    rfl
  case frame =>
    obtain ⟨-, hwritten⟩ := bwPutAll_written s (codeword s a)
    rw [hwritten]

end Sys2Proof.Machine

/-! The in-memory buffer: a codeword put into it, what a flushed buffer holds, and the stitching law
(spec/42_bitstream.md section 4, spec/44_canonical.md R226). -/

namespace Sys2Proof.Machine

open Sys2Proof

/-! ### Puts into the buffer (42_bitstream.md R154) -/

/-- Each put takes one bit of the room. -/
theorem mbRoom_mbPut (s : State) (b : Bool) : mbRoom (mbPut s b) = mbRoom s - 1 := by
  by_cases h7 : s.mbCnt.val = 7
  · rw [mbPut_eighth b h7]
    simp only [mbRoom, List.length_append, List.length_singleton, Fin.val_zero]
    omega
  · rw [mbPut_pending b h7]
    simp only [mbRoom, fin8_succ_val s.mbCnt (fun he => h7 (congrArg Fin.val he))]
    omega

theorem mbPut_mbFlushed (s : State) (b : Bool) : (mbPut s b).mbFlushed = s.mbFlushed := by
  rw [mbPut_frame]

/-- The buffer neither reads nor writes `STATUS` (42_bitstream.md R154). -/
theorem mbPutAll_status (s : State) (bits : List Bool) (c : Code) :
    mbPutAll { s with status := c } bits = { mbPutAll s bits with status := c } := by
  induction bits generalizing s with
  | nil => rfl
  | cons b bits ih =>
    have hput : mbPut { s with status := c } b = { mbPut s b with status := c } := by
      unfold mbPut
      split
      · rfl
      · rfl
    calc mbPutAll { s with status := c } (b :: bits)
        = mbPutAll (mbPut { s with status := c } b) bits := rfl
      _ = { mbPutAll (mbPut s b) bits with status := c } := by rw [hput, ih]

/-- A sequence of `MB.PUT` that fits puts its bits, and its last command ends ok (42_bitstream.md R156). -/
theorem execAll_mbPut {s : State} (hf : s.mbFlushed = false) (bits : List Bool) (hroom : bits.length ≤ mbRoom s) :
    execAll (bits.map .mbPut) s =
      .next { mbPutAll s bits with status := if bits = [] then s.status else .ok } := by
  induction bits generalizing s with
  | nil => rfl
  | cons b bits ih =>
    rw [List.length_cons] at hroom
    have hone : 1 ≤ mbRoom s := by omega
    have hput : exec (.mbPut b) s = .next (endOk (mbPut s b)) := exec_mbPut_room b hf (by unfold mbRoom at hone; omega)
    have hrest : bits.length ≤ mbRoom (endOk (mbPut s b)) := by
      have hleft : mbRoom (endOk (mbPut s b)) = mbRoom s - 1 := mbRoom_mbPut s b
      omega
    have hstatus : (if bits = [] then (endOk (mbPut s b)).status else Code.ok) = .ok := ite_self _
    have hall : mbPutAll (endOk (mbPut s b)) bits = { mbPutAll s (b :: bits) with status := .ok } :=
      mbPutAll_status (mbPut s b) bits .ok
    rw [List.map_cons, execAll_cons hput, ih (s := endOk (mbPut s b)) ((mbPut_mbFlushed s b).trans hf) hrest, hstatus, hall]
    simp

theorem exec_mbPutsym_refused {s : State} (a : Symbol) (h : s.ccValid = false ∨ s.mbFlushed = true) :
    exec (.mbPutsym a) s = .next { s with status := .seq } := by
  simp only [exec, execMbPutsym, if_pos h]
  rfl

section
variable {s : State} {a : Symbol} (hvalid : s.ccValid = true) (hf : s.mbFlushed = false)
include hvalid hf

theorem mbPutsym_not_refused : ¬ (s.ccValid = false ∨ s.mbFlushed = true) := by
  simp [hvalid, hf]

theorem exec_mbPutsym_absent (hlen : lenOf s a = 0) : exec (.mbPutsym a) s = .next { s with status := .noCode } := by
  simp only [exec, execMbPutsym, if_neg (mbPutsym_not_refused hvalid hf), if_pos hlen]
  rfl

theorem exec_mbPutsym_full (hlen : lenOf s a ≠ 0) (hroom : mbRoom s < lenOf s a) :
    exec (.mbPutsym a) s = .next { s with status := .capacity } := by
  simp only [exec, execMbPutsym, if_neg (mbPutsym_not_refused hvalid hf), if_neg hlen, if_pos hroom]
  rfl

/-- The codeword of a present symbol enters the buffer where it fits (44_canonical.md R226). -/
theorem exec_mbPutsym_present (hlen : lenOf s a ≠ 0) (hroom : lenOf s a ≤ mbRoom s) :
    exec (.mbPutsym a) s = .next (endOk (mbPutAll s (codeword s a))) := by
  simp only [exec, execMbPutsym, if_neg (mbPutsym_not_refused hvalid hf), if_neg hlen, if_neg hroom.not_gt]

end

theorem codeword_length (s : State) (a : Symbol) : (codeword s a).length = lenOf s a := codewordIn_length _ _ _

/-- Settles O31: the refusals in order; else the command and the puts of the symbol's bits leave the same state. -/
theorem bufferPutsACodeword : Obligations.BufferPutsACodeword := by
  unfold Obligations.BufferPutsACodeword
  refine fun a s => ⟨hasWord_arg (op := 0x43#8) rfl rfl rfl, exec_mbPutsym_refused a, exec_mbPutsym_absent,
    fun hvalid hf hlen hfull => exec_mbPutsym_full hvalid hf hlen (by unfold mbRoom; omega),
    fun hvalid hf hlen hfits => ?present⟩
  have hroom : lenOf s a ≤ mbRoom s := by unfold mbRoom; omega
  refine ⟨_, exec_mbPutsym_present hvalid hf hlen hroom, ?puts, ?frame⟩
  case puts =>
    rw [map_range_codeword s a .mbPut, execAll_mbPut hf _ ((codeword_length s a).trans_le hroom),
      if_neg (codeword_ne_nil hlen)]
    rfl
  case frame => rw [mbPutAll_written]

/-! ### What a flushed buffer holds (42_bitstream.md R166) -/

/-- A flush keeps the bits put, and fills up the last byte (42_bitstream.md R157). -/
theorem exec_mbFlush_spec {s : State} (hok : BufferOk s) (hf : s.mbFlushed = false) : ∃ t,
    exec .mbFlush s = .next t ∧ replayBits t = bufferBits s ∧
    t.mbBytes.length = ((bufferBits s).length + 7) / 8 ∧
    t = { s with
      mbBytes := t.mbBytes, mbAcc := 0#8, mbCnt := 0, mbLvb := t.mbLvb, mbFlushed := true, status := .ok } := by
  have h8 := s.mbCnt.isLt
  rw [bufferBits_length]
  by_cases hcnt : 0 < s.mbCnt.val
  · refine ⟨_, exec_mbFlush_pending hf hcnt, ?_, ?_, rfl⟩
    · rw [replayBits_eq_heldBits]
      simp only [heldBits, Fin.val_castSucc]
      rw [validBits_append_last, ← leftJustify_eq_ofNat, bitsDown_leftJustify,
        List.take_left' (bitsDown_length _ _)]
      rfl
    · simp only [List.length_append, List.length_singleton]
      omega
  · have h0 : s.mbCnt.val = 0 := Nat.eq_zero_of_not_pos hcnt
    have hzero : s.mbCnt = 0 := Fin.ext h0
    have hacc : s.mbAcc = 0#8 := by
      have hlt := hok.acc
      rw [h0] at hlt
      exact BitVec.eq_of_toNat_eq (Nat.lt_one_iff.mp hlt)
    refine ⟨_, exec_mbFlush_boundary hf h0, ?_, by simp only; omega, by rw [← hacc, ← hzero]⟩
    have hbits : bufferBits s = streamBits s.mbBytes := by simp [bufferBits, h0]
    rw [replayBits_eq_heldBits, hbits]
    by_cases hempty : s.mbBytes = []
    · simp [heldBits, hempty, validBits]
    · simpa [heldBits, hempty] using validBits_full s.mbBytes

/-- The bits a command puts into the buffer depend on the code table alone. -/
theorem bufferedBits_congr {s t : State} (hvalid : t.ccValid = s.ccValid) (hlen : t.len = s.len)
    (hcode : t.code = s.code) : bufferedBits t = bufferedBits s := by
  funext i
  cases i
  case mbPutsym a =>
    have hlenOf : lenOf t a = lenOf s a := by rw [lenOf, hlen, lenOf]
    have hword : codeword t a = codeword s a := by rw [codeword, hlen, hcode, codeword]
    rw [bufferedBits, bufferedBits, hvalid, hlenOf, hword]
  all_goals rfl

/-- A command that puts bits into an unflushed buffer puts them where they fit (42_bitstream.md R156, 44_canonical.md
R226). -/
theorem exec_of_bufferedBits {s : State} {i : Instr} {bits : List Bool} (hi : bufferedBits s i = some bits)
    (hf : s.mbFlushed = false) (hroom : bits.length ≤ mbRoom s) : exec i s = .next (endOk (mbPutAll s bits)) := by
  cases i
  case mbPut b =>
    cases hi
    exact exec_mbPut_room b hf (by simp only [List.length_singleton] at hroom; unfold mbRoom at hroom; omega)
  case mbPutsym a =>
    simp only [bufferedBits, Option.ite_none_right_eq_some, Bool.and_eq_true, bne_iff_ne] at hi
    obtain ⟨⟨hvalid, hlen⟩, hbits⟩ := hi
    cases hbits
    exact exec_mbPutsym_present hvalid hf hlen ((codeword_length s a).symm.trans_le hroom)
  all_goals cases hi

/-- A sequence of such commands whose bits fit puts all their bits. -/
theorem execAll_of_bufferedBits {s : State} {puts : List Instr} {bits : List (List Bool)}
    (hputs : puts.mapM (bufferedBits s) = some bits) (hstatus : s.status = .ok) (hf : s.mbFlushed = false)
    (hok : BufferOk s) (hroom : bits.flatten.length ≤ mbRoom s) :
    execAll puts s = .next (mbPutAll s bits.flatten) := by
  induction puts generalizing s bits with
  | nil =>
    cases hputs
    rfl
  | cons i puts ih =>
    simp only [List.mapM_cons, Option.bind_eq_bind, Option.bind_eq_some_iff, Option.pure_def, Option.some.injEq] at hputs
    obtain ⟨b, hb, bs, hbs, rfl⟩ := hputs
    rw [List.flatten_cons, List.length_append] at hroom
    obtain ⟨hbits, hframe, hkeeps⟩ := mbPutAll_spec b s
    have hb' : b.length ≤ mbRoom s := by omega
    have hput := exec_of_bufferedBits hb hf hb'
    have hend : endOk (mbPutAll s b) = mbPutAll s b := by
      rw [endOk, ← hstatus]
      have hsame : (mbPutAll s b).status = s.status := by rw [hframe]
      rw [← hsame]
    have hok' := hkeeps hok hf hb'
    have hfields : (mbPutAll s b).ccValid = s.ccValid ∧ (mbPutAll s b).len = s.len ∧ (mbPutAll s b).code = s.code ∧
        (mbPutAll s b).status = s.status ∧ (mbPutAll s b).mbFlushed = s.mbFlushed ∧
        (mbPutAll s b).mbCap = s.mbCap := by
      and_intros <;> rw [hframe]
    obtain ⟨hcc, hlen, hcode, hst, hfl, hcap⟩ := hfields
    rw [execAll_cons hput, hend, List.flatten_cons, mbPutAll_append]
    refine ih (by rw [bufferedBits_congr hcc hlen hcode]; exact hbs) (hst.trans hstatus) (hfl.trans hf) hok' ?_
    rw [mbRoom_eq hok.bytes] at hroom
    rw [mbRoom_eq hok'.bytes, hbits, hcap, List.length_append]
    omega

/-- The buffer after `MB.RST` is empty and has its whole capacity (42_bitstream.md R155). -/
theorem bufferOk_empty (s : State) : BufferOk { s with
    mbBytes := [], mbAcc := 0#8, mbCnt := 0, mbLvb := 0, mbFlushed := false, status := .ok } := by
  constructor <;> simp

/-- From `MB.RST` to `MB.FLUSH`: the buffer then stands for the bits put into it (42_bitstream.md R166). -/
theorem execAll_buffered {s : State} {puts : List Instr} {bits : List (List Bool)}
    (hputs : puts.mapM (bufferedBits s) = some bits) (hfits : bits.flatten.length ≤ 8 * s.mbCap) : ∃ t,
    execAll (.mbRst :: puts ++ [.mbFlush]) s = .next t ∧ replayBits t = bits.flatten ∧
    t.mbBytes.length = (bits.flatten.length + 7) / 8 ∧
    t = { s with
      mbBytes := t.mbBytes, mbAcc := 0#8, mbCnt := 0, mbLvb := t.mbLvb, mbFlushed := true, status := .ok } := by
  obtain ⟨hbits, hframe, hkeeps⟩ := mbPutAll_spec bits.flatten { s with
    mbBytes := [], mbAcc := 0#8, mbCnt := 0, mbLvb := 0, mbFlushed := false, status := .ok }
  have hroom : bits.flatten.length ≤ mbRoom { s with
      mbBytes := [], mbAcc := 0#8, mbCnt := 0, mbLvb := 0, mbFlushed := false, status := .ok } := by
    simpa [mbRoom] using hfits
  have hall := execAll_of_bufferedBits (s := { s with
    mbBytes := [], mbAcc := 0#8, mbCnt := 0, mbLvb := 0, mbFlushed := false, status := .ok })
    hputs rfl rfl (bufferOk_empty s) hroom
  generalize hu : mbPutAll { s with
    mbBytes := [], mbAcc := 0#8, mbCnt := 0, mbLvb := 0, mbFlushed := false, status := .ok } bits.flatten = u at *
  have hflushed : u.mbFlushed = false := by rw [hframe]
  obtain ⟨t, ht, hreplay, hlen, hfr⟩ := exec_mbFlush_spec (hkeeps (bufferOk_empty s) rfl hroom) hflushed
  have hwhole : bufferBits u = bits.flatten := by simpa [bufferBits] using hbits
  rw [hwhole] at hreplay hlen
  refine ⟨t, (execAll_append ((execAll_cons (exec_mbRst s)).trans hall)).trans (execAll_singleton ht), hreplay, hlen, ?_⟩
  rw [hframe] at hfr
  exact hfr

/-- Settles O34: the puts fill the buffer with their bits, and the flush keeps them. -/
theorem flushedBufferHoldsItsBits : Obligations.FlushedBufferHoldsItsBits := by
  unfold Obligations.FlushedBufferHoldsItsBits
  intro s puts bits hputs hfits
  obtain ⟨t, ht, hreplay, hlen, hframe⟩ := execAll_buffered hputs hfits
  exact ⟨t, ht, by rw [hframe], hreplay, hlen, hframe⟩

/-! ### The stitching law (42_bitstream.md R168) -/

/-- One chunk, encoded into the buffer and replayed, puts its bits into the writer and leaves the code table, the
capacity and `BW_PAD` (70_reset_and_hazards.md R352). -/
theorem execAll_chunk {s : State} {puts : List Instr} {bits : List (List Bool)}
    (hputs : puts.mapM (bufferedBits s) = some bits) (hfits : bits.flatten.length ≤ 8 * s.mbCap) : ∃ t,
    execAll (chunkSequence puts) s = .next t ∧ writerBits t = writerBits s ++ bits.flatten ∧
    bufferedBits t = bufferedBits s ∧ t.mbCap = s.mbCap := by
  obtain ⟨u, hu, hreplay, -, hframe⟩ := execAll_buffered hputs hfits
  have hflushed : u.mbFlushed = true := by rw [hframe]
  obtain ⟨hbits, hput, -, -⟩ := bwPutAll_spec u (replayBits u)
  have hstart : writerBits u = writerBits s := by
    rw [hframe]
    rfl
  have hfields : (bwPutAll u (replayBits u)).ccValid = s.ccValid ∧ (bwPutAll u (replayBits u)).len = s.len ∧
      (bwPutAll u (replayBits u)).code = s.code ∧ (bwPutAll u (replayBits u)).mbCap = s.mbCap := by
    rw [hput]
    and_intros <;> rw [hframe]
  obtain ⟨hcc, hlen, hcode, hcap⟩ := hfields
  refine ⟨_, (execAll_append hu).trans (execAll_singleton (exec_mbReplay_flushed hflushed)), ?_,
    bufferedBits_congr hcc hlen hcode, hcap⟩
  rw [← hreplay, ← hstart]
  exact hbits

/-- Chunks one after another put their bits into the one writer. -/
theorem execAll_chunks {s : State} {chunks : List (List Instr)} {bits : List (List (List Bool))}
    (hchunks : chunks.mapM (fun puts => puts.mapM (bufferedBits s)) = some bits)
    (hfits : ∀ b ∈ bits, b.flatten.length ≤ 8 * s.mbCap) : ∃ t,
    execAll (chunks.flatMap chunkSequence) s = .next t ∧ writerBits t = writerBits s ++ bits.flatten.flatten := by
  induction chunks generalizing s bits with
  | nil =>
    cases hchunks
    exact ⟨s, rfl, by simp⟩
  | cons puts chunks ih =>
    simp only [List.mapM_cons, Option.bind_eq_bind, Option.bind_eq_some_iff, Option.pure_def, Option.some.injEq] at hchunks
    obtain ⟨b, hb, bs, hbs, rfl⟩ := hchunks
    obtain ⟨u, hu, hwritten, hcodes, hcap⟩ := execAll_chunk hb (hfits b (List.mem_cons_self ..))
    rw [← hcodes] at hbs
    obtain ⟨t, ht, hrest⟩ := ih hbs (fun c hc => hcap ▸ hfits c (List.mem_cons_of_mem b hc))
    refine ⟨t, ?_, ?_⟩
    · rw [List.flatMap_cons, execAll_append hu, ht]
    · rw [hrest, hwritten, List.flatten_cons, List.flatten_append, List.append_assoc]

/-- Settles O35: both writers hold the same bits when they are flushed. -/
theorem stitchingLaw : Obligations.StitchingLaw := by
  unfold Obligations.StitchingLaw
  intro s chunks bits hchunks hfits
  obtain ⟨v, hv, hwritten⟩ := execAll_chunks (s := { s with bwAcc := 0#8, bwCnt := 0, bwPad := 0, status := .ok })
    hchunks hfits
  have hstart : writerBits { s with bwAcc := 0#8, bwCnt := 0, bwPad := 0, status := .ok } = streamBits s.sink := by
    simp [writerBits]
  obtain ⟨t, ht, -, hstream, hpad, -⟩ := exec_bwFlush_spec v
  obtain ⟨u, hu, -, hdirect, hdirectPad, -⟩ := execAll_packed s bits.flatten.flatten
  rw [hwritten, hstart] at hstream hpad
  have hsame : t.bwPad = u.bwPad := by
    apply Fin.ext
    rw [hpad, hdirectPad, List.length_append, streamBits_length, Nat.mul_add_mod]
  refine ⟨t, u, (execAll_append ((execAll_cons (exec_bwRst s)).trans hv)).trans (execAll_singleton ht), hu, ?_, hsame⟩
  exact streamBits_injective (by rw [hstream, hdirect, hsame])

end Sys2Proof.Machine

/-! The read port (spec/10_state.md R46 to R51). -/

namespace Sys2Proof.Machine

open Sys2Proof

theorem readCsrLow_ne_none_iff (s : State) (n : Nat) : readCsrLow s n ≠ none ↔
    n ∈ [0x00, 0x01, 0x02, 0x03, 0x04, 0x10, 0x20, 0x21, 0x22, 0x23, 0x30, 0x31, 0x32, 0x33] := by
  unfold readCsrLow
  split
  case h_15 => simp_all
  all_goals simp

theorem readCsrHigh_ne_none_iff (s : State) (n : Nat) : readCsrHigh s n ≠ none ↔
    n ∈ [0x40, 0x41, 0x42, 0x43, 0x50, 0x51, 0x52, 0x60, 0x70, 0x71, 0x72, 0x73, 0x74, 0x75, 0x76] := by
  unfold readCsrHigh
  split
  case h_16 => simp_all
  all_goals simp

/-- The numbers of the registers, and no others, can be read (10_state.md R50). -/
theorem readCsr_ne_none_iff (s : State) (n : Nat) : readCsr s n ≠ none ↔
    n ∈ [0x00, 0x01, 0x02, 0x03, 0x04, 0x10, 0x20, 0x21, 0x22, 0x23, 0x30, 0x31, 0x32, 0x33, 0x40, 0x41, 0x42, 0x43,
      0x50, 0x51, 0x52, 0x60, 0x70, 0x71, 0x72, 0x73, 0x74, 0x75, 0x76] := by
  unfold readCsr
  split
  · rw [readCsrLow_ne_none_iff]
    simp only [List.mem_cons, List.not_mem_nil, or_false]
    omega
  · rw [readCsrHigh_ne_none_iff]
    simp only [List.mem_cons, List.not_mem_nil, or_false]
    omega

theorem readTable_ne_none_iff {w : Nat} (t : Table (BitVec w)) (i : Nat) : readTable t i ≠ none ↔ i < 256 := by
  unfold readTable
  split
  case isTrue h => simp [h]
  case isFalse h => simp [h]

/-- The element of a table under a symbol's value. -/
theorem readTable_symbol {w : Nat} (t : Table (BitVec w)) (a : Symbol) :
    readTable t a.toNat = some (.bits w (tblGet t a).toNat) := by
  unfold readTable
  exact dif_pos a.isLt

/-- A list can be read at the places it has. -/
theorem map_getElem?_ne_none_iff {α β : Type} (f : α → β) (l : List α) (n : Nat) :
    (l[n]?).map f ≠ none ↔ n < l.length := by
  simp

/-- Settles O58: the registers by their numbers, and the tables by their elements. -/
theorem readPortShowsTheRegisters : Obligations.ReadPortShowsTheRegisters := by
  unfold Obligations.ReadPortShowsTheRegisters
  refine fun s => ⟨?units0to2, ?units3to4, ⟨?noRoot, ?root, ?units5to7⟩, readCsr_ne_none_iff s, fun n => ?slots,
    fun a => ⟨readTable_symbol s.len a, readTable_symbol s.code a⟩⟩
  case units0to2 => and_intros <;> rfl
  case units3to4 => and_intros <;> rfl
  case noRoot => exact fun h => congrArg (fun r => some (indexElement 9 r)) h
  case root => exact fun r h => congrArg (fun r => some (indexElement 9 r)) h
  case units5to7 => and_intros <;> rfl
  case slots =>
    exact ⟨map_getElem?_ne_none_iff _ _ n, map_getElem?_ne_none_iff _ _ n, readTable_ne_none_iff s.freq n,
      map_getElem?_ne_none_iff _ _ n, map_getElem?_ne_none_iff _ _ n, map_getElem?_ne_none_iff _ _ n⟩

end Sys2Proof.Machine

/-! The tree over two or more symbols: its shape, and which two nodes each internal node joins
(spec/43_tree_builder.md R188 to R190, R196). -/

namespace Sys2Proof.Machine

open Sys2Proof

/-! ### The turn that made a node -/

/-- A node at or after the leaves was made in a turn: it joins the two least members of the queue that stood over the
nodes before it (43_tree_builder.md R188, R190). -/
theorem joinLoop_node {syms : List Symbol} {total : Nat} (ht : total < 2 ^ 64) (turns : Nat) (arena : List HtNode)
    (q : List QEntry) (hj : Joining arena q syms total) {k : Nat} {nd : HtNode} (hk : arena.length ≤ k)
    (hnd : (joinLoop turns arena q)[k]? = some nd) : ∃ (p r : List QEntry) (a b : QEntry),
    Joining ((joinLoop turns arena q).take k) p syms total ∧ (a :: b :: r).Perm p ∧ nd = joinNode a b ∧
    (∀ y ∈ a :: b :: r, nodeBefore y a = false) ∧ ∀ y ∈ b :: r, nodeBefore y b = false := by
  induction turns, arena, q using joinLoop.induct with
  | case1 | case2 =>
    have hlt := (List.getElem?_eq_some_iff.mp hnd).1
    rw [joinLoop] at hlt
    omega
  | case3 turns arena x q a hpop =>
    have hlt := (List.getElem?_eq_some_iff.mp hnd).1
    simp only [joinLoop, hpop] at hlt
    omega
  | case4 turns arena x q a y r hpop node ih =>
    have hfirst := popMin_perm x q
    have hleast := popMin_least x q
    rw [hpop] at hfirst hleast
    have hsecond := (popMin_perm y r).cons a
    have hboth := hsecond.trans hfirst
    have hnext := joining_step ht hj hboth
    have hturn : joinLoop (turns + 1) arena (x :: q) =
        joinLoop turns (arena ++ [node]) ((popMin y r).2 ++ [⟨arena.length, node⟩]) := by
      simp only [joinLoop, hpop]
      rfl
    rw [hturn] at hnd ⊢
    rcases Nat.eq_or_lt_of_le hk with rfl | hlater
    · have hpre := prefix_joinLoop turns (arena ++ [node]) ((popMin y r).2 ++ [⟨arena.length, node⟩])
      have harena := List.prefix_iff_eq_take.mp ((List.prefix_append arena [node]).trans hpre)
      have hthis : node = nd := by
        have hget := List.prefix_iff_getElem?.mp hpre arena.length (by simp)
        rw [hnd] at hget
        simpa using hget.symm
      exact ⟨x :: q, (popMin y r).2, a, (popMin y r).1, harena ▸ hj, hboth, hthis.symm,
        fun z hz => hleast z (hboth.mem_iff.mp hz),
        fun z hz => popMin_least y r z ((popMin_perm y r).mem_iff.mp hz)⟩
    · exact ih hnext (by simpa using hlater) hnd

section
variable {freq : Table Word64} (hfit : totalFreq freq < 2 ^ 64) (hmany : 2 ≤ (presentByFreq freq).length)
include hmany

/-- The arena of a build over two or more symbols is the loop's. -/
theorem buildTree_arena : (buildTree freq).1 = joinLoop ((presentByFreq freq).map (leafNode freq)).length
    ((presentByFreq freq).map (leafNode freq)) (leafQueue ((presentByFreq freq).map (leafNode freq))) := by
  unfold buildTree
  split
  next hnone => simp [hnone] at hmany
  next hone => simp [hone] at hmany
  next hp => rw [hp]

/-- A node before the first join is the leaf of the present symbol of its place (43_tree_builder.md R188). -/
theorem buildTree_leaf {i : Nat} (hi : i < (presentByFreq freq).length) :
    (buildTree freq).1[i]? = some (leafNode freq (presentByFreq freq)[i]) := by
  rw [List.prefix_iff_getElem?.mp (leaves_prefix_buildTree hmany) i (by simpa using hi), List.getElem_map]

include hfit

/-- Every later node joins the two least members of the queue of its turn (43_tree_builder.md R190). -/
theorem buildTree_join {k : Nat} {nd : HtNode} (hk : (presentByFreq freq).length ≤ k)
    (hnd : (buildTree freq).1[k]? = some nd) : ∃ (p r : List QEntry) (a b : QEntry),
    Joining ((buildTree freq).1.take k) p (presentByFreq freq) (totalFreq freq) ∧ (a :: b :: r).Perm p ∧
    nd = joinNode a b ∧ (∀ y ∈ a :: b :: r, nodeBefore y a = false) ∧ ∀ y ∈ b :: r, nodeBefore y b = false := by
  rw [buildTree_arena hmany] at hnd ⊢
  exact joinLoop_node hfit _ _ _ (joining_leaves freq) (by simpa using hk) hnd

/-- The leaves of a built tree are its first nodes, and no other. -/
theorem buildTree_node_cases {i : Nat} {nd : HtNode} (hnd : (buildTree freq).1[i]? = some nd) :
    (∃ h : i < (presentByFreq freq).length, nd = leafNode freq (presentByFreq freq)[i]) ∨
    ((presentByFreq freq).length ≤ i ∧ nd.sym = .internal) := by
  rcases Nat.lt_or_ge i (presentByFreq freq).length with hi | hi
  · exact .inl ⟨hi, Option.some.inj (hnd.symm.trans (buildTree_leaf hmany hi))⟩
  · obtain ⟨-, -, a, b, -, -, rfl, -⟩ := buildTree_join hfit hmany hi hnd
    exact .inr ⟨hi, rfl⟩

end

/-! ### The shape of the tree (43_tree_builder.md R196) -/

/-- Settles O39: the leaves are the first nodes, and the others are joined by the loop's invariant. -/
theorem treeShape : Obligations.TreeShape := by
  unfold Obligations.TreeShape
  intro s t hfit hmany ht
  rw [exec_htBuild_fits hfit] at ht
  cases ht
  obtain ⟨arena, root, l, hbuild, hlen, -, -, hroot, -, htotal, hnodes, hparents⟩ := buildTree_spec hfit hmany
  have hcases := fun i nd => buildTree_node_cases (i := i) (nd := nd) hfit hmany
  obtain ⟨lens, -, -, -, hleaves⟩ := extractLengths_leaves hfit
  obtain ⟨hdepth, habsent⟩ := hleaves (arena.length - 1) (by rw [hbuild])
  have hpresent := fun a d => present_of_leafBelow (a := a) (d := d) hfit (r := arena.length - 1) (by rw [hbuild])
  have hle := presentByFreq_length_le s.freq
  simp only [hbuild] at hcases hdepth habsent hpresent ⊢
  refine ⟨by omega, fun i nd hnd => ?node, fun i hi => ?child, arena.length - 1, root, rfl, by omega, hroot, htotal,
    ?rootless, fun a => ⟨⟨?below, ?present⟩, fun d d' h h' => ?depth⟩⟩
  case node =>
    have hok := hnodes i nd hnd
    rcases hcases i nd hnd with ⟨hi, rfl⟩ | ⟨-, hsym⟩
    · exact .inl ⟨_, rfl, mem_presentByFreq.mp (List.getElem_mem hi), rfl, rfl, rfl⟩
    · rw [NodeOk, hsym] at hok
      obtain ⟨a, b, na, nb, hok⟩ := hok
      exact .inr ⟨a, b, na, nb, hsym, hok⟩
  case child => rw [hparents i (by omega), if_neg (by omega)]
  case rootless => rw [hparents _ (by omega), if_pos rfl]
  case below =>
    intro ha
    by_contra hno
    exact ha (habsent a (not_exists.mp hno))
  case present => exact fun ⟨d, h⟩ => hpresent a d h
  case depth =>
    obtain ⟨hd, hpos⟩ := hdepth a d h
    obtain ⟨hd', -⟩ := hdepth a d' h'
    have hbyte := (tblGet lens a).isLt
    omega

/-! ### Which two nodes a join takes (43_tree_builder.md R189, R190) -/

/-- The queue's order, on nodes and their indices. -/
theorem nodeBefore_iff_before (x y : QEntry) : nodeBefore x y = true ↔ Before x.index y.index x.node y.node :=
  nodeBefore_iff x y

/-- A node is alive when the arena so far holds no parent of it. -/
theorem alive_iff_countP {arena : List HtNode} {k i : Nat} :
    Alive arena k i ↔ i < k ∧ (arena.take k).countP (isParentOf i) = 0 := by
  rw [Alive, List.countP_eq_zero]
  refine and_congr_right fun _ => ⟨fun h nd hnd => ?_, fun h j nd hj hnd => ?_⟩
  · obtain ⟨j, hj⟩ := List.mem_iff_getElem?.mp hnd
    have hjk : j < k := by
      have hlt := (List.getElem?_eq_some_iff.mp hj).1
      rw [List.length_take] at hlt
      omega
    rw [List.getElem?_take_of_lt hjk] at hj
    simp [h j nd hjk hj]
  · rw [← List.getElem?_take_of_lt hj] at hnd
    simpa using h nd (List.mem_of_getElem? hnd)

/-- The nodes alive when a node is made are the members of the queue (43_tree_builder.md R188). -/
theorem Joining.alive_iff {arena : List HtNode} {k : Nat} {p : List QEntry} {syms : List Symbol} {total : Nat}
    (hj : Joining (arena.take k) p syms total) (hk : k ≤ arena.length) {i : Nat} :
    Alive arena k i ↔ ∃ e ∈ p, e.index = i := by
  have hlen : (arena.take k).length = k := List.length_take_of_le hk
  rw [alive_iff_countP]
  constructor
  · rintro ⟨hi, hcount⟩
    rw [hj.parents i (hlen.symm ▸ hi)] at hcount
    by_contra hno
    rw [if_neg (by simpa using hno)] at hcount
    cases hcount
  · rintro ⟨e, he, rfl⟩
    have hi := (List.getElem?_eq_some_iff.mp (hj.index_lt he)).1
    exact ⟨hlen ▸ hi, by rw [hj.parents _ hi, if_pos (List.mem_map_of_mem he)]⟩

/-- In a built tree the order of the queue is that of frequency, then index (43_tree_builder.md R189). -/
theorem before_iff_buildTree {freq : Table Word64} (hfit : totalFreq freq < 2 ^ 64)
    (hmany : 2 ≤ (presentByFreq freq).length) {i j : Nat} {x y : HtNode} (hij : i ≠ j)
    (hx : (buildTree freq).1[i]? = some x) (hy : (buildTree freq).1[j]? = some y) :
    Before i j x y ↔ x.freq.toNat < y.freq.toNat ∨ (x.freq = y.freq ∧ i < j) := by
  unfold Before
  refine or_congr_right (and_congr_right fun _ => ?_)
  have hsorted := List.pairwise_iff_getElem.mp (presentByFreq_sorted freq)
  rcases buildTree_node_cases hfit hmany hx with ⟨hi, rfl⟩ | ⟨hi, hxs⟩ <;>
    rcases buildTree_node_cases hfit hmany hy with ⟨hj, rfl⟩ | ⟨hj, hys⟩
  · simp only [leafNode]
    refine ⟨fun hlt => ?_, fun hlt => hsorted i j hi hj hlt⟩
    by_contra hge
    have := hsorted j i hj hi (by omega)
    omega
  · simp only [leafNode, hys, true_iff]
    omega
  · simp only [leafNode, hxs, false_iff]
    omega
  · simp only [hxs, hys]

/-- Settles O40: the queue of the turn that made the node holds the nodes then alive, and `popMin` takes its least. -/
theorem buildJoinsTheLeastTwo : Obligations.BuildJoinsTheLeastTwo := by
  unfold Obligations.BuildJoinsTheLeastTwo
  intro s t hfit hmany ht
  rw [exec_htBuild_fits hfit] at ht
  cases ht
  have hbefore : ∀ {i j : Nat} {x y : HtNode}, i ≠ j → (buildTree s.freq).1[i]? = some x →
      (buildTree s.freq).1[j]? = some y →
      (Before i j x y ↔ x.freq.toNat < y.freq.toNat ∨ (x.freq = y.freq ∧ i < j)) :=
    before_iff_buildTree hfit hmany
  refine ⟨fun i j x y => hbefore, fun k nd hk hnd => ?_⟩
  obtain ⟨p, r, a, b, hj, hperm, rfl, hleastA, hleastB⟩ := buildTree_join hfit hmany hk hnd
  have hkl := (List.getElem?_eq_some_iff.mp hnd).1.le
  have hget : ∀ e ∈ p, (buildTree s.freq).1[e.index]? = some e.node := fun e he => by
    have hin := hj.index_lt he
    rwa [List.getElem?_take_of_lt (by
      have hlt := (List.getElem?_eq_some_iff.mp hin).1
      rw [List.length_take] at hlt
      omega)] at hin
  -- of two members of the queue, one that is not after the other is before it
  have hfirst : ∀ x ∈ p, ∀ y ∈ p, x.index ≠ y.index → nodeBefore y x = false →
      Before x.index y.index x.node y.node := fun x hx y hy hne hnot => by
    rw [Bool.eq_false_iff, Ne, nodeBefore_iff_before, hbefore hne.symm (hget y hy) (hget x hx)] at hnot
    rw [hbefore hne (hget x hx) (hget y hy), ← BitVec.toNat_inj]
    rw [← BitVec.toNat_inj] at hnot
    omega
  have ha : a ∈ p := hperm.mem_iff.mp (by simp)
  have hb : b ∈ p := hperm.mem_iff.mp (by simp)
  have hne : a.index ≠ b.index := by
    have hnodup := ((hperm.map QEntry.index).nodup_iff).mpr hj.distinct
    simp only [List.map_cons, List.nodup_cons, List.mem_cons, not_or] at hnodup
    exact hnodup.1.1
  refine ⟨a.index, b.index, a.node, b.node, rfl, rfl, hne, (hj.alive_iff hkl).mpr ⟨a, ha, rfl⟩,
    (hj.alive_iff hkl).mpr ⟨b, hb, rfl⟩, hget a ha, hget b hb, hfirst a ha b hb hne (hleastA b (by simp)),
    fun i ni halive hni hia hib => ?_⟩
  obtain ⟨e, he, rfl⟩ := (hj.alive_iff hkl).mp halive
  obtain rfl : e.node = ni := Option.some.inj ((hget e he).symm.trans hni)
  have hrest : e ∈ a :: b :: r := hperm.mem_iff.mpr he
  have hlater : e ∈ b :: r := (List.mem_cons.mp hrest).resolve_left (fun h => hia (congrArg QEntry.index h))
  exact ⟨hfirst a ha e he hia.symm (hleastA e hrest), hfirst b hb e he hib.symm (hleastB e hlater)⟩

end Sys2Proof.Machine

/-! The Kraft sum of extracted lengths, the canonical codes, and that no codeword begins another (spec/44_canonical.md
R214, R220 to R224). -/

namespace Sys2Proof.Machine

open Sys2Proof

/-! ### `CC.ASSIGN` (44_canonical.md R220) -/

theorem exec_ccAssign_overSubscribed {s : State} (h : 2 ^ 255 < kraft s.len) : exec .ccAssign s = .next { s with
    code := tblFill 0#255, ccNSym := (canonOrder s.len).length, ccValid := false, trValid := false
    status := .badLen, fault := latched s .badLen } := by
  simp only [exec, execCcAssign, (assignCodes_none_iff s.len).mpr h]
  rfl

theorem exec_ccAssign_assigned {s : State} {c : Table CodeValue} (h : assignCodes s.len = some c) :
    exec .ccAssign s = .next { s with
      code := c, ccNSym := (canonOrder s.len).length, ccValid := true, trValid := false, status := .ok } := by
  simp only [exec, execCcAssign, h]
  rfl

/-- A length table whose Kraft sum is at most 1 has codes (44_canonical.md R223). -/
theorem assignCodes_of_kraft_le {len : Table Byte} (h : kraft len ≤ 2 ^ 255) : ∃ c, assignCodes len = some c := by
  obtain ⟨hnone, hover⟩ | ⟨c, hc, -⟩ := assignCodes_spec len
  · omega
  · exact ⟨c, hc⟩

/-- Each code, justified to 255 bits, is the Kraft sum of the symbols before its own (44_canonical.md R223). -/
theorem code_mul_share {len : Table Byte} {c : Table CodeValue} (h : assignCodes len = some c) {xs ys : List Symbol}
    {a : Symbol} (ho : canonOrder len = xs ++ a :: ys) : (tblGet c a).toNat * share len a = shares len xs := by
  obtain ⟨hnone, -⟩ | ⟨c', hc, -, -, hcodes⟩ := assignCodes_spec len
  · rw [hnone] at h
    cases h
  · obtain rfl : c = c' := Option.some.inj (h.symm.trans hc)
    exact (hcodes xs a ys ho).1

theorem code_absent {len : Table Byte} {c : Table CodeValue} (h : assignCodes len = some c) {a : Symbol}
    (ha : (tblGet len a).toNat = 0) : tblGet c a = 0#255 := by
  apply BitVec.eq_of_toNat_eq
  have hfits := assignCodes_fits h a
  rw [ha] at hfits
  exact Nat.lt_one_iff.mp hfits

/-- The canonical order as a strict one: length, then value (44_canonical.md R220). -/
def CanonLt (len : Table Byte) (a b : Symbol) : Prop :=
  (tblGet len a).toNat < (tblGet len b).toNat ∨ ((tblGet len a).toNat = (tblGet len b).toNat ∧ a.toNat < b.toNat)

theorem canonOrder_strict (len : Table Byte) : (canonOrder len).Pairwise (CanonLt len) := by
  refine (canonOrder_sorted len).imp₂ (fun a b hab hne => ?_) (canonOrder_nodup len)
  rw [canonBefore_iff] at hab
  have hvalue : a.toNat ≠ b.toNat := fun h => hne (BitVec.eq_of_toNat_eq h)
  unfold CanonLt
  omega

/-- A symbol splits the canonical order into the symbols before it and those after. -/
theorem canonOrder_split {len : Table Byte} {xs ys : List Symbol} {a : Symbol} (ho : canonOrder len = xs ++ a :: ys) :
    (∀ b ∈ xs, CanonLt len b a) ∧ ∀ b ∈ ys, CanonLt len a b := by
  have hsorted := canonOrder_strict len
  rw [ho, List.pairwise_append, List.pairwise_cons] at hsorted
  obtain ⟨-, ⟨hafter, -⟩, hbefore⟩ := hsorted
  exact ⟨fun b hb => hbefore b hb a (List.mem_cons_self ..), hafter⟩

/-- The share of a symbol against that of a longer one: the shift of the recurrence (44_canonical.md R220). -/
theorem share_eq_mul_share {len : Table Byte} {a b : Symbol} (h : (tblGet len a).toNat ≤ (tblGet len b).toNat) :
    share len a = 2 ^ ((tblGet len b).toNat - (tblGet len a).toNat) * share len b := by
  have hle := lenNat_le len b
  rw [share, share, ← pow_add]
  congr 1
  omega

/-- The first code is 0 (44_canonical.md R220). -/
theorem code_head {len : Table Byte} {c : Table CodeValue} (h : assignCodes len = some c) {a : Symbol}
    (ha : (canonOrder len).head? = some a) : tblGet c a = 0#255 := by
  obtain ⟨ys, ho⟩ := List.head?_eq_some_iff.mp ha
  have hcode := code_mul_share h (xs := []) ho
  rw [shares_nil, Nat.mul_eq_zero] at hcode
  have hpos := share_pos len a
  exact BitVec.eq_of_toNat_eq (hcode.resolve_right (by omega))

/-- Each next code is the code before plus one, shifted left by the increase of the length (44_canonical.md R220). -/
theorem code_next {len : Table Byte} {c : Table CodeValue} (h : assignCodes len = some c) {xs ys : List Symbol}
    {a b : Symbol} (ho : canonOrder len = xs ++ a :: b :: ys) : (tblGet c b).toNat =
      ((tblGet c a).toNat + 1) * 2 ^ ((tblGet len b).toNat - (tblGet len a).toNat) := by
  have hle : (tblGet len a).toNat ≤ (tblGet len b).toNat := by
    have hab := (canonOrder_split ho).2 b (List.mem_cons_self ..)
    unfold CanonLt at hab
    omega
  have hb : (tblGet c b).toNat * share len b = shares len (xs ++ [a]) :=
    code_mul_share h (ys := ys) (by rw [ho, List.append_assoc]; rfl)
  refine Nat.eq_of_mul_eq_mul_right (share_pos len b) ?_
  calc (tblGet c b).toNat * share len b
      = (tblGet c a).toNat * share len a + share len a := by
        rw [hb, shares_append, code_mul_share h ho, shares_cons, shares_nil, Nat.add_zero]
    _ = ((tblGet c a).toNat + 1) * share len a := by ring
    _ = _ := by rw [share_eq_mul_share hle, ← mul_assoc]

/-- Settles O44: the order is the sorted list of the present symbols, and the codes by the loop's law. -/
theorem assignCanonicalCodes : Obligations.AssignCanonicalCodes := by
  unfold Obligations.AssignCanonicalCodes
  refine ⟨hasWord_of_no_wdata (i := .ccAssign) rfl rfl, fun s => ⟨canonOrder s.len, canonOrder_nodup _,
    fun a => mem_canonOrder, canonOrder_strict s.len, exec_ccAssign_overSubscribed, fun hfits => ?_⟩⟩
  obtain ⟨c, hc⟩ := assignCodes_of_kraft_le hfits
  exact ⟨_, exec_ccAssign_assigned hc, rfl, fun a => code_head hc, fun xs a b ys => code_next hc,
    fun a => code_absent hc, assignCodes_fits hc⟩

/-! ### The Kraft sum and the codes (44_canonical.md R223) -/

/-- The symbols before a given one, as a part of the present symbols. -/
theorem filter_present_before {len : Table Byte} {xs ys : List Symbol} {a : Symbol}
    (ho : canonOrder len = xs ++ a :: ys) {p : Symbol → Bool} (hp : ∀ b, p b = true ↔ CanonLt len b a) :
    ((presentByLen len).filter p).Perm xs := by
  have hbefore : xs.filter p = xs := List.filter_eq_self.mpr fun b hb => (hp b).mpr ((canonOrder_split ho).1 b hb)
  have hafter : (a :: ys).filter p = [] := List.filter_eq_nil_iff.mpr fun b hb => by
    rw [hp]
    unfold CanonLt
    rcases List.mem_cons.mp hb with rfl | hb
    · omega
    · have hab := (canonOrder_split ho).2 b hb
      unfold CanonLt at hab
      omega
  have hfilter := ((canonOrder_perm len).filter p).symm
  rwa [ho, List.filter_append, hbefore, hafter, List.append_nil] at hfilter

/-- Settles O45: the fault is the loop's, and a code's Kraft sum is that of the symbols before it. -/
theorem assignFaultsExactlyWhenOverSubscribed : Obligations.AssignFaultsExactlyWhenOverSubscribed := by
  unfold Obligations.AssignFaultsExactlyWhenOverSubscribed
  intro s
  by_cases hover : 2 ^ 255 < kraft s.len
  · exact ⟨_, exec_ccAssign_overSubscribed hover, iff_of_true rfl hover,
      iff_of_false (by simp) (Nat.not_le.mpr hover), fun h => nomatch h⟩
  · obtain ⟨c, hc⟩ := assignCodes_of_kraft_le (Nat.not_lt.mp hover)
    refine ⟨_, exec_ccAssign_assigned hc, iff_of_false (by simp) hover, iff_of_true rfl (Nat.not_lt.mp hover),
      fun _ a ha => ?_⟩
    obtain ⟨xs, ys, ho⟩ := List.append_of_mem (mem_canonOrder.mpr ha)
    have hperm := filter_present_before ho (p := fun b => decide (lenOf s b < lenOf s a ∨
      (lenOf s b = lenOf s a ∧ b.toNat < a.toNat))) (fun b => decide_eq_true_iff)
    exact (code_mul_share hc ho).trans (hperm.map (share s.len)).sum_eq.symm

/-! ### No codeword begins another (44_canonical.md R224) -/

/-- The code of a later symbol, justified, is at least the justified code of an earlier one and its share. -/
theorem justified_code_lt {len : Table Byte} {c : Table CodeValue} (h : assignCodes len = some c) {a b : Symbol}
    (ha : (tblGet len a).toNat ≠ 0) (hb : (tblGet len b).toNat ≠ 0) (hab : CanonLt len a b) :
    (tblGet c a).toNat * share len a < (tblGet c b).toNat * share len b := by
  obtain ⟨xs, zs, ho⟩ := List.append_of_mem (mem_canonOrder.mpr hb)
  have hain : a ∈ xs := by
    have hmem := mem_canonOrder.mpr ha
    rw [ho, List.mem_append, List.mem_cons] at hmem
    rcases hmem with hxs | rfl | hzs
    · exact hxs
    · unfold CanonLt at hab
      omega
    · have hba := (canonOrder_split ho).2 a hzs
      unfold CanonLt at hab hba
      omega
  obtain ⟨us, vs, rfl⟩ := List.append_of_mem hain
  rw [code_mul_share h ho, code_mul_share h (xs := us) (ys := vs ++ b :: zs) (by rw [ho]; simp), shares_append,
    shares_cons]
  have hpos := share_pos len a
  omega

/-- Settles O46: the table is an assigned one, whose codewords are free of one another. -/
theorem codewordsArePrefixFree : Obligations.CodewordsArePrefixFree := by
  unfold Obligations.CodewordsArePrefixFree
  intro s t ht hok
  by_cases hover : 2 ^ 255 < kraft s.len
  · rw [exec_ccAssign_overSubscribed hover] at ht
    cases ht
    cases hok
  · obtain ⟨c, hc⟩ := assignCodes_of_kraft_le (Nat.not_lt.mp hover)
    rw [exec_ccAssign_assigned hc] at ht
    cases ht
    exact ⟨fun a b ha hb hne hp => hne (codewords_prefix_free hc ha hb hp),
      fun a b ha hb hab => justified_code_lt hc ha hb hab⟩

/-! ### Build, extract and assign (44_canonical.md R214) -/

/-- `HT.BUILD` and `CL.EXTRACT`, where the counts' total fits, write the tree's lengths. -/
theorem execAll_build_extract {s : State} {lens : Table Byte} (hfit : totalFreq s.freq < 2 ^ 64)
    (hlens : extractLengths (buildTree s.freq).1 (buildTree s.freq).2 = .ok lens) :
    execAll [.htBuild, .clExtract] s = .next { s with
      htNodes := (buildTree s.freq).1, htRoot := (buildTree s.freq).2, htNSym := (presentByFreq s.freq).length
      htBuilt := true, len := lens, ccValid := false, trValid := false, status := .ok } :=
  (execAll_cons (exec_htBuild_fits hfit)).trans (execAll_singleton (exec_clExtract_built rfl hlens))

/-- Settles O43: the Kraft sum of the leaves' depths. -/
theorem kraftEquality : Obligations.KraftEquality := by
  unfold Obligations.KraftEquality
  intro s hfit
  obtain ⟨lens, hlens, -, -, -, hkraft⟩ := extractLengths_spec hfit
  refine ⟨_, execAll_build_extract hfit hlens, rfl, fun hmany => ?_, fun hone => ?_, fun hnone => ?_⟩
  · rw [hkraft, if_neg (by omega), if_neg (by omega)]
  · rw [hkraft, if_neg (by omega), if_pos hone]
  · rw [hkraft, if_pos hnone]

/-- Extracted lengths have codes: their Kraft sum is at most 1 (44_canonical.md R214). -/
theorem assignCodes_extracted {freq : Table Word64} (hfit : totalFreq freq < 2 ^ 64) : ∃ lens c,
    extractLengths (buildTree freq).1 (buildTree freq).2 = .ok lens ∧ assignCodes lens = some c ∧
    presentByLen lens = presentByFreq freq := by
  obtain ⟨lens, hlens, -, -, hpresent, hkraft⟩ := extractLengths_spec hfit
  have hle : kraft lens ≤ 2 ^ 255 := by
    rw [hkraft]
    split
    · exact Nat.zero_le _
    · split
      · exact Nat.pow_le_pow_right (by omega) (by omega)
      · exact Nat.le_refl _
  obtain ⟨c, hc⟩ := assignCodes_of_kraft_le hle
  exact ⟨lens, c, hlens, hc, hpresent⟩

/-- Settles O47: the extracted lengths have codes, and their present symbols are those of the counts. -/
theorem builtLengthsAssign : Obligations.BuiltLengthsAssign := by
  unfold Obligations.BuiltLengthsAssign
  intro s hfit
  obtain ⟨lens, c, hlens, hc, hpresent⟩ := assignCodes_extracted hfit
  have hsame : ∀ a, (tblGet lens a).toNat ≠ 0 ↔ tblGet s.freq a ≠ 0#64 := fun a => by
    rw [← mem_presentByLen, hpresent, mem_presentByFreq]
  refine ⟨_, (execAll_append (js := [.ccAssign]) (execAll_build_extract hfit hlens)).trans
    (execAll_singleton (exec_ccAssign_assigned hc)), rfl, rfl, ?_, fun a => hsame a⟩
  rw [← hpresent]
  exact (canonOrder_perm lens).length_eq

end Sys2Proof.Machine

/-! The trie: its leaves are exactly the codewords, its nodes exactly their beginnings (spec/45_decoder.md R240, R241). -/

namespace Sys2Proof.Machine

open Sys2Proof

section
variable {arena : List TrNode} {paths : List (List Bool)} {leaf : List Bool → Option Byte}
  (h : Labels arena paths leaf)
include h

/-- A walk from the root ends at the node of the bits walked. -/
theorem Labels.walk_iff {bits : List Bool} {j : Nat} : trieWalk arena bits 0 = some j ↔ paths[j]? = some bits :=
  trieWalk_labels h bits 0 [] h.root j

theorem Labels.exists_walk_iff {bits : List Bool} : (∃ j, trieWalk arena bits 0 = some j) ↔ bits ∈ paths := by
  rw [List.mem_iff_getElem?]
  exact exists_congr fun j => h.walk_iff

/-- A walk reaches a leaf exactly where the labels have one. -/
theorem Labels.leaf_iff {bits : List Bool} {a : Symbol} :
    (∃ (i : Nat) (nd : TrNode), trieWalk arena bits 0 = some i ∧ arena[i]? = some nd ∧ nd.leaf = some a) ↔
      leaf bits = some a := by
  constructor
  · rintro ⟨i, nd, hwalk, hnd, hleaf⟩
    rw [← h.leafs i nd bits hnd (h.walk_iff.mp hwalk), hleaf]
  · intro hleaf
    have hin : bits ∈ paths := by
      by_contra hout
      rw [h.fresh bits hout] at hleaf
      cases hleaf
    obtain ⟨i, hi⟩ := List.mem_iff_getElem?.mp hin
    obtain ⟨nd, hnd⟩ := h.node hi
    exact ⟨i, nd, h.walk_iff.mpr hi, hnd, (h.leafs i nd bits hnd hi).trans hleaf⟩

/-- A node whose path is the beginning of no other has no child. -/
theorem Labels.childless {i : Nat} {nd : TrNode} {p : List Bool} (hnd : arena[i]? = some nd) (hp : paths[i]? = some p)
    (hend : ∀ b, p ++ [b] ∉ paths) : nd.c0 = none ∧ nd.c1 = none := by
  have hno : ∀ b, childOf nd b = none := fun b => by
    by_contra hchild
    obtain ⟨j, hj⟩ := Option.ne_none_iff_exists'.mp hchild
    exact hend b (List.mem_of_getElem? ((h.child i nd p hnd hp b j).mp hj))
  exact ⟨hno false, hno true⟩

end

/-- A codeword is not continued in the trie: none is the beginning of another (44_canonical.md R224). -/
theorem codeword_not_continued {len : Table Byte} {code : Table CodeValue} (h : assignCodes len = some code)
    {a c : Symbol} (ha : (tblGet len a).toNat ≠ 0) (hc : (tblGet len c).toNat ≠ 0) (b : Bool) :
    ¬ codewordIn len code a ++ [b] <+: codewordIn len code c := by
  intro hp
  obtain rfl := codewords_prefix_free h ha hc ((List.prefix_append _ _).trans hp)
  have hlen := hp.length_le
  rw [List.length_append, List.length_singleton] at hlen
  omega

theorem exec_trBuild_unassigned {s : State} (h : s.ccValid = false) :
    exec .trBuild s = .next { s with status := .seq } := by
  simp only [exec, execTrBuild, if_pos h]
  rfl

/-- Settles O48: the labels of the arena are the beginnings of the codewords, and its leaves the codewords. -/
theorem trieHasExactlyTheCodewords : Obligations.TrieHasExactlyTheCodewords := by
  unfold Obligations.TrieHasExactlyTheCodewords
  refine ⟨hasWord_of_no_wdata (i := .trBuild) rfl rfl, fun s => exec_trBuild_unassigned, fun s hlegal hvalid => ?_⟩
  obtain ⟨hassigned, -⟩ := hlegal.tables.codes hvalid
  obtain ⟨arena, paths, harena, hlabels, hpaths, hsize, -⟩ := buildTrie_spec s.len s.code
  have hleaf := leafAfter_codes hassigned
  refine ⟨_, exec_trBuild_built hvalid harena, rfl, fun bits a => hlabels.leaf_iff.trans (hleaf bits a),
    fun bits => hlabels.exists_walk_iff.trans (hpaths bits), fun i nd hnd => ?node, ?root, hsize⟩
  case node =>
    obtain ⟨p, hp⟩ := hlabels.path hnd
    refine ⟨fun hsome => hlabels.childless hnd hp fun b hin => ?_, p, hlabels.walk_iff.mpr hp⟩
    obtain ⟨a, ha⟩ := Option.ne_none_iff_exists'.mp hsome
    rw [hlabels.leafs i nd p hnd hp] at ha
    obtain ⟨hpresent, rfl⟩ := (hleaf p a).mp ha
    rcases (hpaths _).mp hin with hempty | ⟨c, hc, hpre⟩
    · simp at hempty
    · exact codeword_not_continued hassigned hpresent hc b hpre
  case root =>
    obtain ⟨root, hroot⟩ := hlabels.node hlabels.root
    refine ⟨root, hroot, ?_⟩
    rw [hlabels.leafs 0 root [] hroot hlabels.root]
    by_contra hsome
    obtain ⟨a, ha⟩ := Option.ne_none_iff_exists'.mp hsome
    obtain ⟨hpresent, hword⟩ := (hleaf [] a).mp ha
    have hlen := congrArg List.length hword
    rw [codewordIn_length] at hlen
    exact hpresent hlen.symm

end Sys2Proof.Machine

/-! What a decode has emitted: a decoder fault is precise, and `DONE` means the count and the checksum
(spec/45_decoder.md R255 to R262, R266). -/

namespace Sys2Proof.Machine

open Sys2Proof

/-! ### The output of a decode -/

/-- `t` has emitted `out` in the decode that was started in `s`: the output, the running checksum and the count say so,
the count is below the size while the decode goes on, and `DONE` means that count and checksum agree. -/
structure Decoded (s t : State) (out : List Byte) : Prop where
  dout : t.dout = s.dout ++ out
  crc : t.crcState = crcBytes 0xFFFFFFFF#32 out
  count : t.tdCount = BitVec.ofNat 64 out.length
  size : t.tdSize = s.tdSize
  expected : t.tdXcrc = s.tdXcrc
  more : decodeActive t = true → out.length < s.tdSize.toNat
  done : t.tdState = .done → out.length = s.tdSize.toNat ∧ crc32 out = s.tdXcrc

/-- How the state of each kind of transition comes about: the reader has moved, then the decoder (45_decoder.md R255). -/
theorem tdWalk_shape (s : State) :
    (∀ t, tdWalk s = .moved t → ∃ r ch, ReaderMoved s r ∧ t = { r with tdCur := ch, tdState := .descending }) ∧
    (∀ b t, tdWalk s = .emitted b t → ∃ r, ReaderMoved s r ∧ t = tdLeaf b r) ∧
    ∀ cause t, tdWalk s = .corrupt cause t → ∃ r, ReaderMoved s r ∧ t = { r with tdState := .failed } := by
  unfold tdWalk
  cases hget : brGet s with
  | outside f => exact ⟨fun _ => nofun, fun _ _ => nofun, fun _ _ => nofun⟩
  | noData => exact ⟨fun _ => nofun, fun _ _ => nofun, by rintro _ _ ⟨⟩; exact ⟨s, rfl, rfl⟩⟩
  | bit b r =>
    have hr := brGet_moved hget
    simp only
    split
    · exact ⟨fun _ => nofun, fun _ _ => nofun, fun _ _ => nofun⟩
    · split
      · exact ⟨fun _ => nofun, fun _ _ => nofun, by rintro _ _ ⟨⟩; exact ⟨r, hr, rfl⟩⟩
      · split
        · exact ⟨fun _ => nofun, fun _ _ => nofun, fun _ _ => nofun⟩
        · split
          · exact ⟨fun _ => nofun, by rintro _ _ ⟨⟩; exact ⟨r, hr, rfl⟩, fun _ _ => nofun⟩
          · exact ⟨by rintro _ ⟨⟩; exact ⟨r, _, hr, rfl⟩, fun _ _ => nofun, fun _ _ => nofun⟩

section
variable {s : State} {p : Prop} [Decidable p] (h : s.tdState = if p then .done else .failed)
include h

/-- A comparison that ends a decode leaves it at rest (45_decoder.md R257). -/
theorem not_active_of_finished : ¬ decodeActive s = true := by
  rw [decodeActive_iff, h]
  split
  · simp
  · simp

theorem agrees_of_finished (hdone : s.tdState = .done) : p := by
  by_contra hnot
  rw [h, if_neg hnot] at hdone
  cases hdone

end

section
variable {s t : State} {out : List Byte} (h : Decoded s t out)
include h

/-- The reader's part does not count. -/
theorem Decoded.reader {r : State} (hr : ReaderMoved t r) : Decoded s r out := by
  rw [hr]
  exact ⟨h.dout, h.crc, h.count, h.size, h.expected, h.more, h.done⟩

/-- A walk that goes on, or ends in `FAILED`, without a byte. -/
theorem Decoded.failed : Decoded s { t with tdState := .failed } out :=
  ⟨h.dout, h.crc, h.count, h.size, h.expected, nofun, nofun⟩

theorem Decoded.descending (hactive : decodeActive t = true) (ch : Nat) :
    Decoded s { t with tdCur := ch, tdState := .descending } out :=
  ⟨h.dout, h.crc, h.count, h.size, h.expected, fun _ => h.more hactive, nofun⟩

/-- What the end of a command writes does not count. -/
theorem Decoded.ended (r : Word64) (c f : Code) : Decoded s { t with res := r, status := c, fault := f } out :=
  ⟨h.dout, h.crc, h.count, h.size, h.expected, h.more, h.done⟩

/-- A leaf's byte is emitted, counted and in the checksum; the decode ends where the count reaches the size
(45_decoder.md R256, R257). -/
theorem Decoded.leaf (hactive : decodeActive t = true) (b : Byte) : Decoded s (tdLeaf b t) (out ++ [b]) := by
  have hmore := h.more hactive
  have hlt := s.tdSize.isLt
  have hlen : (out ++ [b]).length = out.length + 1 := List.length_append
  have hcrc : crcByte t.crcState b = crcBytes 0xFFFFFFFF#32 (out ++ [b]) := by
    rw [h.crc, crcBytes_append]
    rfl
  have hdout : t.dout ++ [b] = s.dout ++ (out ++ [b]) := by rw [h.dout, List.append_assoc]
  have hcount : t.tdCount + 1#64 = BitVec.ofNat 64 (out ++ [b]).length := by
    rw [h.count, hlen]
    exact (BitVec.ofNat_add out.length 1).symm
  have hvalue : (BitVec.ofNat 64 (out ++ [b]).length).toNat = out.length + 1 := by
    rw [hlen, BitVec.toNat_ofNat]
    exact Nat.mod_eq_of_lt (by omega)
  by_cases hend : t.tdCount + 1#64 = t.tdSize
  · have hsize : out.length + 1 = s.tdSize.toNat := by rw [← h.size, ← hend, hcount, hvalue]
    rw [tdLeaf_last hend]
    refine ⟨hdout, hcrc, hend.symm.trans hcount, h.size, h.expected,
      fun hact => absurd hact (not_active_of_finished rfl), fun hdone => ⟨hlen.trans hsize, ?_⟩⟩
    have hagree := agrees_of_finished rfl hdone
    rwa [hcrc, h.expected] at hagree
  · rw [tdLeaf_more hend]
    refine ⟨hdout, hcrc, hcount, h.size, h.expected, fun _ => ?_, nofun⟩
    have hne : out.length + 1 ≠ s.tdSize.toNat := fun he =>
      hend (BitVec.eq_of_toNat_eq (by rw [hcount, hvalue, he, h.size]))
    omega

/-- Each kind of transition of a decode under way. -/
theorem Decoded.walk (hactive : decodeActive t = true) :
    (∀ u, tdWalk t = .moved u → Decoded s u out) ∧
    (∀ b u, tdWalk t = .emitted b u → Decoded s u (out ++ [b])) ∧
    ∀ cause u, tdWalk t = .corrupt cause u → Decoded s u out := by
  have hactiveOf {r : State} (hr : ReaderMoved t r) : decodeActive r = true := by
    rw [hr]
    exact hactive
  obtain ⟨hmoved, hemitted, hcorrupt⟩ := tdWalk_shape t
  refine ⟨fun u hu => ?_, fun b u hu => ?_, fun cause u hu => ?_⟩
  · obtain ⟨r, ch, hr, rfl⟩ := hmoved u hu
    exact (h.reader hr).descending (hactiveOf hr) ch
  · obtain ⟨r, hr, rfl⟩ := hemitted b u hu
    exact (h.reader hr).leaf (hactiveOf hr) b
  · obtain ⟨r, hr, rfl⟩ := hcorrupt cause u hu
    exact (h.reader hr).failed

end

/-! ### `TD.START` and the steps after it -/

/-- Where `t` stands after `TD.START` in `s` and some `TD.STEP`: what it has emitted, and that a fault was latched over
the `FAULT` of the start, in `FAILED`. -/
structure StepsDecoded (s t : State) (out : List Byte) : Prop where
  decoded : Decoded s t out
  unfaulted : decodeActive t = true → t.fault = s.fault
  faulted : isFaultCode t.status = true → t.tdState = .failed ∧ t.fault = latched s t.status

/-- The end of a transition (45_decoder.md R255, R257). -/
theorem StepsDecoded.of_end {s u : State} {out : List Byte} (h : Decoded s u out) (hfault : u.fault = s.fault)
    {cause : Cause} (hcause : cause ≠ .none → u.tdState = .failed) (last : Option Byte) :
    StepsDecoded s (tdEnd last cause u) out := by
  have hlatched : ∀ c, latched u c = latched s c := fun c => by rw [latched, hfault, latched]
  by_cases hnone : cause = .none
  · subst hnone
    by_cases hfailed : u.tdState = .failed
    · rw [tdEnd_of_failed hfailed]
      exact ⟨h.ended _ _ _, fun hact => by simp [decodeActive, hfailed] at hact, fun _ => ⟨hfailed, hlatched _⟩⟩
    · rw [tdEnd, if_neg (not_not.mpr rfl), if_neg hfailed]
      exact ⟨h.ended _ _ _, fun _ => hfault, nofun⟩
  · have hfailed := hcause hnone
    rw [tdEnd_of_cause hnone hfailed]
    exact ⟨h.ended _ _ _, fun hact => by simp [decodeActive, hfailed] at hact, fun _ => ⟨hfailed, hlatched _⟩⟩

/-- A refused command changes nothing of a decode (45_decoder.md R255). -/
theorem StepsDecoded.refused {s t : State} {out : List Byte} (h : StepsDecoded s t out) :
    StepsDecoded s { t with status := .seq } out :=
  ⟨h.decoded.ended t.res .seq t.fault, h.unfaulted, nofun⟩

/-- One more step. -/
theorem StepsDecoded.step {s t u : State} {out : List Byte} (h : StepsDecoded s t out)
    (hu : exec .tdStep t = .next u) : ∃ out', StepsDecoded s u out' := by
  by_cases hrefused : t.trValid = false ∨ decodeActive t = false
  · rw [decodeActive_eq_false_iff] at hrefused
    rw [exec_tdStep_refused hrefused] at hu
    cases hu
    exact ⟨out, h.refused⟩
  · obtain ⟨htrie, hact⟩ := not_or.mp hrefused
    rw [Bool.not_eq_false] at htrie hact
    obtain ⟨hmoved, hemitted, hcorrupt⟩ := h.decoded.walk hact
    obtain ⟨-, -, hfailed⟩ := tdWalk_output t
    have hfault {w : State} (hw : DecoderMoved t w) : w.fault = s.fault := by
      rw [hw]
      exact h.unfaulted hact
    cases hw : tdWalk t with
    | outside f => simp [exec, execTdStep, htrie, hact, hw] at hu
    | moved v =>
      rw [exec_tdStep_of_moved htrie hact hw] at hu
      cases hu
      exact ⟨out, .of_end (hmoved v hw) (hfault ((tdWalk_moved t v).1 hw)) (absurd rfl) none⟩
    | emitted b v =>
      rw [exec_tdStep_of_emitted htrie hact hw] at hu
      cases hu
      exact ⟨out ++ [b], .of_end (hemitted b v hw) (hfault ((tdWalk_moved t v).2.1 b hw)) (absurd rfl) (some b)⟩
    | corrupt cause v =>
      rw [exec_tdStep_of_corrupt htrie hact hw] at hu
      cases hu
      exact ⟨out, .of_end (hcorrupt cause v hw) (hfault ((tdWalk_moved t v).2.2 cause hw))
        (fun _ => (hfailed cause v hw).2) none⟩

/-- The start of a decode has emitted nothing (45_decoder.md R252). -/
theorem StepsDecoded.start {s t : State} (htrie : s.trValid = true) (ht : exec .tdStart s = .next t) :
    StepsDecoded s t [] := by
  by_cases hsize : s.tdSize = 0#64
  · rw [exec_tdStart_finish htrie hsize] at ht
    cases ht
    have hnothing : Decoded s { s with
        crcState := 0xFFFFFFFF#32, tdCount := 0#64, tdCur := 0
        tdState := if 0#32 = s.tdXcrc then .done else .failed } [] := by
      refine ⟨(List.append_nil _).symm, rfl, rfl, rfl, rfl,
        fun hact => absurd hact (not_active_of_finished rfl), fun hdone => ⟨?_, ?_⟩⟩
      · rw [hsize]
        rfl
      · exact crc_check_values.1.trans (agrees_of_finished rfl hdone)
    exact .of_end hnothing rfl (absurd rfl) none
  · rw [exec_tdStart_walk htrie hsize] at ht
    cases ht
    refine ⟨⟨(List.append_nil _).symm, rfl, rfl, rfl, rfl, fun _ => ?_, nofun⟩, fun _ => rfl, nofun⟩
    exact Nat.pos_of_ne_zero fun hzero => hsize (BitVec.eq_of_toNat_eq hzero)

/-- What every command of a sequence keeps, the sequence keeps. -/
theorem execAll_replicate_keeps {P : State → Prop} {i : Instr} (hstep : ∀ s t, P s → exec i s = .next t → P t)
    {n : Nat} {s t : State} (hs : P s) (ht : execAll (List.replicate n i) s = .next t) : P t := by
  induction n generalizing s with
  | zero =>
    cases ht
    exact hs
  | succ n ih =>
    rw [List.replicate_succ, execAll] at ht
    cases he : exec i s with
    | next u =>
      rw [he] at ht
      exact ih (hstep s u hs he) ht
    | fault f => simp [he] at ht
    | refused r => simp [he] at ht

/-- `TD.START` and steps from a state with a trie. -/
theorem execAll_steps_decoded {s t : State} {n : Nat} (htrie : s.trValid = true)
    (h : execAll (.tdStart :: List.replicate n .tdStep) s = .next t) : ∃ out, StepsDecoded s t out := by
  cases hstart : exec .tdStart s with
  | next u =>
    rw [execAll_cons hstart] at h
    exact execAll_replicate_keeps (P := fun v => ∃ out, StepsDecoded s v out) (fun v w ⟨_, hv⟩ hw => hv.step hw)
      ⟨[], .start htrie hstart⟩ h
  | fault f => simp [execAll, hstart] at h
  | refused r => simp [execAll, hstart] at h

/-- Without a trie `TD.START` and every step are refused (45_decoder.md R252, R255). -/
theorem steps_refused {s t : State} {n : Nat} (htrie : s.trValid = false)
    (h : execAll (.tdStart :: List.replicate n .tdStep) s = .next t) : t.status = .seq := by
  rw [execAll_cons (exec_tdStart_without_trie htrie)] at h
  have hstep : ∀ v w : State, v.trValid = false ∧ v.status = .seq → exec .tdStep v = .next w →
      w.trValid = false ∧ w.status = .seq := by
    rintro v w ⟨hv, -⟩ hw
    rw [exec_tdStep_refused (.inl hv)] at hw
    cases hw
    exact ⟨hv, rfl⟩
  exact (execAll_replicate_keeps hstep (s := { s with status := .seq }) ⟨htrie, rfl⟩ h).2

/-! ### `FAILED` (45_decoder.md R262) -/

/-- No command but the three that start, build or reset writes the decoder's state where it is `FAILED`. -/
theorem exec_failed {i : Instr} {s t : State} (hfailed : s.tdState = .failed) (h : exec i s = .next t)
    (hstart : i ≠ .tdStart) (hbuild : i ≠ .trBuild) (hreset : i ≠ .sysRst) :
    t.tdState = s.tdState ∧ t.tdCur = s.tdCur ∧ t.tdCount = s.tdCount ∧ t.dout = s.dout := by
  have hinactive : s.tdState ≠ .atRoot ∧ s.tdState ≠ .descending := by simp [hfailed]
  have hframe := exec_frame i s t h
  cases i
  case tdStart => exact absurd rfl hstart
  case trBuild => exact absurd rfl hbuild
  case sysRst => exact absurd rfl hreset
  case tdStep =>
    rw [exec_tdStep_refused (.inr hinactive)] at h
    cases h
    exact ⟨rfl, rfl, rfl, rfl⟩
  case tdRun =>
    rw [exec_tdRun_refused (.inr hinactive)] at h
    cases h
    exact ⟨rfl, rfl, rfl, rfl⟩
  case bwPut | bwPutsym | mbReplay | bwFlush =>
    obtain ⟨-, hframe⟩ := hframe
    rw [hframe]
    exact ⟨rfl, rfl, rfl, rfl⟩
  all_goals
    rw [Frame.eq_def] at hframe
    rw [hframe]
    exact ⟨rfl, rfl, rfl, rfl⟩

/-- Settles O53: no other command writes the decoder's state in `FAILED`, and the steps' invariant at the fault. -/
theorem failedDecodeRests : Obligations.FailedDecodeRests := by
  unfold Obligations.FailedDecodeRests
  refine ⟨fun i s t hfailed h hstart hbuild hreset => ?rests, fun s hfailed => ?refused, fun s t n htrie h hfault => ?fault⟩
  case rests => exact hfailed ▸ exec_failed hfailed h hstart hbuild hreset
  case refused =>
    have hinactive : s.tdState ≠ .atRoot ∧ s.tdState ≠ .descending := by simp [hfailed]
    exact ⟨exec_tdStep_refused (.inr hinactive), exec_tdRun_refused (.inr hinactive)⟩
  case fault =>
    obtain ⟨out, hdecoded, -, hfaulted⟩ := execAll_steps_decoded htrie h
    obtain ⟨hstate, hlatched⟩ := hfaulted hfault
    exact ⟨out, hstate, hdecoded.dout, hdecoded.count, hdecoded.crc, hlatched⟩

/-! ### `DONE` (45_decoder.md R266) -/

/-- The loop of `TD.RUN` ends with all it has emitted, in `DONE` or `FAILED`. -/
theorem tdRunLoop_decoded {s u t : State} {out : List Byte} (h : Decoded s u out) (hactive : decodeActive u = true)
    {fuel : Nat} {last : Option Byte} (ht : tdRunLoop fuel last u = .next t) : ∃ out' e cause w,
    t = tdEnd e cause w ∧ Decoded s w out' ∧ (w.tdState = .done ∨ w.tdState = .failed) := by
  induction fuel generalizing u out last with
  | zero => cases ht
  | succ fuel ih =>
    obtain ⟨hmoved, hemitted, hcorrupt⟩ := h.walk hactive
    obtain ⟨hmovedState, hemittedState, hcorruptState⟩ := tdWalk_output u
    unfold tdRunLoop at ht
    cases hw : tdWalk u with
    | outside f => simp [hw] at ht
    | moved v =>
      simp only [hw] at ht
      exact ih (hmoved v hw) ((decodeActive_iff v).mpr (.inr (hmovedState v hw).2)) ht
    | emitted b v =>
      simp only [hw] at ht
      split at ht
      next hroot => exact ih (hemitted b v hw) ((decodeActive_iff v).mpr (.inl hroot)) ht
      next hroot =>
        cases ht
        exact ⟨_, _, _, v, rfl, hemitted b v hw, (hemittedState b v hw).2.resolve_left hroot⟩
    | corrupt cause v =>
      simp only [hw] at ht
      cases ht
      exact ⟨_, _, _, v, rfl, hcorrupt cause v hw, .inr (hcorruptState cause v hw).2⟩

/-- A command that ends in `FAILED` does not end ok (45_decoder.md R255, R257). -/
theorem tdEnd_status_failed {s : State} (h : s.tdState = .failed) (last : Option Byte) (cause : Cause) :
    (tdEnd last cause s).status ≠ .ok := by
  by_cases hnone : cause = .none
  · subst hnone
    rw [tdEnd_of_failed h]
    simp
  · rw [tdEnd_of_cause hnone h]
    simp

/-- One run from the start of a decode, where it ends ok. -/
theorem run_decoded {s t : State} (h : execAll [.tdStart, .tdRun] s = .next t) (hok : t.status = .ok) :
    ∃ out, t.dout = s.dout ++ out ∧ out.length = s.tdSize.toNat ∧ crc32 out = s.tdXcrc := by
  have hnotRefused {u : State} (hstart : exec .tdStart s = .next u) :
      ¬ (u.trValid = false ∨ decodeActive u = false) := fun hrefused => by
    rw [decodeActive_eq_false_iff] at hrefused
    rw [execAll_cons hstart, execAll_singleton (exec_tdRun_refused hrefused)] at h
    cases h
    cases hok
  cases htrie : s.trValid with
  | false => exact absurd (.inl htrie) (hnotRefused (exec_tdStart_without_trie htrie))
  | true =>
    cases hstart : exec .tdStart s with
    | fault f => simp [execAll, hstart] at h
    | refused r => simp [execAll, hstart] at h
    | next u =>
      obtain ⟨htrie', hact⟩ := not_or.mp (hnotRefused hstart)
      rw [Bool.not_eq_false] at htrie' hact
      rw [execAll_cons hstart, execAll] at h
      have hrun : tdRunLoop (tdBound u) none u = .next t := by
        rw [← exec_tdRun_of_active htrie' hact]
        cases he : exec .tdRun u with
        | next v =>
          simp only [he, execAll] at h
          exact h
        | fault f => simp [he] at h
        | refused r => simp [he] at h
      obtain ⟨out, e, cause, w, rfl, hdecoded, hdone | hfailed⟩ :=
        tdRunLoop_decoded (StepsDecoded.start htrie hstart).decoded hact hrun
      · obtain ⟨-, -, hdout⟩ := tdEnd_fields e cause w
        exact ⟨out, hdout.trans hdecoded.dout, hdecoded.done hdone⟩
      · exact absurd hok (tdEnd_status_failed hfailed e cause)

/-- Settles O54: the invariant of the steps, and of the loop of `TD.RUN`. -/
theorem doneMeansCountAndChecksum : Obligations.DoneMeansCountAndChecksum := by
  unfold Obligations.DoneMeansCountAndChecksum
  refine ⟨fun s t n h hok hdone => ?steps, fun s t => run_decoded⟩
  case steps =>
    cases htrie : s.trValid with
    | false =>
      rw [steps_refused htrie h] at hok
      cases hok
    | true =>
      obtain ⟨out, hdecoded, -, -⟩ := execAll_steps_decoded htrie h
      exact ⟨out, hdecoded.dout, hdecoded.done hdone⟩

end Sys2Proof.Machine

/-! Decoding inverts encoding, and the round trip of the encode and the decode sequence (spec/45_decoder.md R265,
spec/70_reset_and_hazards.md R350 to R353). -/

namespace Sys2Proof.Machine

open Sys2Proof

/-! ### A decode along codewords (45_decoder.md R265) -/

/-- The labels of a trie of codewords: its nodes are their beginnings, its leaves the codewords. -/
structure CodewordTrie (len : Table Byte) (code : Table CodeValue) (arena : List TrNode) (paths : List (List Bool)) :
    Prop where
  assigned : assignCodes len = some code
  labels : Labels arena paths (leafAfter (codewordIn len code) (canonOrder len) (fun _ => none))
  mem_paths : ∀ q, q ∈ paths ↔ q = [] ∨ ∃ a, (tblGet len a).toNat ≠ 0 ∧ q <+: codewordIn len code a

/-- A decode of the codewords of a byte sequence, with its count and checksum set, emits the bytes, ends `DONE` and
leaves the rest of the stream. -/
theorem execAll_decode {s : State} {len : Table Byte} {code : Table CodeValue} {paths : List (List Bool)}
    (htrie : s.trValid = true) (hcodes : CodewordTrie len code s.trNodes paths) (hreader : ReaderOk s)
    {bytes : List Byte} {rest : List Bool} (hne : bytes ≠ []) (hpresent : ∀ a ∈ bytes, (tblGet len a).toNat ≠ 0)
    (hbits : readerBits s = encodedBits len code bytes ++ rest) (hsize : s.tdSize.toNat = bytes.length)
    (hcrc : s.tdXcrc = crc32 bytes) : ∃ t, execAll [.tdStart, .tdRun] s = .next t ∧ t.status = .ok ∧
      t.tdState = .done ∧ t.dout = s.dout ++ bytes ∧ readerBits t = rest ∧ t.fault = s.fault := by
  obtain ⟨b, bs, rfl⟩ := List.exists_cons_of_ne_nil hne
  have hsome : s.tdSize ≠ 0#64 := fun hzero => by
    rw [hzero, List.length_cons] at hsize
    exact Nat.succ_ne_zero _ hsize.symm
  have hstart := exec_tdStart_walk htrie hsome
  generalize hu : ({ s with
    crcState := 0xFFFFFFFF#32, tdCount := 0#64, tdCur := 0, tdState := .atRoot, res := 0#64, status := .ok } : State) = u
    at hstart
  have hubits : readerBits u = encodedBits len code (b :: bs) ++ rest := by
    rw [← hu]
    exact hbits
  obtain ⟨t, last, hrest, -, ht, -, hrun⟩ := tdRunLoop_codewords hcodes.assigned hcodes.mem_paths rest bs b u hpresent
    (by rw [← hu]; exact hcodes.labels) (by rw [← hu]) (by rw [← hu]; exact hreader) hubits
    (by rw [← hu, hsize, List.length_cons]; exact Nat.zero_add _)
  have hagree : crcFinal (crcBytes u.crcState (b :: bs)) = u.tdXcrc := by
    rw [← hu]
    exact hcrc.symm
  rw [if_pos hagree] at ht
  have hdone : t.tdState = .done := by rw [ht]
  have hbound : (encodedBits len code (b :: bs)).length ≤ tdBound u := by
    rw [tdBound_eq, hubits, List.length_append]
    omega
  have hexec : exec .tdRun u = .next { t with res := tdResult (some last) true .none, status := .ok } := by
    rw [exec_tdRun_of_active (by rw [← hu]; exact htrie) (by rw [← hu]; rfl), hrun _ _ hbound, tdEnd_of_done hdone]
  refine ⟨_, (execAll_cons hstart).trans (execAll_singleton hexec), rfl, hdone, ?_, hrest, ?_⟩
  · rw [ht, ← hu]
  · rw [ht, ← hu]

/-- Settles O55: in a legal state the trie is labelled by the codewords. -/
theorem decodeInvertsEncode : Obligations.DecodeInvertsEncode := by
  unfold Obligations.DecodeInvertsEncode
  intro s bytes rest hlegal htrie hne hlen hpresent hbits hsize hcrc
  obtain ⟨hassigned, -, paths, hlabels, hpaths⟩ := legal_labels hlegal htrie
  exact execAll_decode htrie ⟨hassigned, hlabels, hpaths⟩ hlegal.reader hne hpresent hbits hsize hcrc

/-! ### The encode sequence (70_reset_and_hazards.md R350) -/

/-- The first pass counts each byte and feeds it to the running checksum, as long as no count outgrows 64 bits. -/
theorem execAll_scan (input : List Byte) {s : State} (hfit : ∀ a, (freqOf s a).toNat + input.count a < 2 ^ 64) :
    ∃ t, execAll (input.flatMap scan) s = .next t ∧
      (∀ a, (freqOf t a).toNat = (freqOf s a).toNat + input.count a) ∧
      t = { s with
        freq := t.freq, htBuilt := t.htBuilt, crcState := crcBytes s.crcState input, status := t.status } := by
  induction input generalizing s with
  | nil => exact ⟨s, rfl, fun a => rfl, rfl⟩
  | cons b bs ih =>
    have hroom : (freqOf s b).toNat < 2 ^ 64 - 1 := by
      have hb := hfit b
      rw [List.count_cons_self] at hb
      omega
    obtain ⟨u, hinc, hfreq, hframe⟩ := exec_fqInc_room hroom
    have hcount (a : Symbol) : (freqOf u a).toNat + bs.count a = (freqOf s a).toNat + (b :: bs).count a := by
      simp only [hfreq, List.count_cons, beq_iff_eq, eq_comm (a := b)]
      omega
    obtain ⟨t, hrest, hcounts, ht⟩ := ih (s := { u with crcState := crcByte u.crcState b, status := .ok })
      (fun a => (hcount a).trans_lt (hfit a))
    refine ⟨t, ?_, fun a => (hcounts a).trans (hcount a), ?_⟩
    · have hscan : execAll (scan b) s = .next { u with crcState := crcByte u.crcState b, status := .ok } :=
        (execAll_cons hinc).trans (execAll_singleton (exec_crcUpd b u))
      rw [List.flatMap_cons, execAll_append hscan, hrest]
    · rw [ht, hframe]
      rfl

/-- The analysis leaves the codes of the input's own counts, its checksum, and an empty writer. -/
theorem execAll_analysis (input : List Byte) (s : State) (hlen : input.length < 2 ^ 64) : ∃ t,
    execAll (analysisSequence input) s = .next t ∧ t.status = .ok ∧ t.ccValid = true ∧
    assignCodes t.len = some t.code ∧ (∀ a, (tblGet t.len a).toNat ≠ 0 ↔ a ∈ input) ∧
    t.res = (crc32 input).setWidth 64 ∧ writerBits t = [] := by
  have hzero (a : Symbol) : (freqOf (resetBlock s) a).toNat = 0 := by rw [(resetBlock_tables s a).1]; rfl
  obtain ⟨u, hscan, hfreq, hu⟩ := execAll_scan input (s := resetBlock s) (fun a => by
    rw [hzero, Nat.zero_add]
    exact List.count_le_length.trans_lt hlen)
  have hcount (a : Symbol) : (tblGet u.freq a).toNat = input.count a := by
    rw [← Nat.zero_add (input.count a), ← hzero a]
    exact hfreq a
  have hfit : totalFreq u.freq < 2 ^ 64 := (totalFreq_eq_length hcount).trans_lt hlen
  obtain ⟨lens, c, hlens, hc, hpresent⟩ := assignCodes_extracted hfit
  have hin (a : Symbol) : (tblGet lens a).toNat ≠ 0 ↔ a ∈ input := by
    rw [← mem_presentByLen, hpresent, mem_presentByFreq, ← List.count_pos_iff, ← hcount, Nat.pos_iff_ne_zero]
    exact not_congr BitVec.toNat_inj.symm
  have hcrc : u.crcState = crcBytes 0xFFFFFFFF#32 input := by
    rw [hu]
    rfl
  have hwriter : writerBits u = [] := by
    rw [hu]
    rfl
  refine ⟨_, (execAll_append ((execAll_cons (exec_sysRst s)).trans hscan)).trans
    ((execAll_append (js := [.ccAssign, .crcFin]) (execAll_build_extract hfit hlens)).trans
      ((execAll_cons (exec_ccAssign_assigned hc)).trans (execAll_singleton (exec_crcFin _)))),
    rfl, rfl, hc, hin, ?_, hwriter⟩
  exact congrArg (fun v => (crcFinal v).setWidth 64) hcrc

/-- The symbols' codewords enter the writer one after another (44_canonical.md R225). -/
theorem execAll_bwPutsym {s : State} (hvalid : s.ccValid = true) (hstatus : s.status = .ok) {input : List Byte}
    (hpresent : ∀ a ∈ input, lenOf s a ≠ 0) :
    execAll (input.map .bwPutsym) s = .next (bwPutAll s (encodedBits s.len s.code input)) := by
  induction input generalizing s with
  | nil => rfl
  | cons a input ih =>
    obtain ⟨-, hframe, -, -⟩ := bwPutAll_spec s (codeword s a)
    have hfields : (bwPutAll s (codeword s a)).ccValid = s.ccValid ∧ (bwPutAll s (codeword s a)).len = s.len ∧
        (bwPutAll s (codeword s a)).code = s.code ∧ (bwPutAll s (codeword s a)).status = s.status := by
      and_intros <;> rw [hframe]
    obtain ⟨hcc, hlen, hcode, hst⟩ := hfields
    have hend : endOk (bwPutAll s (codeword s a)) = bwPutAll s (codeword s a) := by rw [endOk, ← hstatus, ← hst]
    have hput := exec_bwPutsym_present hvalid (hpresent a (List.mem_cons_self ..))
    rw [hend] at hput
    rw [List.map_cons, execAll_cons hput, ih (hcc.trans hvalid) (hst.trans hstatus) (fun c hc => by
      rw [lenOf, hlen]
      exact hpresent c (List.mem_cons_of_mem a hc)), hlen, hcode, ← bwPutAll_append]
    rfl

/-- The encode sequence leaves the lengths, the checksum, and the codewords in the sink, filled up with zeros
(70_reset_and_hazards.md R350). -/
theorem execAll_encode (input : List Byte) (s : State) (hlen : input.length < 2 ^ 64) : ∃ e,
    execAll (encodeSequence input) s = .next e ∧ e.status = .ok ∧ assignCodes e.len = some e.code ∧
    (∀ a, (tblGet e.len a).toNat ≠ 0 ↔ a ∈ input) ∧ e.res = (crc32 input).setWidth 64 ∧
    streamBits e.sink = encodedBits e.len e.code input ++ List.replicate e.bwPad.val false := by
  obtain ⟨t, ht, hstatus, hvalid, hc, hin, hres, hempty⟩ := execAll_analysis input s hlen
  have hputs := execAll_bwPutsym hvalid hstatus (fun a ha => (hin a).mpr ha)
  obtain ⟨hbits, hframe, -, -⟩ := bwPutAll_spec t (encodedBits t.len t.code input)
  obtain ⟨e, he, -, hstream, -, -, hflushed⟩ := exec_bwFlush_spec (bwPutAll t (encodedBits t.len t.code input))
  rw [hbits, hempty, List.nil_append] at hstream
  have hfields : e.len = t.len ∧ e.code = t.code ∧ e.res = t.res ∧ e.status = .ok := by
    rw [hflushed, hframe]
    exact ⟨rfl, rfl, rfl, rfl⟩
  obtain ⟨hl, hcode, hr, hok⟩ := hfields
  refine ⟨e, (execAll_append ((execAll_append ht).trans hputs)).trans (execAll_singleton he), hok, ?_, ?_,
    hr.trans hres, ?_⟩
  · rw [hl, hcode]
    exact hc
  · rw [hl]
    exact hin
  · rw [hl, hcode]
    exact hstream

/-! ### The decode sequence (70_reset_and_hazards.md R351) -/

/-- The table with the entries of `t` written at the symbols of a list. -/
def setLens (t : Table Byte) (l : List Symbol) (u : Table Byte) : Table Byte :=
  l.foldl (fun v a => tblSet v a (tblGet t a)) u

theorem tblGet_setLens (t : Table Byte) (l : List Symbol) (u : Table Byte) (a : Symbol) :
    tblGet (setLens t l u) a = if a ∈ l then tblGet t a else tblGet u a := by
  induction l generalizing u with
  | nil => simp [setLens]
  | cons b l ih =>
    have hcons : setLens t (b :: l) u = setLens t l (tblSet u b (tblGet t b)) := rfl
    rw [hcons, ih, tblGet_tblSet]
    by_cases hl : a ∈ l
    · simp [hl]
    · by_cases hab : a = b
      · simp [hab]
      · simp [hl, hab]

/-- Zeros, and the entries that are not 0: the table itself. -/
theorem setLens_present (t : Table Byte) : setLens t (presentByLen t) (tblFill 0#8) = t := by
  refine tbl_ext fun a => ?_
  rw [tblGet_setLens, tblGet_tblFill]
  split
  next => rfl
  next habsent => exact (BitVec.eq_of_toNat_eq (not_not.mp (mt mem_presentByLen.mpr habsent))).symm

theorem execAll_clSet (t : Table Byte) (l : List Symbol) (u : Table Byte) (s : State) :
    execAll (l.map (fun a => .clSet a (tblGet t a)))
      { s with len := u, ccValid := false, trValid := false, status := .ok } =
    .next { s with len := setLens t l u, ccValid := false, trValid := false, status := .ok } := by
  induction l generalizing u with
  | nil => rfl
  | cons a l ih =>
    rw [List.map_cons, execAll_cons (exec_clSet _ _ _)]
    exact ih (tblSet u a (tblGet t a))

/-- `LOADLEN` writes the whole table (30_encoding.md R106). -/
theorem execAll_loadLen (t : Table Byte) (s : State) : execAll (loadLen t) s =
    .next { s with len := t, ccValid := false, trValid := false, status := .ok } := by
  rw [loadLen, execAll_cons (exec_clClr s), execAll_clSet, setLens_present]

theorem exec_tdSetsize_idle {s : State} (n : Word64) (h : s.tdState = .idle) :
    exec (.tdSetsize n) s = .next { s with tdSize := n, status := .ok } := by
  rw [exec_tdSetsize, decodeActive, h]
  rfl

theorem exec_tdSetcrc_idle {s : State} (v : Word32) (h : s.tdState = .idle) :
    exec (.tdSetcrc v) s = .next { s with tdXcrc := v, status := .ok } := by
  rw [exec_tdSetcrc, decodeActive, h]
  rfl

/-- The decode sequence up to `TD.START`: the codes and the trie of the lengths, the size and the checksum, and the
reader at the start of `SRC` (70_reset_and_hazards.md R351). -/
theorem execAll_decodeSetup {lens : Table Byte} {c : Table CodeValue} (hc : assignCodes lens = some c) (n : Word64)
    (v : Word32) (d : State) : ∃ u paths,
    execAll (loadLen lens ++ [.ccAssign, .trBuild, .tdSetsize n, .tdSetcrc v, .brRst]) d = .next u ∧
    CodewordTrie lens c u.trNodes paths ∧ u = { d with
      len := lens, code := c, ccNSym := u.ccNSym, ccValid := true, trNodes := u.trNodes, trValid := true
      tdState := .idle, tdCur := 0, tdSize := n, tdXcrc := v, brCur := 0#8, brRem := 0, srcPos := 0#64
      status := .ok } := by
  obtain ⟨arena, paths, harena, hlabels, hpaths, -⟩ := buildTrie_spec lens c
  exact ⟨_, paths, (execAll_append (execAll_loadLen lens d)).trans
    ((execAll_cons (exec_ccAssign_assigned hc)).trans ((execAll_cons (exec_trBuild_built rfl harena)).trans
      ((execAll_cons (exec_tdSetsize_idle n rfl)).trans ((execAll_cons (exec_tdSetcrc_idle v rfl)).trans
        (execAll_singleton (exec_brRst _)))))), ⟨hc, hlabels, hpaths⟩, rfl⟩

theorem setWidth_crc (v : Word32) : (v.setWidth 64).setWidth 32 = v := by
  simp

/-- Settles O56: the payload holds the input's codewords, along which the decode emits the input. -/
theorem roundTrip : Obligations.RoundTrip := by
  unfold Obligations.RoundTrip
  intro input s hne hlen
  obtain ⟨e, he, hok, hc, hin, hres, hstream⟩ := execAll_encode input s hlen
  refine ⟨e, he, hok, hres, fun d hsrc hsrcLen => ?_⟩
  have hcrc : e.res.setWidth 32 = crc32 input := by rw [hres, setWidth_crc]
  rw [hcrc]
  obtain ⟨u, paths, hsetup, htrie, hu⟩ := execAll_decodeSetup hc (BitVec.ofNat 64 input.length) (crc32 input) d
  have hbits : readerBits u = encodedBits e.len e.code input ++ List.replicate e.bwPad.val false := by
    rw [← hstream, ← hsrc, hu]
    simp [readerBits]
  have hreader : ReaderOk u := by
    rw [hu]
    exact ⟨Nat.zero_le _, hsrcLen⟩
  obtain ⟨t, ht, hstatus, hdone, hdout, -, -⟩ := execAll_decode (by rw [hu]) htrie hreader hne
    (fun a ha => (hin a).mpr ha) hbits (by rw [hu]; exact Nat.mod_eq_of_lt hlen) (by rw [hu])
  have hsequence : decodeSequence e.len (BitVec.ofNat 64 input.length) (crc32 input) =
      (loadLen e.len ++ [.ccAssign, .trBuild, .tdSetsize (BitVec.ofNat 64 input.length), .tdSetcrc (crc32 input),
        .brRst]) ++ [.tdStart, .tdRun] := by
    rw [List.append_assoc]
    rfl
  refine ⟨t, ?_, hstatus, hdone, ?_⟩
  · rw [hsequence, execAll_append hsetup, ht]
  · rw [hdout, hu]

/-! ### The empty input (70_reset_and_hazards.md R353) -/

/-- An encode of nothing: no lengths, checksum 0, no padding and no payload. -/
theorem execAll_encode_nil (s : State) : ∃ e, execAll (encodeSequence []) s = .next e ∧ e.len = tblFill 0#8 ∧
    assignCodes e.len = some e.code ∧ e.res = 0#64 ∧ e.bwPad = 0 ∧ e.sink = [] := by
  obtain ⟨e, he, -, hc, hin, hres, hstream⟩ := execAll_encode [] s (by simp)
  have hlen := congrArg List.length hstream
  have hpad := e.bwPad.isLt
  simp only [streamBits_length, encodedBits, List.flatMap_nil, List.nil_append, List.length_replicate] at hlen
  refine ⟨e, he, tbl_ext fun a => ?_, hc, ?_, Fin.ext ?_, List.eq_nil_of_length_eq_zero ?_⟩
  · rw [tblGet_tblFill]
    exact BitVec.eq_of_toNat_eq (not_not.mp (mt (hin a).mp (List.not_mem_nil)))
  · rw [hres, crc_check_values.1]
    rfl
  · simp only [Fin.val_zero]
    omega
  · omega

/-- Settles O57: the encode of nothing, and the decode that ends at `TD.START`. -/
theorem emptyInput : Obligations.EmptyInput := by
  unfold Obligations.EmptyInput
  intro s d
  obtain ⟨e, he, hlen, hc, hres, hpad, hsink⟩ := execAll_encode_nil s
  have hcrc : e.res.setWidth 32 = 0#32 := by rw [hres]; rfl
  obtain ⟨u, paths, hsetup, -, hu⟩ := execAll_decodeSetup hc 0#64 0#32 d
  have hstart := exec_tdStart_finish (s := u) (by rw [hu]) (by rw [hu])
  rw [if_pos (by rw [hu]), tdEnd_of_done rfl] at hstart
  have hsequence : loadLen e.len ++ [.ccAssign, .trBuild, .tdSetsize 0#64, .tdSetcrc 0#32, .brRst, .tdStart] =
      (loadLen e.len ++ [.ccAssign, .trBuild, .tdSetsize 0#64, .tdSetcrc 0#32, .brRst]) ++ [.tdStart] := by
    rw [List.append_assoc]
    rfl
  have hdecode := (execAll_append hsetup).trans (execAll_singleton hstart)
  rw [← hsequence, ← hcrc] at hdecode
  refine ⟨e, _, he, fun a => by simp [lenOf, hlen], hres, hpad, hsink, ?container, hdecode, rfl, rfl, ?output⟩
  case container => rw [containerOf, hlen, hpad, hcrc, hsink, emptyContainer]
  case output => rw [hu]

end Sys2Proof.Machine
